-- ==== Sys2Proof/Word.lean ====
section
/-! DEFINITION. The words the engine computes with: the memory byte, the 256-bit word of the WALU, the 32-bit
control word, and the sizes the source fixes (spec/00_scope.md rules R6 and R7). -/

namespace Sys2Proof

/-- One byte of the byte-addressed memory (spec/20_memory.md rule R50). -/
abbrev Byte := BitVec 8

/-- A *word*: the 256-bit value the WALU works on (spec/00_scope.md rule R12). -/
abbrev Word := BitVec 256

/-- The 32-bit control word and result word carried by `REG_CTL` (spec/10_state.md rules R24 and R25). -/
abbrev Ctl := BitVec 32

/-- `W = 2^256` (spec/00_scope.md rule R7). -/
abbrev W : Nat := 2 ^ 256

end Sys2Proof
end

