-- ==== Sys2Proof/Config.lean ====
section
/-! DEFINITION. The parameters of one engine (spec/00_scope.md rule R6, spec/10_state.md rule R39) as plain data:
the descriptors, the memory map, the policies and the places the source leaves OPEN; and the free values, opaque
constants for every value the spec calls unspecified (spec/93_implementation_defined.md, treatment `any value`). -/

namespace Sys2Proof

/-- The two widths of a `Wide<N>`: `N = 4` limbs and `N = 8` limbs (spec/00_scope.md rule R6). -/
inductive Width where
  | w256
  | w512
deriving DecidableEq, Repr

/-- The two variants of a modulus descriptor (spec/10_state.md rule R30). -/
inductive RedKind where
  | montgomery
  | barrett
deriving DecidableEq, Repr

/-- `CHECK_POLICY` (spec/60_exceptions.md rule R240): `fault` stops the machine with the named violation, `trust`
checks nothing and a violating step has undefined behaviour. -/
inductive CheckPolicy where
  | fault
  | trust
deriving DecidableEq, Repr

/-- A modulus descriptor (spec/10_state.md rule R30): the width of its field, its reduction kind, its modulus, and
the address `CONST_BASE(field)` of its constants block (rule R32). The reduction constant is a function of these
(`Descriptor.reductionConst`). -/
structure Descriptor where
  width : Width
  kind : RedKind
  modulus : Nat
  constBase : Nat
deriving DecidableEq, Repr

/-- What the eight values of the `op` field select (spec/30_encoding.md rules R74 and R76). -/
inductive Opcode where
  | add
  | sub
  | subAndNegate
  | mulLow
  | mulHigh
  | eq
  | reserved6
  | memCpy
deriving DecidableEq, Repr

/-- One row of the opcode map: the value of the `op` field and what it selects. -/
structure OpcodeRow where
  value : Nat
  opcode : Opcode
deriving DecidableEq, Repr

/-- The one table the control word is decoded by (spec/30_encoding.md rule R75): every number of rules R70, R72 and R74 that
concerns it. A bit of neither field is reserved. -/
structure CtlTable where
  /-- how many low bits of the control word are the `op` field -/
  opBits : Nat
  /-- the bit that carries `cin` -/
  cinBit : Nat
  /-- the opcode map -/
  rows : List OpcodeRow
deriving DecidableEq, Repr

/-- What a region of the host's memory map holds (spec/20_memory.md rules R59, R61 and R66). An address of no
region is missing memory. -/
inductive RegionKind where
  /-- readable and writable plain memory -/
  | plain
  /-- plain memory that may only be read -/
  | readOnly
  /-- memory with side effects: a model refuses it as an operand (rule R61) -/
  | device
  /-- memory that holds host code: a model refuses it as an operand (rule R66) -/
  | code
deriving DecidableEq, Repr

/-- One entry of the platform's memory map (spec/20_memory.md rule R62 leaves the map to the platform). -/
structure Region where
  base : Nat
  size : Nat
  kind : RegionKind
deriving DecidableEq, Repr

/-- Every OPEN parameter of spec/00_scope.md rule R6. -/
structure Config where
  /-- `ADDR_BITS`, the width of an operand address (decision D3, default 32) -/
  addrBits : Nat
  /-- the host's number of the register `REG_A` (decision D2) -/
  regNumA : Nat
  /-- the host's number of the register `REG_B` (decision D2) -/
  regNumB : Nat
  /-- the host's number of the register `REG_CTL` (decision D2) -/
  regNumCtl : Nat
  /-- `DELEG_INSN`, the bit pattern of the delegation instruction (decision D2); the engine decodes no host
  instruction (spec/30_encoding.md rule R71), so only the configuration check reads it -/
  delegInsn : Nat
  /-- `ILEN`, the length in bytes of the delegation instruction (decision D2) -/
  ilen : Nat
  /-- the table of the control word (spec/30_encoding.md rule R75; log entry 15) -/
  ctl : CtlTable
  /-- `SCRATCH_BASE` (spec/10_state.md rule R34) -/
  scratchBase : Nat
  /-- the descriptors of the fields in use; an instruction names its descriptor by its place in this list -/
  fields : List Descriptor
  /-- `CHECK_POLICY` (spec/60_exceptions.md rule R240) -/
  checkPolicy : CheckPolicy
  /-- `EQ_PRESERVES_A` (spec/40_walu_primitives.md rule R106) -/
  eqPreservesA : Bool
  /-- the platform's memory map -/
  regions : List Region
deriving DecidableEq, Repr

/-! The free values. None has a body: no proof can learn what it is. Each is applied to the plain counter
`State.tick`, so that every draw is a fresh value. -/

/-- Result bit 0 after `MulLow` and `MulHigh` (spec/40_walu_primitives.md rules R104 and R105; decision D8). -/
opaque Config.freeFlag : Nat → Bool

/-- The word at the first address after `Eq` when `EQ_PRESERVES_A` is false (spec/40_walu_primitives.md rule
R106; decision D6). -/
opaque Config.freeEqWord : Nat → Word

/-- A byte of the scratch space after an operation that leaves it unspecified, by its offset (spec/10_state.md rule
R35). -/
opaque Config.freeScratchByte : Nat → Nat → Byte

/-- `REG_A` after a macro-operation (spec/42_modular_256.md rule R140; decision D17). -/
opaque Config.freeRegA : Nat → Nat

/-- `REG_B` after a macro-operation (spec/42_modular_256.md rule R140; decision D17). -/
opaque Config.freeRegB : Nat → Nat

/-- `REG_CTL` after a macro-operation (spec/42_modular_256.md rule R140; decision D17). -/
opaque Config.freeRegCtl : Nat → Ctl

/-- The host's `pc` after a macro-operation, which issues a number of delegation calls that no rule fixes
(spec/70_reset_and_hazards.md rule R270). -/
opaque Config.freePc : Nat → Nat

/-- The host's `pc` where `pc + ILEN` leaves the address space: wrap-around of the host `pc` is the host's
(spec/10_state.md rule R22). -/
opaque Config.freePcWrap : Nat → Nat

end Sys2Proof
end

