-- ==== Sys2Proof/Machine/Descriptor.lean ====
section
/-! DEFINITION. What a descriptor provides (spec/10_state.md rules R30 to R33): the sizes of a width, the reduction
constants, the eight words of a constants block, and the invariants a descriptor must meet. -/

namespace Sys2Proof

/-- Bytes of a `Wide<N>`: `8 N` (spec/00_scope.md rule R6). -/
def Width.bytes : Width → Nat
  | .w256 => 32
  | .w512 => 64

/-- Bits of a `Wide<N>`: `64 N`. -/
def Width.bits : Width → Nat
  | .w256 => 256
  | .w512 => 512

/-- `2^(64 N)`, one past the largest value of a `Wide<N>`. -/
def Width.limit : Width → Nat
  | .w256 => W
  | .w512 => W * W

/-- One step of the lifting of an inverse of `p` modulo a power of two: from `x` with `p x = 1 (mod 2^k)` to one
modulo `2^(2k)`, kept below `W`. -/
def liftInverse (p x : Nat) : Nat := x * (2 + W - p * x % W) % W

/-- `p^-1 mod W` for an odd `p`: eight liftings from the inverse 1 modulo 2. -/
def inverseModW (p : Nat) : Nat :=
  liftInverse p (liftInverse p (liftInverse p (liftInverse p
    (liftInverse p (liftInverse p (liftInverse p (liftInverse p 1)))))))

/-- `NPRIME = (-(p^-1)) mod 2^256`, the Montgomery reduction constant (spec/10_state.md rules R30 and R32). -/
def Descriptor.nprime (d : Descriptor) : Nat := (W - inverseModW d.modulus) % W

/-- `NEGP = (2^256 - p) mod 2^256`, the Barrett constant `c` (spec/10_state.md rules R30 and R32). For a two-word
modulus it is `(-P_LO) mod 2^256`. -/
def Descriptor.negp (d : Descriptor) : Nat := (W - d.modulus % W) % W

/-- The one reduction constant of the descriptor's variant (spec/10_state.md rule R30). -/
def Descriptor.reductionConst (d : Descriptor) : Nat :=
  match d.kind with
  | .montgomery => d.nprime
  | .barrett => d.negp

/-- The Montgomery radix `R = 2^(64 N)` (spec/00_scope.md rule R12). -/
def Descriptor.radix (d : Descriptor) : Nat := 2 ^ d.width.bits

/-- `R2 = R * R mod p` (spec/10_state.md rule R32). -/
def Descriptor.r2 (d : Descriptor) : Nat := d.radix * d.radix % d.modulus

/-- Word `k` of the field's constants block, at `CONST_BASE + 32 k` (spec/10_state.md rule R32). -/
def Descriptor.constWord (d : Descriptor) (k : Nat) : Nat :=
  match k with
  | 0 => 1
  | 1 => 0
  | 2 => d.modulus % W
  | 3 => d.modulus / W
  | 4 => d.nprime
  | 5 => d.negp
  | 6 => d.r2 % W
  | 7 => d.r2 / W
  | _ => 0

/-- Bytes of a constants block: eight words. -/
def constBlockBytes : Nat := 256

/-- The byte at offset `i` of the constants block, little-endian within each word (spec/20_memory.md rule R52). -/
def Descriptor.constByte (d : Descriptor) (i : Nat) : Byte :=
  BitVec.ofNat 8 (d.constWord (i / 32) / 2 ^ (8 * (i % 32)))

/-- The constant words of a field as operand addresses (spec/10_state.md rule R32). -/
def Descriptor.oneAddr (d : Descriptor) : Nat := d.constBase

/-- The address of `ZERO`. -/
def Descriptor.zeroAddr (d : Descriptor) : Nat := d.constBase + 32

/-- The address of `P_LO`. -/
def Descriptor.pLoAddr (d : Descriptor) : Nat := d.constBase + 64

/-- The address of `P_HI`. -/
def Descriptor.pHiAddr (d : Descriptor) : Nat := d.constBase + 96

/-- The address of `NPRIME`. -/
def Descriptor.nprimeAddr (d : Descriptor) : Nat := d.constBase + 128

/-- The address of `NEGP`. -/
def Descriptor.negpAddr (d : Descriptor) : Nat := d.constBase + 160

/-- The address of `R2_LO`. -/
def Descriptor.r2Addr (d : Descriptor) : Nat := d.constBase + 192

/-- The moduli of the seven fields of spec/10_state.md rule R33, in the order of its table. Each is prime
(`fieldPrimes_prime` in Laws/Primes.lean). -/
def fieldPrimes : List Nat :=
  [ 0xFFFFFFFFFFFFFFFFFFFFFFFFFFFFFFFFFFFFFFFFFFFFFFFFFFFFFFFEFFFFFC2F,
    0xFFFFFFFFFFFFFFFFFFFFFFFFFFFFFFFEBAAEDCE6AF48A03BBFD25E8CD0364141,
    0xFFFFFFFF00000001000000000000000000000000FFFFFFFFFFFFFFFFFFFFFFFF,
    0xFFFFFFFF00000000FFFFFFFFFFFFFFFFBCE6FAADA7179E84F3B9CAC2FC632551,
    0x30644E72E131A029B85045B68181585D97816A916871CA8D3C208C16D87CFD47,
    0x73EDA753299D7D483339D80809A1D80553BDA402FFFE5BFEFFFFFFFF00000001,
    0x1A0111EA397FE69A4B1BA7B6434BACD764774B84F38512BF6730D2A0F6B0F6241EABFFFEB153FFFFB9FEFFFFFFFFAAAB ]

/-- No number from `k` up to the square root of `p` divides `p`; `fuel` is at least `p`. -/
def noDivisorFrom (p : Nat) : (fuel k : Nat) → Bool
  | 0, _ => true
  | fuel + 1, k => if p < k * k then true else if p % k = 0 then false else noDivisorFrom p fuel (k + 1)

/-- Whether `p` is prime (spec/10_state.md rule R31), exactly (`primeTest_iff` in Laws/Primes.lean): the seven moduli of rule
R33 are known to be, every other number is tried by division. -/
def primeTest (p : Nat) : Bool := fieldPrimes.contains p || (decide (2 ≤ p) && noDivisorFrom p p 2)

/-- The range of the modulus (spec/10_state.md rule R31): `3 <= p < 2^256` for a one-word field, `2^256 < p < 2^511`
for a two-word field, with `2^511` as `W * 2^255`. -/
def Descriptor.inRange (d : Descriptor) : Bool :=
  match d.width with
  | .w256 => decide (3 ≤ d.modulus ∧ d.modulus < W)
  | .w512 => decide (W < d.modulus ∧ d.modulus < W * 2 ^ 255)

/-- A Barrett descriptor has one word and `c * (c + 1) <= 2^256` (spec/44_barrett_256.md rule R177,
spec/46_modular_512.md rule R214). -/
def Descriptor.kindOk (d : Descriptor) : Bool :=
  match d.kind with
  | .montgomery => true
  | .barrett => d.width == .w256 && decide (d.negp * (d.negp + 1) ≤ W)

/-- The descriptor invariants of spec/10_state.md rule R31. -/
def Descriptor.ok (d : Descriptor) : Bool :=
  decide (d.modulus % 2 = 1) && d.inRange && d.kindOk && primeTest d.modulus

end Sys2Proof
end

