-- ==== Sys2Proof/Machine/Decimal.lean ====
section
/-! DEFINITION. Decimal literals, and the fields a configuration builds from them (spec/41_wide_value_ops.md rule R130). -/

namespace Sys2Proof

/-- The value of an ASCII digit `0` to `9`. -/
def digitValue (ch : Char) : Option Nat :=
  if 48 ≤ ch.toNat ∧ ch.toNat ≤ 57 then some (ch.toNat - 48) else none

/-- Horner's rule over the digits, after the value `acc` of the digits before them; none at a character that is not a
digit, and none as soon as the value reaches `limit`, which no later digit brings back below it. -/
def digitsValue (limit : Nat) : (acc : Nat) → List Char → Option Nat
  | acc, [] => some acc
  | acc, ch :: s =>
    match digitValue ch with
    | some d => if 10 * acc + d < limit then digitsValue limit (10 * acc + d) s else none
    | none => none

/-- `parse_decimal(s)`: at least one character, only digits, a value below `2^(64 N)` (spec/41_wide_value_ops.md rule
R130; decision D25). -/
def decimalValue (n : Width) (s : List Char) : Option Nat :=
  match s with
  | [] => none
  | ch :: rest => digitsValue n.limit 0 (ch :: rest)

/-- How a field is written down before the configuration is built: as a descriptor, but for its modulus, which is a decimal
literal (spec/41_wide_value_ops.md rule R130). -/
structure FieldSource where
  width : Width
  kind : RedKind
  literal : List Char
  constBase : Nat
deriving DecidableEq, Repr

/-- The descriptor of a field written down; none where `parse_decimal` fails. -/
def FieldSource.build (f : FieldSource) : Option Descriptor :=
  match decimalValue f.width f.literal with
  | some p => some ⟨f.width, f.kind, p, f.constBase⟩
  | none => none

/-- The descriptors of the fields written down; none where one literal fails. -/
def buildFields : List FieldSource → Option (List Descriptor)
  | [] => some []
  | f :: fs =>
    match f.build, buildFields fs with
    | some d, some ds => some (d :: ds)
    | _, _ => none

/-- The build of a configuration: `parse_decimal` of every literal, on the parameters `c` of the platform. None where a literal
fails: that is a build failure, and the configuration is refused (spec/41_wide_value_ops.md rules R124 and R130). -/
def Config.build (c : Config) (fs : List FieldSource) : Option Config :=
  match buildFields fs with
  | some ds => some { c with fields := ds }
  | none => none

end Sys2Proof
end

