-- ==== Sys2Proof/Machine/Layout.lean ====
section
/-! DEFINITION. The address map: where the constants blocks and the scratch space lie, what kind of memory an address
is, and what a configuration must meet before the first operation (spec/20_memory.md rules R50 and R59 to R66,
spec/70_reset_and_hazards.md rule R261). -/

namespace Sys2Proof

/-- One past the last address (spec/20_memory.md rule R50). -/
def Config.addrLimit (c : Config) : Nat := 2 ^ c.addrBits

/-- A value cut to the width of an address register (spec/10_state.md rule R21). -/
def Config.truncAddr (c : Config) (v : Nat) : Nat := v % c.addrLimit

/-- Bytes of the scratch space: twelve words (spec/10_state.md rule R34). -/
def scratchBytes : Nat := 384

/-- The address of the scratch word `S i` (spec/10_state.md rule R34). -/
def Config.scratchWord (c : Config) (i : Nat) : Nat := c.scratchBase + 32 * i

/-- Whether `x` is one of the `n` addresses from `base`. -/
def inBlock (base n x : Nat) : Bool := decide (base ≤ x ∧ x < base + n)

/-- Whether the blocks of `n` bytes at `a` and of `m` bytes at `b` share no address. -/
def disjointBlocks (a n b m : Nat) : Bool := decide (a + n ≤ b ∨ b + m ≤ a)

/-- Whether `x` lies in the scratch space. -/
def Config.inScratch (c : Config) (x : Nat) : Bool := inBlock c.scratchBase scratchBytes x

/-- The field whose constants block holds `x`, if any. -/
def Config.constField? (c : Config) (x : Nat) : Option Descriptor :=
  c.fields.find? (fun d => inBlock d.constBase constBlockBytes x)

/-- The byte of a constants block at `x`, if `x` lies in one (spec/10_state.md rules R32 and R40: the blocks hold
their values at all times). -/
def Config.constByte? (c : Config) (x : Nat) : Option Byte :=
  match c.constField? x with
  | some d => some (d.constByte (x - d.constBase))
  | none => none

/-- The kind of memory at `x`: a constants block is read only; elsewhere the platform's map says; an address of no
region, or outside the address space, is missing memory (spec/20_memory.md rules R59 to R62). -/
def Config.kindAt (c : Config) (x : Nat) : Option RegionKind :=
  if x < c.addrLimit then
    match c.constField? x with
    | some _ => some .readOnly
    | none => (c.regions.find? (fun r => inBlock r.base r.size x)).map Region.kind
  else none

/-- Readable plain memory (spec/20_memory.md rules R59 and R61). -/
def Config.readable (c : Config) (x : Nat) : Bool :=
  c.kindAt x == some .plain || c.kindAt x == some .readOnly

/-- Readable and writable plain memory (spec/20_memory.md rules R59 and R61). -/
def Config.writable (c : Config) (x : Nat) : Bool := c.kindAt x == some .plain

/-- Every one of the `n` bytes from `a` is readable. -/
def Config.readableBlock (c : Config) (a : Nat) : (n : Nat) → Bool
  | 0 => true
  | n + 1 => c.readable a && Config.readableBlock c (a + 1) n

/-- Every one of the `n` bytes from `a` is readable and writable. -/
def Config.writableBlock (c : Config) (a : Nat) : (n : Nat) → Bool
  | 0 => true
  | n + 1 => c.writable a && Config.writableBlock c (a + 1) n

/-- The blocks, each a base and a size, are pairwise disjoint. -/
def pairwiseDisjoint : List (Nat × Nat) → Bool
  | [] => true
  | b :: bs => bs.all (fun b' => disjointBlocks b.1 b.2 b'.1 b'.2) && pairwiseDisjoint bs

/-- The constants blocks of all fields. -/
def Config.constBlocks (c : Config) : List (Nat × Nat) :=
  c.fields.map (fun d => (d.constBase, constBlockBytes))

/-- The host's part: three distinct registers and a delegation instruction that fits its length, which is not 0
(spec/92_eei_decisions.md D2). -/
def Config.hostOk (c : Config) : Bool :=
  c.regNumA != c.regNumB && c.regNumA != c.regNumCtl && c.regNumB != c.regNumCtl && decide (0 < c.ilen) &&
    decide (c.delegInsn < 2 ^ (8 * c.ilen))

/-- The twelve scratch words are present: aligned, and every byte of them inside the address space in readable and writable plain
memory, outside the constants blocks; how many entries of the platform's map it spans does not matter
(spec/70_reset_and_hazards.md rule R261 (b), spec/10_state.md rule R34). -/
def Config.scratchOk (c : Config) : Bool :=
  decide (c.scratchBase % 32 = 0) && (List.range 12).all (fun i => c.writableBlock (c.scratchWord i) 32)

/-- The memory map has no two entries for one address, and the scratch space and the constants blocks are pairwise
disjoint, each constants block aligned and inside the address space (spec/20_memory.md rule R62,
spec/70_reset_and_hazards.md rule R261 (a) and (b)). -/
def Config.layoutOk (c : Config) : Bool :=
  c.fields.all (fun d => decide (d.constBase % 32 = 0) && decide (d.constBase + constBlockBytes ≤ c.addrLimit)) &&
    pairwiseDisjoint ((c.scratchBase, scratchBytes) :: c.constBlocks) &&
      pairwiseDisjoint (c.regions.map (fun r => (r.base, r.size)))

/-- What a model asks of a configuration before any operation runs (spec/70_reset_and_hazards.md rule R261 (a) to
(c)). -/
def Config.ok (c : Config) : Bool :=
  c.hostOk && c.scratchOk && c.layoutOk && c.fields.all Descriptor.ok

end Sys2Proof
end

