-- ==== Sys2Proof/Machine/Standard.lean ====
section
/-! DEFINITION. The configuration the machine has at reset: the table of the control word (spec/30_encoding.md rule R74), the
defaults of spec/00_scope.md rule R6, the seven fields of spec/10_state.md rule R33, and the layout of
spec/95_test_vectors.md section 9 (log entry 5). -/

namespace Sys2Proof

/-- The table of the control word, all its numbers in one place (spec/30_encoding.md rules R70, R74 and R75): `op` in the low 3
bits, `cin` in bit 6, the seven opcodes; the value 6 is reserved (rule R76). -/
def ctlTable : CtlTable where
  opBits := 3
  cinBit := 6
  rows := [⟨0, .add⟩, ⟨1, .sub⟩, ⟨2, .subAndNegate⟩, ⟨3, .mulLow⟩, ⟨4, .mulHigh⟩, ⟨5, .eq⟩, ⟨6, .reserved6⟩, ⟨7, .memCpy⟩]

/-- `CONST_BASE` of the field number `k`: the blocks follow each other from 0x2000 (DESIGN CHOICE, log entry 5). -/
def standardConstBase (k : Nat) : Nat := 0x2000 + 256 * k

/-- The seven fields of spec/10_state.md rule R33, in the order of its table, their moduli as the decimal literals of the
values there. The reduction kind of the fields 1 to 5 is OPEN there; Montgomery is the only admissible one
(spec/93_implementation_defined.md U17). -/
def standardSources : List FieldSource :=
  [ -- secp256k1 field
    ⟨.w256, .barrett,
      ['1', '1', '5', '7', '9', '2', '0', '8', '9', '2', '3', '7', '3', '1', '6', '1', '9', '5', '4', '2', '3', '5', '7', '0',
       '9', '8', '5', '0', '0', '8', '6', '8', '7', '9', '0', '7', '8', '5', '3', '2', '6', '9', '9', '8', '4', '6', '6', '5',
       '6', '4', '0', '5', '6', '4', '0', '3', '9', '4', '5', '7', '5', '8', '4', '0', '0', '7', '9', '0', '8', '8', '3', '4',
       '6', '7', '1', '6', '6', '3'], standardConstBase 0⟩,
    -- secp256k1 scalar
    ⟨.w256, .montgomery,
      ['1', '1', '5', '7', '9', '2', '0', '8', '9', '2', '3', '7', '3', '1', '6', '1', '9', '5', '4', '2', '3', '5', '7', '0',
       '9', '8', '5', '0', '0', '8', '6', '8', '7', '9', '0', '7', '8', '5', '2', '8', '3', '7', '5', '6', '4', '2', '7', '9',
       '0', '7', '4', '9', '0', '4', '3', '8', '2', '6', '0', '5', '1', '6', '3', '1', '4', '1', '5', '1', '8', '1', '6', '1',
       '4', '9', '4', '3', '3', '7'], standardConstBase 1⟩,
    -- secp256r1 field
    ⟨.w256, .montgomery,
      ['1', '1', '5', '7', '9', '2', '0', '8', '9', '2', '1', '0', '3', '5', '6', '2', '4', '8', '7', '6', '2', '6', '9', '7',
       '4', '4', '6', '9', '4', '9', '4', '0', '7', '5', '7', '3', '5', '3', '0', '0', '8', '6', '1', '4', '3', '4', '1', '5',
       '2', '9', '0', '3', '1', '4', '1', '9', '5', '5', '3', '3', '6', '3', '1', '3', '0', '8', '8', '6', '7', '0', '9', '7',
       '8', '5', '3', '9', '5', '1'], standardConstBase 2⟩,
    -- secp256r1 scalar
    ⟨.w256, .montgomery,
      ['1', '1', '5', '7', '9', '2', '0', '8', '9', '2', '1', '0', '3', '5', '6', '2', '4', '8', '7', '6', '2', '6', '9', '7',
       '4', '4', '6', '9', '4', '9', '4', '0', '7', '5', '7', '3', '5', '2', '9', '9', '9', '6', '9', '5', '5', '2', '2', '4',
       '1', '3', '5', '7', '6', '0', '3', '4', '2', '4', '2', '2', '2', '5', '9', '0', '6', '1', '0', '6', '8', '5', '1', '2',
       '0', '4', '4', '3', '6', '9'], standardConstBase 3⟩,
    -- BN254 Fq
    ⟨.w256, .montgomery,
      ['2', '1', '8', '8', '8', '2', '4', '2', '8', '7', '1', '8', '3', '9', '2', '7', '5', '2', '2', '2', '2', '4', '6', '4',
       '0', '5', '7', '4', '5', '2', '5', '7', '2', '7', '5', '0', '8', '8', '6', '9', '6', '3', '1', '1', '1', '5', '7', '2',
       '9', '7', '8', '2', '3', '6', '6', '2', '6', '8', '9', '0', '3', '7', '8', '9', '4', '6', '4', '5', '2', '2', '6', '2',
       '0', '8', '5', '8', '3'], standardConstBase 4⟩,
    -- BLS12-381 Fr
    ⟨.w256, .montgomery,
      ['5', '2', '4', '3', '5', '8', '7', '5', '1', '7', '5', '1', '2', '6', '1', '9', '0', '4', '7', '9', '4', '4', '7', '7',
       '4', '0', '5', '0', '8', '1', '8', '5', '9', '6', '5', '8', '3', '7', '6', '9', '0', '5', '5', '2', '5', '0', '0', '5',
       '2', '7', '6', '3', '7', '8', '2', '2', '6', '0', '3', '6', '5', '8', '6', '9', '9', '9', '3', '8', '5', '8', '1', '1',
       '8', '4', '5', '1', '3'], standardConstBase 5⟩,
    -- BLS12-381 Fq
    ⟨.w512, .montgomery,
      ['4', '0', '0', '2', '4', '0', '9', '5', '5', '5', '2', '2', '1', '6', '6', '7', '3', '9', '3', '4', '1', '7', '7', '8',
       '9', '8', '2', '5', '7', '3', '5', '9', '0', '4', '1', '5', '6', '5', '5', '6', '8', '8', '2', '8', '1', '9', '9', '3',
       '9', '0', '0', '7', '8', '8', '5', '3', '3', '2', '0', '5', '8', '1', '3', '6', '1', '2', '4', '0', '3', '1', '6', '5',
       '0', '4', '9', '0', '8', '3', '7', '8', '6', '4', '4', '4', '2', '6', '8', '7', '6', '2', '9', '1', '2', '9', '0', '1',
       '5', '6', '6', '4', '0', '3', '7', '8', '9', '4', '2', '7', '2', '5', '5', '9', '7', '8', '7'], standardConstBase 6⟩ ]

/-- The platform before a field is bound: `ADDR_BITS = 32`, `CHECK_POLICY = fault` and `EQ_PRESERVES_A = false` are the defaults
of spec/00_scope.md rule R6; the rest is OPEN there and chosen (log entry 5). -/
def standardPlatform : Config where
  addrBits := 32
  regNumA := 0
  regNumB := 1
  regNumCtl := 2
  delegInsn := 0
  ilen := 4
  ctl := ctlTable
  scratchBase := 0x1000
  fields := []
  checkPolicy := .fault
  eqPreservesA := false
  regions := [⟨0, 2 ^ 32, .plain⟩]

/-- The configuration at reset: built from the literals of the seven fields (spec/41_wide_value_ops.md rule R130). The build
succeeds (`build_standard` in Laws/State.lean). -/
def Config.standard : Config := (Config.build standardPlatform standardSources).getD standardPlatform

end Sys2Proof
end

