-- ==== Sys2Proof/Syntax.lean ====
section
/-! DEFINITION. The syntax of the engine's operations: one constructor for each row of spec/opcode_table.json. The
seven primitives carry the one field their control word holds, `cin`; a value operation carries its width and its
addresses; a macro-operation carries its descriptor (by its place in `Config.fields`) and its operand addresses
(spec/30_encoding.md rules R70, R80 and R81). -/

namespace Sys2Proof

/-- One operation of the engine. `f` is the descriptor a macro-operation is bound to (spec/10_state.md rule R30);
`dst`, `src`, `a` and `b` are operand addresses (spec/42_modular_256.md rule R140); `n` is the width of a value. -/
inductive Instr where
  /-- `WALU.ADD` (spec/40_walu_primitives.md rule R101) -/
  | waluAdd (cin : Bool)
  /-- `WALU.SUB` (rule R102) -/
  | waluSub (cin : Bool)
  /-- `WALU.SUBNEG` (rule R103) -/
  | waluSubNeg (cin : Bool)
  /-- `WALU.MULLO` (rule R104) -/
  | waluMulLo (cin : Bool)
  /-- `WALU.MULHI` (rule R105) -/
  | waluMulHi (cin : Bool)
  /-- `WALU.EQ` (rule R106) -/
  | waluEq (cin : Bool)
  /-- `WALU.MEMCPY` (rule R107) -/
  | waluMemCpy (cin : Bool)
  /-- the reserved opcode 6 (spec/30_encoding.md rule R76) -/
  | reserved (cin : Bool)
  /-- `parity` (spec/41_wide_value_ops.md rule R122) -/
  | parity (n : Width) (a : Nat)
  /-- `halve` (rule R123) -/
  | halve (n : Width) (a : Nat) (cin : Bool)
  /-- `be_decode`: the value at `dst` from the byte string at `bytes` (rules R125 and R131) -/
  | beDecode (n : Width) (dst bytes : Nat)
  /-- `be_encode`: the byte string at `bytes` from the value at `src` (rules R126 and R131) -/
  | beEncode (n : Width) (bytes src : Nat)
  /-- `from_bytes` (rule R128) -/
  | fromBytes (f : Nat) (dst bytes : Nat)
  /-- `to_bytes` (rule R129) -/
  | toBytes (f : Nat) (bytes src : Nat)
  /-- `parse_decimal` (rule R130) -/
  | parseDecimal (n : Width) (s : List Char)
  /-- `add_mod` (spec/42_modular_256.md rule R142) -/
  | addMod (f : Nat) (dst src : Nat)
  /-- `sub_mod` (rule R143) -/
  | subMod (f : Nat) (dst src : Nat)
  /-- `double_mod` (rule R144) -/
  | doubleMod (f : Nat) (dst : Nat)
  /-- `negate_mod` (rule R145) -/
  | negateMod (f : Nat) (dst : Nat)
  /-- `lt` (rule R146) -/
  | lt (f : Nat) (a b : Nat)
  /-- `leq` (rule R147) -/
  | leq (f : Nat) (a b : Nat)
  /-- `eq` (rule R148) -/
  | eq (f : Nat) (a b : Nat)
  /-- `is_zero` (rule R149) -/
  | isZero (f : Nat) (a : Nat)
  /-- `is_one` (rule R150) -/
  | isOne (f : Nat) (a : Nat)
  /-- `is_zero_mod` (rule R151) -/
  | isZeroMod (f : Nat) (a : Nat)
  /-- `mul_mont` (spec/43_montgomery_256.md rule R161) -/
  | mulMont (f : Nat) (dst src : Nat)
  /-- `square_mont` (rule R162) -/
  | squareMont (f : Nat) (dst : Nat)
  /-- `to_representation` of a Montgomery field (rule R165) -/
  | toRepresentation (f : Nat) (dst : Nat)
  /-- `to_integer` of a Montgomery field (rule R166) -/
  | toInteger (f : Nat) (dst : Nat)
  /-- `mul_barret` (spec/44_barrett_256.md rule R176) -/
  | mulBarret (f : Nat) (dst src : Nat)
  /-- `square_barret` (rule R178) -/
  | squareBarret (f : Nat) (dst : Nat)
  /-- `to_representation` of a Barrett field (rule R179) -/
  | toRepresentationBarrett (f : Nat) (dst : Nat)
  /-- `to_integer` of a Barrett field (rule R179) -/
  | toIntegerBarrett (f : Nat) (dst : Nat)
  /-- `inv_mod` (spec/45_inversion_256.md rule R185) -/
  | invMod (f : Nat) (dst : Nat)
  /-- `add_mod512` (spec/46_modular_512.md rule R203) -/
  | addMod512 (f : Nat) (dst src : Nat)
  /-- `sub_mod512` (rule R204) -/
  | subMod512 (f : Nat) (dst src : Nat)
  /-- `double_mod512` (rule R205) -/
  | doubleMod512 (f : Nat) (dst : Nat)
  /-- `negate_mod512` (rule R206) -/
  | negateMod512 (f : Nat) (dst : Nat)
  /-- `lt512` (rule R207) -/
  | lt512 (f : Nat) (a b : Nat)
  /-- `leq512` (rule R208) -/
  | leq512 (f : Nat) (a b : Nat)
  /-- `eq512` (rule R209) -/
  | eq512 (f : Nat) (a b : Nat)
  /-- `is_zero512` (rule R210) -/
  | isZero512 (f : Nat) (a : Nat)
  /-- `is_one512` (rule R211) -/
  | isOne512 (f : Nat) (a : Nat)
  /-- `is_zero_mod512` (rule R212) -/
  | isZeroMod512 (f : Nat) (a : Nat)
  /-- `mul_mont512` (spec/47_montgomery_512.md rule R222) -/
  | mulMont512 (f : Nat) (dst src : Nat)
  /-- `square_mont512` (rule R223) -/
  | squareMont512 (f : Nat) (dst : Nat)
  /-- `to_representation512` (rule R225) -/
  | toRepresentation512 (f : Nat) (dst : Nat)
  /-- `to_integer512` (rule R226) -/
  | toInteger512 (f : Nat) (dst : Nat)
deriving DecidableEq, Repr

end Sys2Proof
end

