-- ==== Sys2Proof/WellFormed.lean ====
section
/-! DEFINITION. When an operation is well formed for a configuration: the checks on its fields that hold before the
machine looks at memory (spec/42_modular_256.md rule R140, spec/46_modular_512.md rule R201, spec/10_state.md rule
R31, spec/41_wide_value_ops.md rules R125 and R130). -/

namespace Sys2Proof

/-- The address of a `Wide<N>` operand: an unsigned integer of `ADDR_BITS` bits (spec/20_memory.md rule R50), a
multiple of 32 (rule R55), whose last word does not wrap past the top of the address space (rule R57). -/
def Config.wfAddr (c : Config) (n : Width) (a : Nat) : Bool :=
  decide (a + (n.bytes - 32) < c.addrLimit) && decide (a % 32 = 0)

/-- The address of a byte string: any address, any alignment (spec/41_wide_value_ops.md rule R131). -/
def Config.wfByteAddr (c : Config) (a : Nat) : Bool := decide (a < c.addrLimit)

/-- Two operand blocks do not meet (spec/42_modular_256.md rule R140, spec/46_modular_512.md rule R201). -/
def wfPair (n : Width) (a b : Nat) : Bool := disjointBlocks a n.bytes b n.bytes

/-- `f` names a descriptor that meets its invariants, of width `w`, and of kind `k` where the operation asks for one
(spec/opcode_table.json, column "descriptor"). -/
def Config.wfField (c : Config) (f : Nat) (w : Width) (k : Option RedKind) : Bool :=
  match c.fields[f]? with
  | none => false
  | some d => d.ok && d.width == w && (k == none || k == some d.kind)

/-- The width of the field `f`; one word where there is no such field (`wfAnyField` then fails). -/
def Config.widthOf (c : Config) (f : Nat) : Width :=
  match c.fields[f]? with
  | some d => d.width
  | none => .w256

/-- `f` names a descriptor that meets its invariants (any width, any kind). -/
def Config.wfAnyField (c : Config) (f : Nat) : Bool :=
  match c.fields[f]? with
  | none => false
  | some d => d.ok

/-- The well-formed operations of a configuration. -/
def Instr.wf (c : Config) : Instr → Bool
  | .waluAdd _ => true
  | .waluSub _ => true
  | .waluSubNeg _ => true
  | .waluMulLo _ => true
  | .waluMulHi _ => true
  | .waluEq _ => true
  | .waluMemCpy _ => true
  | .reserved _ => true
  | .parity n a => c.wfAddr n a
  | .halve n a _ => c.wfAddr n a
  | .beDecode n dst bytes => c.wfAddr n dst && c.wfByteAddr bytes
  | .beEncode n bytes src => c.wfByteAddr bytes && c.wfAddr n src
  | .fromBytes f dst bytes => c.wfAnyField f && c.wfAddr (c.widthOf f) dst && c.wfByteAddr bytes
  | .toBytes f bytes src => c.wfAnyField f && c.wfByteAddr bytes && c.wfAddr (c.widthOf f) src
  | .parseDecimal n s => (decimalValue n s).isSome
  | .addMod f dst src => c.wfField f .w256 none && c.wfAddr .w256 dst && c.wfAddr .w256 src && wfPair .w256 dst src
  | .subMod f dst src => c.wfField f .w256 none && c.wfAddr .w256 dst && c.wfAddr .w256 src && wfPair .w256 dst src
  | .doubleMod f dst => c.wfField f .w256 none && c.wfAddr .w256 dst
  | .negateMod f dst => c.wfField f .w256 none && c.wfAddr .w256 dst
  | .lt f a b => c.wfField f .w256 none && c.wfAddr .w256 a && c.wfAddr .w256 b && wfPair .w256 a b
  | .leq f a b => c.wfField f .w256 none && c.wfAddr .w256 a && c.wfAddr .w256 b && wfPair .w256 a b
  | .eq f a b => c.wfField f .w256 none && c.wfAddr .w256 a && c.wfAddr .w256 b && wfPair .w256 a b
  | .isZero f a => c.wfField f .w256 none && c.wfAddr .w256 a
  | .isOne f a => c.wfField f .w256 none && c.wfAddr .w256 a
  | .isZeroMod f a => c.wfField f .w256 none && c.wfAddr .w256 a
  | .mulMont f dst src => c.wfField f .w256 (some .montgomery) && c.wfAddr .w256 dst && c.wfAddr .w256 src && wfPair .w256 dst src
  | .squareMont f dst => c.wfField f .w256 (some .montgomery) && c.wfAddr .w256 dst
  | .toRepresentation f dst => c.wfField f .w256 (some .montgomery) && c.wfAddr .w256 dst
  | .toInteger f dst => c.wfField f .w256 (some .montgomery) && c.wfAddr .w256 dst
  | .mulBarret f dst src => c.wfField f .w256 (some .barrett) && c.wfAddr .w256 dst && c.wfAddr .w256 src && wfPair .w256 dst src
  | .squareBarret f dst => c.wfField f .w256 (some .barrett) && c.wfAddr .w256 dst
  | .toRepresentationBarrett f dst => c.wfField f .w256 (some .barrett) && c.wfAddr .w256 dst
  | .toIntegerBarrett f dst => c.wfField f .w256 (some .barrett) && c.wfAddr .w256 dst
  | .invMod f dst => c.wfField f .w256 none && c.wfAddr .w256 dst
  | .addMod512 f dst src => c.wfField f .w512 none && c.wfAddr .w512 dst && c.wfAddr .w512 src && wfPair .w512 dst src
  | .subMod512 f dst src => c.wfField f .w512 none && c.wfAddr .w512 dst && c.wfAddr .w512 src && wfPair .w512 dst src
  | .doubleMod512 f dst => c.wfField f .w512 none && c.wfAddr .w512 dst
  | .negateMod512 f dst => c.wfField f .w512 none && c.wfAddr .w512 dst
  | .lt512 f a b => c.wfField f .w512 none && c.wfAddr .w512 a && c.wfAddr .w512 b && wfPair .w512 a b
  | .leq512 f a b => c.wfField f .w512 none && c.wfAddr .w512 a && c.wfAddr .w512 b && wfPair .w512 a b
  | .eq512 f a b => c.wfField f .w512 none && c.wfAddr .w512 a && c.wfAddr .w512 b && wfPair .w512 a b
  | .isZero512 f a => c.wfField f .w512 none && c.wfAddr .w512 a
  | .isOne512 f a => c.wfField f .w512 none && c.wfAddr .w512 a
  | .isZeroMod512 f a => c.wfField f .w512 none && c.wfAddr .w512 a
  | .mulMont512 f dst src => c.wfField f .w512 (some .montgomery) && c.wfAddr .w512 dst && c.wfAddr .w512 src && wfPair .w512 dst src
  | .squareMont512 f dst => c.wfField f .w512 (some .montgomery) && c.wfAddr .w512 dst
  | .toRepresentation512 f dst => c.wfField f .w512 (some .montgomery) && c.wfAddr .w512 dst
  | .toInteger512 f dst => c.wfField f .w512 (some .montgomery) && c.wfAddr .w512 dst

end Sys2Proof
end

