-- ==== Sys2Proof/Decode.lean ====
section
/-! DEFINITION. Decoding the control word of a delegation call, and encoding (spec/30_encoding.md rules R70 to R78). Both read
every number from the one table of the configuration (rule R75), so that an audit that corrects a literal changes that
table and no definition here. Value operations and macro-operations have no encoding (rule R81). -/

namespace Sys2Proof

/-- `op <- ctl[2:0]` (spec/30_encoding.md rule R72): the low bits the table gives the field. -/
def CtlTable.opField (t : CtlTable) (ctl : Ctl) : Nat := ctl.toNat % 2 ^ t.opBits

/-- `cin <- ctl[6]` (spec/30_encoding.md rule R72): the bit the table names. -/
def CtlTable.cinField (t : CtlTable) (ctl : Ctl) : Bool := ctl.getLsbD t.cinBit

/-- `rsv`: the bits of the control word outside the two fields, all others cleared (spec/30_encoding.md rule R72). -/
def CtlTable.rsvField (t : CtlTable) (ctl : Ctl) : Ctl :=
  ctl &&& ~~~(BitVec.ofNat 32 (2 ^ t.opBits - 1) ||| BitVec.ofNat 32 (2 ^ t.cinBit))

/-- Why a control word is rejected. -/
inductive DecodeError where
  /-- a bit of 31:7 or 5:3 is set (spec/30_encoding.md rule R76 (b)) -/
  | reservedBits
  /-- the `op` field has no row in the opcode map -/
  | noSuchOpcode
deriving DecidableEq, Repr

/-- The operation an opcode selects with carry-in `cin`. -/
def Opcode.instr (o : Opcode) (cin : Bool) : Instr :=
  match o with
  | .add => .waluAdd cin
  | .sub => .waluSub cin
  | .subAndNegate => .waluSubNeg cin
  | .mulLow => .waluMulLo cin
  | .mulHigh => .waluMulHi cin
  | .eq => .waluEq cin
  | .reserved6 => .reserved cin
  | .memCpy => .waluMemCpy cin

/-- Decoding a control word (spec/30_encoding.md rules R72, R74 and R76). Total: every word gives an operation or an
error with a name. -/
def decode (t : CtlTable) (ctl : Ctl) : Except DecodeError Instr :=
  if t.rsvField ctl = 0 then
    match t.rows.find? (fun r => r.value == t.opField ctl) with
    | some r => .ok (r.opcode.instr (t.cinField ctl))
    | none => .error .noSuchOpcode
  else .error .reservedBits

/-- The control word of an opcode and a carry-in, if the table has a row for it (spec/30_encoding.md rules R70 and R74). -/
def CtlTable.word (t : CtlTable) (o : Opcode) (cin : Bool) : Option Ctl :=
  match t.rows.find? (fun r => r.opcode == o) with
  | some r => some (BitVec.ofNat 32 (r.value + if cin then 2 ^ t.cinBit else 0))
  | none => none

/-- The control word of an operation, if it has one (spec/30_encoding.md rules R74, R76 and R81). -/
def encode (t : CtlTable) : Instr → Option Ctl
  | .waluAdd cin => t.word .add cin
  | .waluSub cin => t.word .sub cin
  | .waluSubNeg cin => t.word .subAndNegate cin
  | .waluMulLo cin => t.word .mulLow cin
  | .waluMulHi cin => t.word .mulHigh cin
  | .waluEq cin => t.word .eq cin
  | .reserved cin => t.word .reserved6 cin
  | .waluMemCpy cin => t.word .memCpy cin
  | .parity _ _ => none
  | .halve _ _ _ => none
  | .beDecode _ _ _ => none
  | .beEncode _ _ _ => none
  | .fromBytes _ _ _ => none
  | .toBytes _ _ _ => none
  | .parseDecimal _ _ => none
  | .addMod _ _ _ => none
  | .subMod _ _ _ => none
  | .doubleMod _ _ => none
  | .negateMod _ _ => none
  | .lt _ _ _ => none
  | .leq _ _ _ => none
  | .eq _ _ _ => none
  | .isZero _ _ => none
  | .isOne _ _ => none
  | .isZeroMod _ _ => none
  | .mulMont _ _ _ => none
  | .squareMont _ _ => none
  | .toRepresentation _ _ => none
  | .toInteger _ _ => none
  | .mulBarret _ _ _ => none
  | .squareBarret _ _ => none
  | .toRepresentationBarrett _ _ => none
  | .toIntegerBarrett _ _ => none
  | .invMod _ _ => none
  | .addMod512 _ _ _ => none
  | .subMod512 _ _ _ => none
  | .doubleMod512 _ _ => none
  | .negateMod512 _ _ => none
  | .lt512 _ _ _ => none
  | .leq512 _ _ _ => none
  | .eq512 _ _ _ => none
  | .isZero512 _ _ => none
  | .isOne512 _ _ => none
  | .isZeroMod512 _ _ => none
  | .mulMont512 _ _ _ => none
  | .squareMont512 _ _ => none
  | .toRepresentation512 _ _ => none
  | .toInteger512 _ _ => none

/-- What the decoder reads from an instruction of the opcode table whose bits are `w`: the control word lives in a
register, so its bits need no byte order. The table is the one of rule R74 (`ctlTable`). -/
def decodeTableWord (nbits w : Nat) : Option Instr :=
  match decode ctlTable (BitVec.ofNat 32 (w % 2 ^ nbits)) with
  | .ok i => some i
  | .error _ => none

end Sys2Proof
end

