-- ==== Sys2Proof/Machine/State.lean ====
section
/-! DEFINITION. The state of the engine as plain data (spec/10_state.md), the reasons a step can stop
(spec/60_exceptions.md rule R240), and the state after reset (spec/10_state.md rule R40). -/

namespace Sys2Proof.Machine

/-- Operand memory as (address, byte) pairs in one canonical form: addresses strictly rising and no byte 0, which is
what an unlisted address reads as (log entry 2). -/
abbrev Memory := List Host.Cell

/-- The violations of spec/60_exceptions.md rule R240. With `CHECK_POLICY = fault` the step raises them and the machine
is stuck: no register or memory changes. All are safe: the spec gives a violating step no result. -/
inductive Fault where
  /-- `V_RESERVED(ctl)`: a control word with `op = 6` or a reserved bit set. Raised by a delegation call (rule R241).
  Safe. -/
  | vReserved (ctl : Ctl)
  /-- `V_ALIGN(a, b)`: an operand address that is no multiple of 32. Raised by a delegation call, a value operation and
  a macro-operation (rule R242); of one with one operand, `a = b`. Safe. -/
  | vAlign (a b : Nat)
  /-- `V_ALIAS(a)`: `REG_A = REG_B`. Raised by a delegation call (rule R243). Safe. -/
  | vAlias (a : Nat)
  /-- `V_ACCESS(a, b)`: an operand that is missing, protected, device or code memory. Raised by a delegation call (rule R245), a
  macro-operation (rule R249) and a value operation (spec/20_memory.md rules R59, R61 and R66, spec/93_implementation_defined.md
  U9; log entry 9). A byte that nothing has written is none of these. Safe. -/
  | vAccess (a b : Nat)
  /-- `V_REENTRY`: a macro-operation that starts while `scratch_busy = 1` (rule R246). Safe. -/
  | vReentry
  /-- `V_OVERLAP(a, b)`: an operand of a macro-operation or value operation meets the scratch space, a constants block it
  would write, or the other operand (rule R247). Safe. -/
  | vOverlap (a b : Nat)
deriving DecidableEq, Repr

/-- Why a step has no meaning. All are safe: the spec tells a model to refuse each. -/
inductive Refusal where
  /-- `exec` has no meaning for the instruction yet. Raised by an arm of `exec`; no arm does. Safe. -/
  | notModelled (mnemonic : String)
  /-- A violation under `CHECK_POLICY = trust`, where a violating step has undefined behaviour and a model refuses it
  (spec/60_exceptions.md rule R240). Raised wherever the fault would be. Safe. -/
  | violated (v : Fault)
  /-- `V_RANGE`: an operand value outside the range its rule states; the hardware does not detect it and a model refuses
  the transition (spec/60_exceptions.md rule R244). Raised by macro-operations. Safe. -/
  | vRange
  /-- The macro-operation names no descriptor of the configuration (spec/10_state.md rule R30). Safe. -/
  | noSuchField
  /-- The descriptor breaks an invariant (spec/10_state.md rule R31, spec/44_barrett_256.md rule R177). Safe. -/
  | badDescriptor
  /-- The descriptor is of the other width: the operation of one module bound to a field of the other, 512-bit Barrett
  multiplication and 512-bit inversion among them (spec/46_modular_512.md rule R214). Safe. -/
  | wrongWidth
  /-- The descriptor is of the other reduction kind (spec/43_montgomery_256.md rule R161, spec/44_barrett_256.md rule
  R176). Safe. -/
  | wrongKind
  /-- A malformed decimal literal: a configuration error (spec/41_wide_value_ops.md rule R130). Raised by
  `parse_decimal`. Safe. -/
  | badLiteral
  /-- A configuration that breaks spec/70_reset_and_hazards.md rule R261. Raised by `step`. Safe. -/
  | badConfig
deriving DecidableEq, Repr

/-- What an operation returns to its caller other than in `REG_CTL` (log entry 7). -/
inductive Ret where
  /-- nothing -/
  | none
  /-- one bit: a comparison, `parity`, `ok` of `inv_mod`, the presence of a value of `from_bytes` -/
  | bit (b : Bool)
  /-- the value of `parse_decimal` -/
  | value (v : Nat)
deriving DecidableEq, Repr

/-- What the host asks of the engine (log entry 6). -/
inductive Request where
  /-- a delegation call happens now, with these three register values (spec/30_encoding.md rule R71) -/
  | call (a b : Nat) (ctl : Ctl)
  /-- a value operation or macro-operation, with its operands and its descriptor (spec/30_encoding.md rule R81). DESIGN CHOICE
  (log entry 6): asked for in this form, a primitive takes `cin` from the request and its two addresses from `REG_A` and
  `REG_B` as they stand, and reads no control word; the spec has a primitive only as a call. -/
  | op (i : Instr)
deriving DecidableEq, Repr

/-- The state of the engine and of what it shares with the host. -/
structure State where
  /-- the parameters, which no step changes (spec/10_state.md rule R39; log entry 5) -/
  cfg : Config
  /-- `REG_A`, `ADDR_BITS` wide (spec/10_state.md rule R21) -/
  regA : Nat
  /-- `REG_B`, `ADDR_BITS` wide (spec/10_state.md rule R21) -/
  regB : Nat
  /-- `REG_CTL` (spec/10_state.md rules R21, R24 and R25) -/
  regCtl : Ctl
  /-- the host's program counter (spec/10_state.md rule R22) -/
  pc : Nat
  /-- memory outside the scratch space and the constants blocks (spec/10_state.md rule R38) -/
  mem : Memory
  /-- the scratch words `S0` to `S11`: word `S i` is the bytes `32 i` to `32 i + 31`, lowest address first
  (spec/10_state.md rule R34) -/
  scratch : Vector Byte 384
  /-- `scratch_busy` (spec/10_state.md rule R36) -/
  scratchBusy : Bool
  /-- what the last operation returned other than in `REG_CTL` (the model's own field, log entry 7) -/
  ret : Ret
  /-- what the host has asked, oldest first (the model's own field, log entry 6) -/
  requests : List Request
  /-- the counter the free values are applied to: operations completed so far (the model's own field, log entry 8) -/
  tick : Nat
deriving DecidableEq, Repr

/-- The machine right after reset (spec/10_state.md rule R40): `scratch_busy = 0` and no operation in progress; the
registers, the scratch words and memory are unspecified there and hold the values of log entries 1 and 2. -/
def State.reset : State where
  cfg := Config.standard
  regA := 0x100
  regB := 0x140
  regCtl := 0
  pc := 0
  mem := []
  scratch := Vector.replicate 384 0
  scratchBusy := false
  ret := .none
  requests := []
  tick := 0

end Sys2Proof.Machine
end

