-- ==== Sys2Proof/Machine/Ops.lean ====
section
/-! DEFINITION. The named operations over memory and registers, and the two ends of an operation: a violation, and
completion. Taking the trap of a delegation call and returning from it is `State.completeCall`
(spec/60_exceptions.md rule R251: the trap is the call, its return is the write of the result word and the advance of
`pc`); there is no other trap entry and no return instruction. -/

namespace Sys2Proof.Machine

/-- What an operation answers. -/
abbrev Out := Host.Outcome State Fault Refusal

/-! ### Operand memory: the list of cells -/

/-- The byte of one address; an unlisted address reads as 0 (DESIGN CHOICE, log entry 2). -/
def Memory.get : Memory → Nat → Byte
  | [], _ => 0
  | c :: m, x => if c.1 = x then c.2 else Memory.get m x

/-- Writing one byte: the cells below, the new cell unless it holds the byte an unlisted address reads as, the cells
above. -/
def Memory.set (m : Memory) (x : Nat) (b : Byte) : Memory :=
  m.filter (fun c => decide (c.1 < x)) ++ (if b = 0 then [] else [(x, b)]) ++ m.filter (fun c => decide (x < c.1))

/-- The canonical form: addresses strictly rising, no cell with the byte 0. -/
def Memory.wf : Memory → Bool
  | [] => true
  | c :: m => c.2 != 0 && m.all (fun c' => decide (c.1 < c'.1)) && Memory.wf m

/-! ### The one address space -/

/-- The byte at an address: a constants block, the scratch space, or operand memory (spec/10_state.md rules R32, R34
and R38). -/
def State.readByte (s : State) (x : Nat) : Byte :=
  match s.cfg.constByte? x with
  | some b => b
  | none =>
    if s.cfg.inScratch x then s.scratch[x - s.cfg.scratchBase]?.getD 0 else Memory.get s.mem x

/-- Writing one byte outside the constants blocks, which no rule writes (spec/10_state.md rule R32). -/
def State.writeByte (s : State) (x : Nat) (b : Byte) : State :=
  if s.cfg.inScratch x then { s with scratch := s.scratch.setIfInBounds (x - s.cfg.scratchBase) b }
  else { s with mem := Memory.set s.mem x b }

/-- The `n` bytes from `a`, lowest address first. -/
def State.readBytes (s : State) (a : Nat) : (n : Nat) → List Byte
  | 0 => []
  | n + 1 => s.readByte a :: State.readBytes s (a + 1) n

/-- Writing a string of bytes from `a` upwards. -/
def State.writeBytes (s : State) (a : Nat) : List Byte → State
  | [] => s
  | b :: bs => State.writeBytes (s.writeByte a b) (a + 1) bs

/-! ### Byte orders -/

/-- The value of a byte string, first byte least significant (spec/20_memory.md rule R52). -/
def leValue : List Byte → Nat
  | [] => 0
  | b :: bs => b.toNat + 256 * leValue bs

/-- The `n` low bytes of `v`, least significant first (spec/20_memory.md rule R52). -/
def leBytes : (n v : Nat) → List Byte
  | 0, _ => []
  | n + 1, v => BitVec.ofNat 8 v :: leBytes n (v / 256)

/-- The value of a byte string, first byte most significant (spec/41_wide_value_ops.md rule R125). -/
def beValue (bs : List Byte) : Nat := leValue bs.reverse

/-- The `n` low bytes of `v`, most significant first (spec/41_wide_value_ops.md rule R126). -/
def beBytes (n v : Nat) : List Byte := (leBytes n v).reverse

/-- `MemRead(a, n)` (spec/00_scope.md rule R8). -/
def State.memRead (s : State) (a n : Nat) : Nat := leValue (s.readBytes a n)

/-- `MemWrite(a, n, v)` (spec/00_scope.md rule R8). -/
def State.memWrite (s : State) (a n v : Nat) : State := s.writeBytes a (leBytes n v)

/-- `M256[a]` (spec/00_scope.md rule R8). -/
def State.readWord (s : State) (a : Nat) : Word := BitVec.ofNat 256 (s.memRead a 32)

/-- `M256[a] <- w` (spec/00_scope.md rule R8). -/
def State.writeWord (s : State) (a : Nat) (w : Word) : State := s.memWrite a 32 w.toNat

/-- The value of the `Wide<N>` at `a`; at 512 bits it is `M256[a] + W * M256[a + 32]` (spec/46_modular_512.md rule
R200). -/
def State.readWide (s : State) (n : Width) (a : Nat) : Nat :=
  match n with
  | .w256 => (s.readWord a).toNat
  | .w512 => (s.readWord a).toNat + W * (s.readWord (a + 32)).toNat

/-- Storing a `Wide<N>` at `a`, low word first (spec/46_modular_512.md rule R200). -/
def State.writeWide (s : State) (n : Width) (a v : Nat) : State :=
  match n with
  | .w256 => s.writeWord a (BitVec.ofNat 256 v)
  | .w512 => (s.writeWord a (BitVec.ofNat 256 v)).writeWord (a + 32) (BitVec.ofNat 256 (v / W))

/-! ### Registers -/

/-- `x[REG_A] <- a`, `x[REG_B] <- b`, `x[REG_CTL] <- ctl`: the three registers the caller writes before a call
(spec/30_encoding.md rules R71 and R79). -/
def State.setRegs (s : State) (a b : Nat) (ctl : Ctl) : State :=
  { s with regA := s.cfg.truncAddr a, regB := s.cfg.truncAddr b, regCtl := ctl }

/-- `pc + ILEN` (spec/40_walu_primitives.md rule R100), a free value where that leaves the address space
(spec/10_state.md rule R22; log entry 4). -/
def State.nextPc (s : State) : Nat :=
  if s.pc + s.cfg.ilen < s.cfg.addrLimit then s.pc + s.cfg.ilen
  else s.cfg.truncAddr (Config.freePcWrap s.tick)

/-! ### The two ends of an operation -/

/-- A violation (spec/60_exceptions.md rule R240): with `CHECK_POLICY = fault` the machine stops, with `trust` the
model refuses the step; nothing of the step has happened. -/
def State.violate (s : State) (v : Fault) : Out :=
  match s.cfg.checkPolicy with
  | .fault => .fault v
  | .trust => .refused (.violated v)

/-- The completion of a delegation call: `x[REG_CTL] <- zext_32(flag)` and `pc <- pc + ILEN`
(spec/40_walu_primitives.md rule R100, spec/30_encoding.md rule R73). -/
def State.completeCall (s : State) (flag : Bool) : State :=
  { s with regCtl := (BitVec.ofBool flag).setWidth 32, pc := s.nextPc, ret := .none, tick := s.tick + 1 }

/-- The contents of the scratch space where it is unspecified: a free byte at every offset. -/
@[irreducible] def unspecifiedScratch (tick : Nat) : Vector Byte 384 :=
  Vector.ofFn (fun i : Fin 384 => Config.freeScratchByte tick i.val)

/-- Every scratch word holds an unspecified value (spec/10_state.md rule R35). -/
def State.freeScratch (s : State) : State := { s with scratch := unspecifiedScratch s.tick }

/-- The start of a macro-operation that uses the scratch space (spec/10_state.md rule R36). -/
def State.beginOp (s : State) : State := { s with scratchBusy := true }

/-- The completion of a macro-operation that issued delegation calls: the scratch words, `REG_A`, `REG_B` and
`REG_CTL` hold unspecified values (spec/42_modular_256.md rule R140), `pc` has moved past a number of calls that no
rule fixes, and `scratch_busy` is 0 again (spec/10_state.md rule R36). -/
def State.completeOp (s : State) (r : Ret) : State :=
  { s.freeScratch with
    regA := s.cfg.truncAddr (Config.freeRegA s.tick)
    regB := s.cfg.truncAddr (Config.freeRegB s.tick)
    regCtl := Config.freeRegCtl s.tick
    pc := s.cfg.truncAddr (Config.freePc s.tick)
    scratchBusy := false
    ret := r
    tick := s.tick + 1 }

/-- The completion of a value operation that writes (spec/41_wide_value_ops.md): the limb datapath issues no delegation call,
so the registers and `pc` stay; it is a macro-operation (spec/00_scope.md rule R12), so the scratch words hold unspecified
values (spec/10_state.md rule R35; log entry 10). -/
def State.completeLimbOp (s : State) (r : Ret) : State := { s.freeScratch with ret := r, tick := s.tick + 1 }

/-- The completion of an operation that writes no memory and issues no delegation call: `parity`
(spec/41_wide_value_ops.md rule R122), and a conversion that is the identity (spec/44_barrett_256.md rule R179). -/
def State.completeReadOnly (s : State) (r : Ret) : State := { s with ret := r, tick := s.tick + 1 }

/-- A value found while the configuration is built is returned; the engine takes no step (spec/41_wide_value_ops.md rule R130;
log entry 11). -/
def State.returnValue (s : State) (v : Nat) : State := { s with ret := .value v }

end Sys2Proof.Machine
end

