-- ==== Sys2Proof/Machine/Flags.lean ====
section
/-! DEFINITION. The one flag of the engine (spec/10_state.md rule R23): every computation of it the spec gives, and how
it travels in the control word and the result word (spec/30_encoding.md rules R72 and R73). -/

namespace Sys2Proof.Machine

/-- The carry out of bit 255 of an exact sum (spec/40_walu_primitives.md rules R101 and R107). -/
def carryOut (sum : Nat) : Bool := decide (W ≤ sum)

/-- The borrow of an exact difference: the subtract underflowed below zero (rules R102 and R103). -/
def borrowOut (diff : Int) : Bool := decide (diff < 0)

/-- The equality result of `Eq` (rule R106). -/
def equalFlag (A B : Word) : Bool := decide (A = B)

/-- The flag of `MulLow` and `MulHigh`: an unspecified bit (rules R104 and R105). -/
def mulFlag (s : State) : Bool := Config.freeFlag s.tick

/-- The flag software reads after a call: bit 0 of `REG_CTL` (rule R110). -/
def State.flag (s : State) : Bool := s.regCtl.getLsbD 0

/-- The next control word of a carry chain: `op_next | (flag << 6)` (spec/70_reset_and_hazards.md rule R267). -/
def chainCtl (t : CtlTable) (o : Opcode) (flag : Bool) : Ctl := (t.word o flag).getD 0

end Sys2Proof.Machine
end

