-- ==== Sys2Proof/Machine/Operands.lean ====
section
/-! DEFINITION. The operand forms of the three kinds of operation and the checks each makes before it reads anything:
the two words of a delegation call (spec/40_walu_primitives.md rule R100), the blocks of a macro-operation
(spec/42_modular_256.md rule R140, spec/46_modular_512.md rule R201), and the value and the byte string of a value
operation (spec/41_wide_value_ops.md rule R131); and the binding of a descriptor (spec/10_state.md rule R30). -/

namespace Sys2Proof.Machine

/-! ### The delegation call -/

/-- `[a]` readable and writable plain memory, `[b]` readable plain memory (spec/20_memory.md rule R59). -/
def callAccessible (c : Config) (a b : Nat) : Bool := c.writableBlock a 32 && c.readableBlock b 32

/-- The first violation of a delegation call after its control word, in the order of spec/60_exceptions.md rule
R249. -/
def callViolation (s : State) : Option Fault :=
  if s.regA % 32 ≠ 0 ∨ s.regB % 32 ≠ 0 then some (.vAlign s.regA s.regB)
  else if s.regA = s.regB then some (.vAlias s.regA)
  else if callAccessible s.cfg s.regA s.regB then none
  else some (.vAccess s.regA s.regB)

/-- The outcome of a primitive: the word to write at the first address, if it writes one, and the flag. -/
structure PrimResult where
  result : Option Word
  flag : Bool
deriving DecidableEq, Repr

/-- `if the primitive writes then M256[a] <- result` (spec/40_walu_primitives.md rule R100). -/
def State.writeResult (s : State) (r : PrimResult) : State :=
  match r.result with
  | some w => s.writeWord s.regA w
  | none => s

/-- The state a completed call leaves: the two reads, the primitive, the write at the first address, the result word
and the advance of `pc` (spec/40_walu_primitives.md rule R100). -/
def callResult (prim : Word → Word → PrimResult) (s : State) : State :=
  (s.writeResult (prim (s.readWord s.regA) (s.readWord s.regB))).completeCall
    (prim (s.readWord s.regA) (s.readWord s.regB)).flag

/-- The delegation call with the primitive `prim` selected (spec/40_walu_primitives.md rule R100). -/
def delegationCall (prim : Word → Word → PrimResult) (s : State) : Out :=
  match callViolation s with
  | some v => s.violate v
  | none => .next (callResult prim s)

/-! ### Macro-operations and value operations -/

/-- An operand block: its address, its size in bytes, and whether the operation writes it. -/
structure Operand where
  addr : Nat
  bytes : Nat
  written : Bool
deriving DecidableEq, Repr

/-- A `Wide<N>` operand that is read and overwritten: `dst`, "mutable self" (spec/42_modular_256.md rule R140). -/
def mutOperand (n : Width) (a : Nat) : Operand := ⟨a, n.bytes, true⟩

/-- A `Wide<N>` operand that is only read: `src`, "immutable operand" (spec/42_modular_256.md rule R140). -/
def readOperand (n : Width) (a : Nat) : Operand := ⟨a, n.bytes, false⟩

/-- An operand address is 32-byte aligned (spec/20_memory.md rule R55). -/
def Operand.aligned (o : Operand) : Bool := decide (o.addr % 32 = 0)

/-- The operand stays clear of the scratch space, and of every constants block if it is written
(spec/70_reset_and_hazards.md rule R266). -/
def Operand.clear (c : Config) (o : Operand) : Bool :=
  disjointBlocks o.addr o.bytes c.scratchBase scratchBytes &&
    (!o.written || c.constBlocks.all (fun b => disjointBlocks o.addr o.bytes b.1 b.2))

/-- The operand lies in plain memory with the permission it needs (spec/20_memory.md rule R59). -/
def Operand.accessible (c : Config) (o : Operand) : Bool :=
  if o.written then c.writableBlock o.addr o.bytes else c.readableBlock o.addr o.bytes

/-- No two of the operands meet (spec/60_exceptions.md rule R247). -/
def operandsDisjoint (ops : List Operand) : Bool := pairwiseDisjoint (ops.map (fun o => (o.addr, o.bytes)))

/-- The addresses a violation of a macro-operation reports: its first and its last operand. -/
def firstAddr : List Operand → Nat
  | [] => 0
  | o :: _ => o.addr

/-- The last operand's address. -/
def lastAddr : List Operand → Nat
  | [] => 0
  | [o] => o.addr
  | _ :: o :: os => lastAddr (o :: os)

/-- The first violation of the preconditions common to all operations (spec/42_modular_256.md rule R140), in the order of
spec/60_exceptions.md rule R249; `usesScratch` says whether the operation borrows the scratch space (rule R246). -/
def placeViolation (s : State) (usesScratch : Bool) (ops : List Operand) : Option Fault :=
  if usesScratch && s.scratchBusy then some .vReentry
  else if !ops.all Operand.aligned then some (.vAlign (firstAddr ops) (lastAddr ops))
  else if !(operandsDisjoint ops && ops.all (Operand.clear s.cfg)) then some (.vOverlap (firstAddr ops) (lastAddr ops))
  else none

/-- The first violation of an operation that accesses its operand blocks: those above, then `V_ACCESS` where a block is missing,
protected, device or code memory (spec/20_memory.md rules R59, R61 and R66, spec/93_implementation_defined.md U9; log
entry 14). -/
def opViolation (s : State) (usesScratch : Bool) (ops : List Operand) : Option Fault :=
  match placeViolation s usesScratch ops with
  | some v => some v
  | none => if ops.all (Operand.accessible s.cfg) then none else some (.vAccess (firstAddr ops) (lastAddr ops))

/-- A byte string of host data: any address, any alignment (spec/41_wide_value_ops.md rule R131); it must be plain memory with
the permission it needs (spec/20_memory.md rule R61, spec/93_implementation_defined.md U9). -/
def bytesAccessible (c : Config) (written : Bool) (a n : Nat) : Bool :=
  if written then c.writableBlock a n else c.readableBlock a n

/-- The descriptor a macro-operation is bound to, of the width and, where the operation asks for one, the kind it needs
(spec/10_state.md rules R30 and R31, spec/46_modular_512.md rule R214). -/
def bindField (c : Config) (f : Nat) (w : Option Width) (k : Option RedKind) : Except Refusal Descriptor :=
  match c.fields[f]? with
  | none => .error .noSuchField
  | some d =>
    if !d.ok then .error .badDescriptor
    else if !(w == none || w == some d.width) then .error .wrongWidth
    else if !(k == none || k == some d.kind) then .error .wrongKind
    else .ok d

/-- The start of a macro-operation of a module: bind the descriptor, make the checks of rule R140 or R201, borrow the
scratch space, and go on. -/
def moduleOp (w : Width) (k : Option RedKind) (f : Nat) (ops : List Operand) (s : State)
    (body : Descriptor → State → Out) : Out :=
  match bindField s.cfg f (some w) k with
  | .error r => .refused r
  | .ok d =>
    match opViolation s true ops with
    | some v => s.violate v
    | none => body d s.beginOp

/-- A macro-operation `dst <- result(dst, src)` with a range condition on its values (spec/60_exceptions.md rule R244:
a model refuses outside it). -/
def modBinary (w : Width) (k : Option RedKind) (inRange : Descriptor → Nat → Nat → Bool)
    (result : Descriptor → Nat → Nat → Nat) (f dst src : Nat) (s : State) : Out :=
  moduleOp w k f [mutOperand w dst, readOperand w src] s fun d s =>
    let a := s.readWide w dst
    let b := s.readWide w src
    if inRange d a b then .next ((s.writeWide w dst (result d a b)).completeOp .none) else .refused .vRange

/-- A macro-operation `dst <- result(dst)` with a range condition on its value. -/
def modUnary (w : Width) (k : Option RedKind) (inRange : Descriptor → Nat → Bool)
    (result : Descriptor → Nat → Nat) (f dst : Nat) (s : State) : Out :=
  moduleOp w k f [mutOperand w dst] s fun d s =>
    let a := s.readWide w dst
    if inRange d a then .next ((s.writeWide w dst (result d a)).completeOp .none) else .refused .vRange

/-- A comparison of two values, both only read (spec/42_modular_256.md rule R146). -/
def modCompare (w : Width) (test : Nat → Nat → Bool) (f a b : Nat) (s : State) : Out :=
  moduleOp w none f [readOperand w a, readOperand w b] s fun _ s =>
    .next (s.completeOp (.bit (test (s.readWide w a) (s.readWide w b))))

/-- A test of one value, only read (spec/42_modular_256.md rules R149 to R151). -/
def modTest (w : Width) (test : Descriptor → Nat → Bool) (f a : Nat) (s : State) : Out :=
  moduleOp w none f [readOperand w a] s fun d s =>
    .next (s.completeOp (.bit (test d (s.readWide w a))))

/-- A conversion that is the identity: it reads nothing, writes nothing and uses no scratch (spec/44_barrett_256.md
rule R179), so it asks nothing of the memory at `dst`. What is left of `V_ACCESS` is a number that is no address of the
address space (spec/20_memory.md rule R50). -/
def modIdentity (f dst : Nat) (s : State) : Out :=
  match bindField s.cfg f (some .w256) (some .barrett) with
  | .error r => .refused r
  | .ok _ =>
    match placeViolation s true [mutOperand .w256 dst] with
    | some v => s.violate v
    | none => if dst < s.cfg.addrLimit then .next (s.completeReadOnly .none) else s.violate (.vAccess dst dst)

/-- A value operation of the limb datapath on the `Wide<N>` `o` (spec/41_wide_value_ops.md): the checks of its operand,
the access to its byte string if it has one, and its effect. -/
def limbOp (o : Operand) (bytesOk : Bool) (bytesAddr : Nat) (s : State) (body : State → Out) : Out :=
  match opViolation s false [o] with
  | some v => s.violate v
  | none => if bytesOk then body s else s.violate (.vAccess o.addr bytesAddr)

end Sys2Proof.Machine
end

