-- ==== Sys2Proof/Machine/Mod256.lean ====
section
/-! DEFINITION. 256-bit modular add, subtract, double, negate and comparisons (spec/42_modular_256.md). The arithmetic
of the results is shared with the 512-bit module (spec/46_modular_512.md). -/

namespace Sys2Proof.Machine

/-! ### Results and ranges, for either width -/

/-- `add_mod` accepts `a + b < 2p` (rule R142; decision D37). -/
def addRange (d : Descriptor) (a b : Nat) : Bool := decide (a + b < 2 * d.modulus)

/-- `(a + b) mod p` (rule R142). -/
def addResult (d : Descriptor) (a b : Nat) : Nat := (a + b) % d.modulus

/-- `sub_mod` accepts `a < p` and `b < p` (rule R143). -/
def subRange (d : Descriptor) (a b : Nat) : Bool := decide (a < d.modulus ∧ b < d.modulus)

/-- `a - b` when `a >= b`, `a - b + p` otherwise (rule R143). -/
def subResult (d : Descriptor) (a b : Nat) : Nat := if b ≤ a then a - b else a + d.modulus - b

/-- `double_mod` accepts `a < p` (rule R144). -/
def canonical (d : Descriptor) (a : Nat) : Bool := decide (a < d.modulus)

/-- `(2 * a) mod p` (rule R144). -/
def doubleResult (d : Descriptor) (a : Nat) : Nat := 2 * a % d.modulus

/-- `negate_mod` accepts `x <= p` (rule R145; decision D34). -/
def negateRange (d : Descriptor) (x : Nat) : Bool := decide (x ≤ d.modulus)

/-- 0 when `x = 0` or `x = p`, else `p - x` (rule R145). -/
def negateResult (d : Descriptor) (x : Nat) : Nat := if x = 0 ∨ x = d.modulus then 0 else d.modulus - x

/-- `A < B` as unsigned integers (rule R146). -/
def ltTest (A B : Nat) : Bool := decide (A < B)

/-- `A <= B` (rule R147). -/
def leqTest (A B : Nat) : Bool := decide (A ≤ B)

/-- `A = B` as stored integers (rule R148). -/
def eqTest (A B : Nat) : Bool := decide (A = B)

/-- `A = 0` (rule R149). -/
def zeroTest (_d : Descriptor) (A : Nat) : Bool := decide (A = 0)

/-- `A = 1`, the stored integer (rule R150). -/
def oneTest (_d : Descriptor) (A : Nat) : Bool := decide (A = 1)

/-- `A = 0` or `A = p`: zero or exactly the modulus (rule R151). -/
def zeroModTest (d : Descriptor) (A : Nat) : Bool := decide (A = 0 ∨ A = d.modulus)

/-! ### The operations -/

/-- `add_mod(dst, src)` (rule R142). -/
def execAddMod (f dst src : Nat) (s : State) : Out := modBinary .w256 none addRange addResult f dst src s

/-- `sub_mod(dst, src)` (rule R143). -/
def execSubMod (f dst src : Nat) (s : State) : Out := modBinary .w256 none subRange subResult f dst src s

/-- `double_mod(dst)` (rule R144). -/
def execDoubleMod (f dst : Nat) (s : State) : Out := modUnary .w256 none canonical doubleResult f dst s

/-- `negate_mod(dst)` (rule R145). -/
def execNegateMod (f dst : Nat) (s : State) : Out := modUnary .w256 none negateRange negateResult f dst s

/-- `lt(a, b)` (rule R146). -/
def execLt (f a b : Nat) (s : State) : Out := modCompare .w256 ltTest f a b s

/-- `leq(a, b)` (rule R147). -/
def execLeq (f a b : Nat) (s : State) : Out := modCompare .w256 leqTest f a b s

/-- `eq(a, b)` (rule R148). -/
def execEq (f a b : Nat) (s : State) : Out := modCompare .w256 eqTest f a b s

/-- `is_zero(a)` (rule R149). -/
def execIsZero (f a : Nat) (s : State) : Out := modTest .w256 zeroTest f a s

/-- `is_one(a)` (rule R150). -/
def execIsOne (f a : Nat) (s : State) : Out := modTest .w256 oneTest f a s

/-- `is_zero_mod(a)` (rule R151). -/
def execIsZeroMod (f a : Nat) (s : State) : Out := modTest .w256 zeroModTest f a s

end Sys2Proof.Machine
end

