-- ==== Sys2Proof/Machine/Mont256.lean ====
section
/-! DEFINITION. 256-bit Montgomery multiplication and form conversion (spec/43_montgomery_256.md). -/

namespace Sys2Proof.Machine

/-- `m = ((T mod W) * N') mod W`, the reduction multiplier of `REDC` (rule R160). -/
def redcMultiplier (d : Descriptor) (T : Nat) : Nat := T % W * d.nprime % W

/-- `REDC(T) = (T + m * p) div W` (rule R160). -/
def redc (d : Descriptor) (T : Nat) : Nat := (T + redcMultiplier d T * d.modulus) / W

/-- The final conditional subtraction of the modulus (rules R141 and R161). -/
def correctOnce (d : Descriptor) (t : Nat) : Nat := if d.modulus ≤ t then t - d.modulus else t

/-- `mul_mont` and `square_mont` accept `a * b < p * R` (rules R161 and R162; conflict C2). -/
def montRange (d : Descriptor) (a b : Nat) : Bool := decide (a * b < d.modulus * d.radix)

/-- `a * b * W^-1 mod p`, as `REDC` and one correction (rule R161). -/
def montResult (d : Descriptor) (a b : Nat) : Nat := correctOnce d (redc d (a * b))

/-- `square_mont` accepts `a * a < p * R` (rule R162). -/
def montSquareRange (d : Descriptor) (a : Nat) : Bool := montRange d a a

/-- `a * a * W^-1 mod p` (rule R162). -/
def montSquareResult (d : Descriptor) (a : Nat) : Nat := montResult d a a

/-- `x * R mod p`, the Montgomery form (rule R165; only the result is normative, decision D16). -/
def toRepresentationResult (d : Descriptor) (x : Nat) : Nat := x * d.radix % d.modulus

/-- `to_integer` accepts every word (rule R166). -/
def anyValue (_d : Descriptor) (_a : Nat) : Bool := true

/-- `a * R^-1 mod p`: the Montgomery product with 1 (rule R166). -/
def toIntegerResult (d : Descriptor) (a : Nat) : Nat := montResult d a 1

/-- `mul_mont(dst, src)` (rule R161). -/
def execMulMont (f dst src : Nat) (s : State) : Out :=
  modBinary .w256 (some .montgomery) montRange montResult f dst src s

/-- `square_mont(dst)` (rule R162). -/
def execSquareMont (f dst : Nat) (s : State) : Out :=
  modUnary .w256 (some .montgomery) montSquareRange montSquareResult f dst s

/-- `to_representation(dst)` of a Montgomery field (rule R165). -/
def execToRepresentation (f dst : Nat) (s : State) : Out :=
  modUnary .w256 (some .montgomery) canonical toRepresentationResult f dst s

/-- `to_integer(dst)` of a Montgomery field (rule R166). -/
def execToInteger (f dst : Nat) (s : State) : Out :=
  modUnary .w256 (some .montgomery) anyValue toIntegerResult f dst s

end Sys2Proof.Machine
end

