-- ==== Sys2Proof/Machine/Barrett256.lean ====
section
/-! DEFINITION. 256-bit Barrett multiplication, and the conversions of a Barrett field (spec/44_barrett_256.md). -/

namespace Sys2Proof.Machine

/-- One fold by `c = W - p`: `H * c + L` for `V = H * W + L` (rule R175). -/
def foldOnce (d : Descriptor) (V : Nat) : Nat := V / W * d.negp + V % W

/-- `BRED(T)`: two folds and one conditional subtraction (rule R175). -/
def bred (d : Descriptor) (T : Nat) : Nat := correctOnce d (foldOnce d (foldOnce d T))

/-- `mul_barret` accepts every pair of words (rule R176). -/
def anyPair (_d : Descriptor) (_a _b : Nat) : Bool := true

/-- `BRED(a * b)` (rule R176). -/
def barretResult (d : Descriptor) (a b : Nat) : Nat := bred d (a * b)

/-- `BRED(a * a)` (rule R178). -/
def barretSquareResult (d : Descriptor) (a : Nat) : Nat := bred d (a * a)

/-- `mul_barret(dst, src)` (rule R176). -/
def execMulBarret (f dst src : Nat) (s : State) : Out :=
  modBinary .w256 (some .barrett) anyPair barretResult f dst src s

/-- `square_barret(dst)` (rule R178). -/
def execSquareBarret (f dst : Nat) (s : State) : Out :=
  modUnary .w256 (some .barrett) anyValue barretSquareResult f dst s

/-- `to_representation(dst)` of a Barrett field: the identity (rule R179). -/
def execToRepresentationBarrett (f dst : Nat) (s : State) : Out := modIdentity f dst s

/-- `to_integer(dst)` of a Barrett field: the identity (rule R179). -/
def execToIntegerBarrett (f dst : Nat) (s : State) : Out := modIdentity f dst s

end Sys2Proof.Machine
end

