-- ==== Sys2Proof/Machine/Inv256.lean ====
section
/-! DEFINITION. 256-bit modular inversion (spec/45_inversion_256.md). The result is what is normative (rule R185); it is
computed here by the extended Euclidean algorithm on natural numbers. The binary algorithm of rule R186 is in
Machine/RefSeq256.lean. -/

namespace Sys2Proof.Machine

/-- The extended Euclidean algorithm modulo `p`: from `r0 = x * t0` and `r1 = x * t1 (mod p)` to the cofactor of
`gcd(r0, r1)`. `fuel` bounds the divisions. -/
def euclidCofactor (p : Nat) : (fuel r0 r1 t0 t1 : Nat) → Nat
  | 0, _, _, t0, _ => t0
  | fuel + 1, r0, r1, t0, t1 =>
    if r1 = 0 then t0
    else euclidCofactor p fuel r1 (r0 % r1) t1 ((t0 + (p - r0 / r1 * t1 % p)) % p)

/-- Enough divisions for 256-bit operands: each two divisions halve the remainder. -/
def euclidFuel : Nat := 600

/-- The unique `y` in `[1, p)` with `(x * y) mod p = 1`, where there is one (rule R185). -/
def inverseMod (p x : Nat) : Nat := euclidCofactor p euclidFuel p x 0 1

/-- `inv_mod` accepts `x < p` with `x = 0` or `gcd(x, p) = 1` (rule R185). -/
def invRange (d : Descriptor) (x : Nat) : Bool :=
  decide (x < d.modulus ∧ (x = 0 ∨ Nat.gcd x d.modulus = 1))

/-- `inv_mod(dst)` (rule R185): `ok = 0` and `dst` unchanged for zero, else `ok = 1` and the inverse. -/
def execInvMod (f dst : Nat) (s : State) : Out :=
  moduleOp .w256 none f [mutOperand .w256 dst] s fun d s =>
    let x := s.readWide .w256 dst
    if invRange d x then
      if x = 0 then .next (s.completeOp (.bit false))
      else .next ((s.writeWide .w256 dst (inverseMod d.modulus x)).completeOp (.bit true))
    else .refused .vRange

end Sys2Proof.Machine
end

