-- ==== Sys2Proof/Machine/Mod512.lean ====
section
/-! DEFINITION. 512-bit modular add, subtract, double, negate and comparisons (spec/46_modular_512.md): the results of
spec/42_modular_256.md on two-word values and a two-word descriptor. -/

namespace Sys2Proof.Machine

/-- `add_mod512(dst, src)` (rule R203). -/
def execAddMod512 (f dst src : Nat) (s : State) : Out := modBinary .w512 none addRange addResult f dst src s

/-- `sub_mod512(dst, src)` (rule R204). -/
def execSubMod512 (f dst src : Nat) (s : State) : Out := modBinary .w512 none subRange subResult f dst src s

/-- `double_mod512(dst)` (rule R205). -/
def execDoubleMod512 (f dst : Nat) (s : State) : Out := modUnary .w512 none canonical doubleResult f dst s

/-- `negate_mod512(dst)` (rule R206). -/
def execNegateMod512 (f dst : Nat) (s : State) : Out := modUnary .w512 none negateRange negateResult f dst s

/-- `lt512(a, b)` (rule R207). -/
def execLt512 (f a b : Nat) (s : State) : Out := modCompare .w512 ltTest f a b s

/-- `leq512(a, b)` (rule R208). -/
def execLeq512 (f a b : Nat) (s : State) : Out := modCompare .w512 leqTest f a b s

/-- `eq512(a, b)` (rule R209). -/
def execEq512 (f a b : Nat) (s : State) : Out := modCompare .w512 eqTest f a b s

/-- `is_zero512(a)` (rule R210). -/
def execIsZero512 (f a : Nat) (s : State) : Out := modTest .w512 zeroTest f a s

/-- `is_one512(a)` (rule R211). -/
def execIsOne512 (f a : Nat) (s : State) : Out := modTest .w512 oneTest f a s

/-- `is_zero_mod512(a)` (rule R212). -/
def execIsZeroMod512 (f a : Nat) (s : State) : Out := modTest .w512 zeroModTest f a s

end Sys2Proof.Machine
end

