-- ==== Sys2Proof/Machine/Mont512.lean ====
section
/-! DEFINITION. 512-bit Montgomery multiplication and form conversion (spec/47_montgomery_512.md): word-serial, with the
one 256-bit reduction constant. -/

namespace Sys2Proof.Machine

/-- One iteration of `REDC512` with the word `bi` of `b`: `T <- (T + a * b_i + m * p) div W`, `m` taken from the low
word of `T + a * b_i` (rule R220). -/
def redc512Pass (d : Descriptor) (a bi T : Nat) : Nat := redc d (T + a * bi)

/-- `MM512(a, b)` (rule R220): the low word of `b`, then the high word. -/
def mm512 (d : Descriptor) (a b : Nat) : Nat := redc512Pass d a (b / W) (redc512Pass d a (b % W) 0)

/-- `a * b * R^-1 mod p`: `MM512` and one correction (rule R222). -/
def mont512Result (d : Descriptor) (a b : Nat) : Nat := correctOnce d (mm512 d a b)

/-- `a * a * R^-1 mod p` (rule R223). -/
def mont512SquareResult (d : Descriptor) (a : Nat) : Nat := mont512Result d a a

/-- `a * R^-1 mod p`: the Montgomery product with 1 (rule R226). -/
def toInteger512Result (d : Descriptor) (a : Nat) : Nat := mont512Result d a 1

/-- `mul_mont512(dst, src)` (rule R222). -/
def execMulMont512 (f dst src : Nat) (s : State) : Out :=
  modBinary .w512 (some .montgomery) montRange mont512Result f dst src s

/-- `square_mont512(dst)` (rule R223). -/
def execSquareMont512 (f dst : Nat) (s : State) : Out :=
  modUnary .w512 (some .montgomery) montSquareRange mont512SquareResult f dst s

/-- `to_representation512(dst)` (rule R225). -/
def execToRepresentation512 (f dst : Nat) (s : State) : Out :=
  modUnary .w512 (some .montgomery) canonical toRepresentationResult f dst s

/-- `to_integer512(dst)` (rule R226). -/
def execToInteger512 (f dst : Nat) (s : State) : Out :=
  modUnary .w512 (some .montgomery) anyValue toInteger512Result f dst s

end Sys2Proof.Machine
end

