-- ==== Sys2Proof/Machine/Walu.lean ====
section
/-! DEFINITION. The seven primitives and the reserved opcode (spec/40_walu_primitives.md rules R101 to R107,
spec/30_encoding.md rule R76). Arithmetic is exact, on natural numbers or integers, and narrowed at the end. -/

namespace Sys2Proof.Machine

/-- `Add`: `s = A + B + cin`, result `s mod W`, flag `s div W` (rule R101). -/
def primAdd (cin : Bool) (A B : Word) : PrimResult :=
  let s := A.toNat + B.toNat + cin.toNat
  ⟨some (BitVec.ofNat 256 s), carryOut s⟩

/-- `Sub`: `d = A - B - cin`, result `d mod W`, flag 1 if `d < 0` (rule R102). -/
def primSub (cin : Bool) (A B : Word) : PrimResult :=
  let d : Int := (A.toNat : Int) - B.toNat - cin.toNat
  ⟨some (BitVec.ofInt 256 d), borrowOut d⟩

/-- `SubAndNegate`: `d = B - A - cin`, result `d mod W`, flag 1 if `d < 0` (rule R103; conflict C1). -/
def primSubNeg (cin : Bool) (A B : Word) : PrimResult :=
  let d : Int := (B.toNat : Int) - A.toNat - cin.toNat
  ⟨some (BitVec.ofInt 256 d), borrowOut d⟩

/-- `MulLow`: the low half of the product; `flag` is the unspecified bit (rule R104). -/
def primMulLo (flag : Bool) (A B : Word) : PrimResult := ⟨some (BitVec.ofNat 256 (A.toNat * B.toNat)), flag⟩

/-- `MulHigh`: the high half of the product; `flag` is the unspecified bit (rule R105). -/
def primMulHi (flag : Bool) (A B : Word) : PrimResult := ⟨some (BitVec.ofNat 256 (A.toNat * B.toNat / W)), flag⟩

/-- `Eq`: the equality flag; with `EQ_PRESERVES_A` no write, otherwise an unspecified word at the first address (rule
R106). -/
def primEq (preserves : Bool) (unspecified : Word) (A B : Word) : PrimResult :=
  ⟨if preserves then none else some unspecified, equalFlag A B⟩

/-- `MemCpy`: `s = B + cin`, result `s mod W`, flag `s div W`; the old value of the first operand is not used (rule
R107). -/
def primMemCpy (cin : Bool) (_A B : Word) : PrimResult :=
  let s := B.toNat + cin.toNat
  ⟨some (BitVec.ofNat 256 s), carryOut s⟩

/-- `WALU.ADD` (rules R100 and R101). -/
def execWaluAdd (cin : Bool) (s : State) : Out := delegationCall (primAdd cin) s

/-- `WALU.SUB` (rules R100 and R102). -/
def execWaluSub (cin : Bool) (s : State) : Out := delegationCall (primSub cin) s

/-- `WALU.SUBNEG` (rules R100 and R103). -/
def execWaluSubNeg (cin : Bool) (s : State) : Out := delegationCall (primSubNeg cin) s

/-- `WALU.MULLO` (rules R100 and R104); `cin` has no effect (spec/30_encoding.md rule R77). -/
def execWaluMulLo (_cin : Bool) (s : State) : Out := delegationCall (primMulLo (mulFlag s)) s

/-- `WALU.MULHI` (rules R100 and R105); `cin` has no effect (spec/30_encoding.md rule R77). -/
def execWaluMulHi (_cin : Bool) (s : State) : Out := delegationCall (primMulHi (mulFlag s)) s

/-- `WALU.EQ` (rules R100 and R106); `cin` has no effect (spec/30_encoding.md rule R77). -/
def execWaluEq (_cin : Bool) (s : State) : Out :=
  delegationCall (primEq s.cfg.eqPreservesA (Config.freeEqWord s.tick)) s

/-- `WALU.MEMCPY` (rules R100 and R107). -/
def execWaluMemCpy (cin : Bool) (s : State) : Out := delegationCall (primMemCpy cin) s

/-- The reserved opcode: a delegation call with it is the violation `V_RESERVED` (spec/30_encoding.md rule R76,
spec/60_exceptions.md rule R241), reported before any other (rule R249). -/
def execReserved (cin : Bool) (s : State) : Out := s.violate (.vReserved ((encode s.cfg.ctl (.reserved cin)).getD 0))

end Sys2Proof.Machine
end

