-- ==== Sys2Proof/Machine/Wval.lean ====
section
/-! DEFINITION. The value operations of the limb datapath (spec/41_wide_value_ops.md). -/

namespace Sys2Proof.Machine

/-- `(cin * 2^K + v) div 2` (spec/41_wide_value_ops.md rule R123). -/
def halveValue (n : Width) (v : Nat) (cin : Bool) : Nat := (cin.toNat * 2 ^ n.bits + v) / 2

/-- `parity(a)`: bit 0 of the value; no memory is written (rule R122). -/
def execParity (n : Width) (a : Nat) (s : State) : Out :=
  limbOp (readOperand n a) true a s fun s => .next (s.completeReadOnly (.bit ((s.readByte a).getLsbD 0)))

/-- `halve(a, cin)` (rule R123). -/
def execHalve (n : Width) (a : Nat) (cin : Bool) (s : State) : Out :=
  limbOp (mutOperand n a) true a s fun s =>
    .next ((s.writeWide n a (halveValue n (s.readWide n a) cin)).completeLimbOp .none)

/-- `be_decode(bytes)`, the value stored at `dst` (rules R125 and R131). -/
def execBeDecode (n : Width) (dst bytes : Nat) (s : State) : Out :=
  limbOp (mutOperand n dst) (bytesAccessible s.cfg false bytes n.bytes) bytes s fun s =>
    .next ((s.writeWide n dst (beValue (s.readBytes bytes n.bytes))).completeLimbOp .none)

/-- `be_encode(v)` of the value at `src`, the bytes stored from `bytes` upwards (rules R126 and R131). -/
def execBeEncode (n : Width) (bytes src : Nat) (s : State) : Out :=
  limbOp (readOperand n src) (bytesAccessible s.cfg true bytes n.bytes) bytes s fun s =>
    .next ((s.writeBytes bytes (beBytes n.bytes (s.readWide n src))).completeLimbOp .none)

/-- `from_bytes(bytes)` for a field (rule R128): the value, stored at `dst`, with presence bit 1; or absent, presence
bit 0 and `dst` unchanged (spec/60_exceptions.md rule R248; log entry 12), when the integer is `>= p`. Its comparison is
the `lt` of the module, which borrows the scratch space. -/
def execFromBytes (f dst bytes : Nat) (s : State) : Out :=
  match bindField s.cfg f none none with
  | .error r => .refused r
  | .ok d =>
    match opViolation s true [mutOperand d.width dst] with
    | some v => s.violate v
    | none =>
      if bytesAccessible s.cfg false bytes d.width.bytes then
        let v := beValue (s.readBytes bytes d.width.bytes)
        if d.modulus ≤ v then .next (s.beginOp.completeOp (.bit false))
        else .next ((s.beginOp.writeWide d.width dst v).completeOp (.bit true))
      else s.violate (.vAccess dst bytes)

/-- `to_bytes(v)` for a field: `be_encode` of the stored integer, with no check of its range (rule R129). -/
def execToBytes (f bytes src : Nat) (s : State) : Out :=
  match bindField s.cfg f none none with
  | .error r => .refused r
  | .ok d => execBeEncode d.width bytes src s

/-- `parse_decimal(s)` (rule R130) has no run-time step: `Config.build` evaluates it. A request for it is the model's (log entry
11): it answers what the build would get, the state of the engine as it was, or that the build would be refused. -/
def execParseDecimal (n : Width) (lit : List Char) (s : State) : Out :=
  match decimalValue n lit with
  | some v => .next (s.returnValue v)
  | none => .refused .badLiteral

end Sys2Proof.Machine
end

