-- ==== Sys2Proof/Machine/Dispatch.lean ====
section
/-! DEFINITION. The dispatch: one arm per operation, each one call of its meaning. -/

namespace Sys2Proof.Machine

def exec (i : Instr) (s : State) : Host.Outcome State Fault Refusal :=
  match i with
  | .waluAdd cin => Sys2Proof.Machine.execWaluAdd cin s
  | .waluSub cin => Sys2Proof.Machine.execWaluSub cin s
  | .waluSubNeg cin => Sys2Proof.Machine.execWaluSubNeg cin s
  | .waluMulLo cin => Sys2Proof.Machine.execWaluMulLo cin s
  | .waluMulHi cin => Sys2Proof.Machine.execWaluMulHi cin s
  | .waluEq cin => Sys2Proof.Machine.execWaluEq cin s
  | .waluMemCpy cin => Sys2Proof.Machine.execWaluMemCpy cin s
  | .reserved cin => Sys2Proof.Machine.execReserved cin s
  | .parity n a => Sys2Proof.Machine.execParity n a s
  | .halve n a cin => Sys2Proof.Machine.execHalve n a cin s
  | .beDecode n dst bytes => Sys2Proof.Machine.execBeDecode n dst bytes s
  | .beEncode n bytes src => Sys2Proof.Machine.execBeEncode n bytes src s
  | .fromBytes f dst bytes => Sys2Proof.Machine.execFromBytes f dst bytes s
  | .toBytes f bytes src => Sys2Proof.Machine.execToBytes f bytes src s
  | .parseDecimal n lit => Sys2Proof.Machine.execParseDecimal n lit s
  | .addMod f dst src => Sys2Proof.Machine.execAddMod f dst src s
  | .subMod f dst src => Sys2Proof.Machine.execSubMod f dst src s
  | .doubleMod f dst => Sys2Proof.Machine.execDoubleMod f dst s
  | .negateMod f dst => Sys2Proof.Machine.execNegateMod f dst s
  | .lt f a b => Sys2Proof.Machine.execLt f a b s
  | .leq f a b => Sys2Proof.Machine.execLeq f a b s
  | .eq f a b => Sys2Proof.Machine.execEq f a b s
  | .isZero f a => Sys2Proof.Machine.execIsZero f a s
  | .isOne f a => Sys2Proof.Machine.execIsOne f a s
  | .isZeroMod f a => Sys2Proof.Machine.execIsZeroMod f a s
  | .mulMont f dst src => Sys2Proof.Machine.execMulMont f dst src s
  | .squareMont f dst => Sys2Proof.Machine.execSquareMont f dst s
  | .toRepresentation f dst => Sys2Proof.Machine.execToRepresentation f dst s
  | .toInteger f dst => Sys2Proof.Machine.execToInteger f dst s
  | .mulBarret f dst src => Sys2Proof.Machine.execMulBarret f dst src s
  | .squareBarret f dst => Sys2Proof.Machine.execSquareBarret f dst s
  | .toRepresentationBarrett f dst => Sys2Proof.Machine.execToRepresentationBarrett f dst s
  | .toIntegerBarrett f dst => Sys2Proof.Machine.execToIntegerBarrett f dst s
  | .invMod f dst => Sys2Proof.Machine.execInvMod f dst s
  | .addMod512 f dst src => Sys2Proof.Machine.execAddMod512 f dst src s
  | .subMod512 f dst src => Sys2Proof.Machine.execSubMod512 f dst src s
  | .doubleMod512 f dst => Sys2Proof.Machine.execDoubleMod512 f dst s
  | .negateMod512 f dst => Sys2Proof.Machine.execNegateMod512 f dst s
  | .lt512 f a b => Sys2Proof.Machine.execLt512 f a b s
  | .leq512 f a b => Sys2Proof.Machine.execLeq512 f a b s
  | .eq512 f a b => Sys2Proof.Machine.execEq512 f a b s
  | .isZero512 f a => Sys2Proof.Machine.execIsZero512 f a s
  | .isOne512 f a => Sys2Proof.Machine.execIsOne512 f a s
  | .isZeroMod512 f a => Sys2Proof.Machine.execIsZeroMod512 f a s
  | .mulMont512 f dst src => Sys2Proof.Machine.execMulMont512 f dst src s
  | .squareMont512 f dst => Sys2Proof.Machine.execSquareMont512 f dst s
  | .toRepresentation512 f dst => Sys2Proof.Machine.execToRepresentation512 f dst s
  | .toInteger512 f dst => Sys2Proof.Machine.execToInteger512 f dst s

end Sys2Proof.Machine
end

