-- ==== Sys2Proof/Machine/Step.lean ====
section
/-! DEFINITION. One step of the engine (spec/10_state.md rule R20): it takes the oldest request and runs it to
completion. The engine fetches no instructions (spec/20_memory.md rule R50); a request is the event that a delegation
call, or a macro-operation, happens now (spec/30_encoding.md rules R71 and R81; log entry 6). -/

namespace Sys2Proof.Machine

/-- A delegation call with the control word `ctl` (spec/40_walu_primitives.md rule R100): decode, then the primitive; a
word with no operation is the violation `V_RESERVED` (spec/30_encoding.md rule R76). -/
def delegate (ctl : Ctl) (s : State) : Host.Outcome State Fault Refusal :=
  match decode s.cfg.ctl ctl with
  | .ok i => exec i s
  | .error _ => s.violate (.vReserved ctl)

/-- The oldest request is taken from the list. -/
def State.popRequest (s : State) : State := { s with requests := s.requests.tail }

/-- One step. A requested operation that is a primitive runs with the addresses `REG_A` and `REG_B` hold (log entry 6). A
configuration that breaks spec/70_reset_and_hazards.md rule R261 is refused before any operation runs;
with no request nothing changes (spec/10_state.md rule R20). -/
def step (s : State) : Host.Outcome State Fault Refusal :=
  match s.requests with
  | [] => .next s
  | .call a b ctl :: _ =>
    if s.cfg.ok then delegate ctl (s.popRequest.setRegs a b ctl) else .refused .badConfig
  | .op i :: _ =>
    if s.cfg.ok then exec i s.popRequest else .refused .badConfig

/-- `s` with the instruction of the opcode table whose bits are `w` as the next one to run: a delegation call with that
control word, and with the two operand addresses that `REG_A` and `REG_B` hold, is the oldest request. -/
def State.withFetchWord (s : State) (nbits w : Nat) : State :=
  { s with requests := .call s.regA s.regB (BitVec.ofNat 32 (w % 2 ^ nbits)) :: s.requests }

end Sys2Proof.Machine
end

