-- ==== Sys2Proof/Machine/RefSeq256.lean ====
section
/-! DEFINITION. The reference sequences of the 256-bit module: how WALU calls and limb operations produce the result of
each macro-operation (spec/42_modular_256.md to spec/45_inversion_256.md). The results are what is normative (decision
D19) and are the meanings `exec` gives; these sequences are the spec's second description, written here so that the two
can be proved to agree. Each sequence runs inside `moduleOp` and `completeOp`, as the atomic operation does, so it
borrows the scratch space once (spec/10_state.md rule R36). -/

namespace Sys2Proof.Machine

/-- `f <- WALU.<OP>(a, b, cin)` (spec/30_encoding.md rule R79): write the three registers, make the call, read the flag
from bit 0 of `REG_CTL`, go on. -/
def issue (i : Instr) (a b : Nat) (s : State) (k : State → Bool → Out) : Out :=
  match exec i (s.setRegs a b ((encode s.cfg.ctl i).getD 0)) with
  | .next t => k t t.flag
  | .fault r => .fault r
  | .refused r => .refused r

/-- The address of the scratch word `S i` (spec/10_state.md rule R34). -/
def State.sw (s : State) (i : Nat) : Nat := s.cfg.scratchWord i

/-- `CSUBP(dst, force)` (spec/42_modular_256.md rule R141). -/
def csubp (d : Descriptor) (dst : Nat) (force : Bool) (s : State) (k : State → Out) : Out :=
  issue (.waluMemCpy false) (s.sw 0) dst s fun s _ =>
  issue (.waluSub false) (s.sw 0) d.pLoAddr s fun s bw =>
  if force || !bw then issue (.waluMemCpy false) dst (s.sw 0) s fun s _ => k s else k s

/-- The end of a sequence that returns nothing. -/
def endSeq (s : State) : Out := .next (s.completeOp .none)

/-- The end of a sequence that returns a bit. -/
def endSeqBit (b : Bool) (s : State) : Out := .next (s.completeOp (.bit b))

/-- The reference sequence of `add_mod(dst, src)` (rule R142). -/
def refAddMod (f dst src : Nat) (s : State) : Out :=
  moduleOp .w256 none f [mutOperand .w256 dst, readOperand .w256 src] s fun d s =>
  issue (.waluAdd false) dst src s fun s c =>
  csubp d dst c s endSeq

/-- The reference sequence of `sub_mod(dst, src)` (rule R143). -/
def refSubMod (f dst src : Nat) (s : State) : Out :=
  moduleOp .w256 none f [mutOperand .w256 dst, readOperand .w256 src] s fun d s =>
  issue (.waluSub false) dst src s fun s bw =>
  if bw then issue (.waluAdd false) dst d.pLoAddr s fun s _ => endSeq s else endSeq s

/-- The reference sequence of `double_mod(dst)` (rule R144). -/
def refDoubleMod (f dst : Nat) (s : State) : Out :=
  moduleOp .w256 none f [mutOperand .w256 dst] s fun d s =>
  issue (.waluMemCpy false) (s.sw 1) dst s fun s _ =>
  issue (.waluAdd false) dst (s.sw 1) s fun s c =>
  csubp d dst c s endSeq

/-- The reference sequence of `negate_mod(dst)` (rule R145). -/
def refNegateMod (f dst : Nat) (s : State) : Out :=
  moduleOp .w256 none f [mutOperand .w256 dst] s fun d s =>
  issue (.waluSubNeg false) dst d.pLoAddr s fun s _ =>
  issue (.waluMemCpy false) (s.sw 0) dst s fun s _ =>
  issue (.waluEq false) (s.sw 0) d.pLoAddr s fun s e =>
  if e then issue (.waluMemCpy false) dst d.zeroAddr s fun s _ => endSeq s else endSeq s

/-- The reference sequence of `lt(a, b)` (rule R146). -/
def refLt (f a b : Nat) (s : State) : Out :=
  moduleOp .w256 none f [readOperand .w256 a, readOperand .w256 b] s fun _ s =>
  issue (.waluMemCpy false) (s.sw 0) a s fun s _ =>
  issue (.waluSub false) (s.sw 0) b s fun s bw => endSeqBit bw s

/-- The reference sequence of `leq(a, b)` (rule R147). -/
def refLeq (f a b : Nat) (s : State) : Out :=
  moduleOp .w256 none f [readOperand .w256 a, readOperand .w256 b] s fun _ s =>
  issue (.waluMemCpy false) (s.sw 0) b s fun s _ =>
  issue (.waluSub false) (s.sw 0) a s fun s bw => endSeqBit (!bw) s

/-- The comparison of the word at `a` with the word at `b` through a copy in `S0` (rules R148 to R151). -/
def eqThroughScratch (a b : Nat) (s : State) (k : State → Bool → Out) : Out :=
  issue (.waluMemCpy false) (s.sw 0) a s fun s _ => issue (.waluEq false) (s.sw 0) b s k

/-- The reference sequence of `eq(a, b)` (rule R148). -/
def refEq (f a b : Nat) (s : State) : Out :=
  moduleOp .w256 none f [readOperand .w256 a, readOperand .w256 b] s fun _ s =>
  eqThroughScratch a b s fun s e => endSeqBit e s

/-- The reference sequence of `is_zero(a)` (rule R149). -/
def refIsZero (f a : Nat) (s : State) : Out :=
  moduleOp .w256 none f [readOperand .w256 a] s fun d s =>
  eqThroughScratch a d.zeroAddr s fun s e => endSeqBit e s

/-- The reference sequence of `is_one(a)` (rule R150). -/
def refIsOne (f a : Nat) (s : State) : Out :=
  moduleOp .w256 none f [readOperand .w256 a] s fun d s =>
  eqThroughScratch a d.oneAddr s fun s e => endSeqBit e s

/-- The reference sequence of `is_zero_mod(a)` (rule R151). -/
def refIsZeroMod (f a : Nat) (s : State) : Out :=
  moduleOp .w256 none f [readOperand .w256 a] s fun d s =>
  eqThroughScratch a d.zeroAddr s fun s z =>
  if z then endSeqBit true s else eqThroughScratch a d.pLoAddr s fun s e => endSeqBit e s

/-- The body of `mul_mont(dst, src)` (spec/43_montgomery_256.md rule R161), which other sequences inline. -/
def mulMontBody (d : Descriptor) (dst src : Nat) (s : State) (k : State → Out) : Out :=
  issue (.waluMemCpy false) (s.sw 0) dst s fun s _ =>
  issue (.waluMulLo false) (s.sw 0) src s fun s _ =>
  issue (.waluMulHi false) dst src s fun s _ =>
  issue (.waluMemCpy false) (s.sw 1) (s.sw 0) s fun s _ =>
  issue (.waluMulLo false) (s.sw 1) d.nprimeAddr s fun s _ =>
  issue (.waluMemCpy false) (s.sw 2) (s.sw 1) s fun s _ =>
  issue (.waluMulLo false) (s.sw 2) d.pLoAddr s fun s _ =>
  issue (.waluMulHi false) (s.sw 1) d.pLoAddr s fun s _ =>
  issue (.waluAdd false) (s.sw 0) (s.sw 2) s fun s c =>
  issue (.waluAdd c) dst (s.sw 1) s fun s c2 =>
  csubp d dst c2 s k

/-- The reference sequence of `mul_mont(dst, src)` (rule R161). -/
def refMulMont (f dst src : Nat) (s : State) : Out :=
  moduleOp .w256 (some .montgomery) f [mutOperand .w256 dst, readOperand .w256 src] s fun d s =>
  mulMontBody d dst src s endSeq

/-- The reference sequence of `square_mont(dst)` (rule R162): the copy in `S3`, then `mul_mont` inlined. -/
def refSquareMont (f dst : Nat) (s : State) : Out :=
  moduleOp .w256 (some .montgomery) f [mutOperand .w256 dst] s fun d s =>
  issue (.waluMemCpy false) (s.sw 3) dst s fun s _ => mulMontBody d dst (s.sw 3) s endSeq

/-- The reference sequence of `to_representation(dst)` (rule R165): `mul_mont(dst, R2_LO)`. -/
def refToRepresentation (f dst : Nat) (s : State) : Out :=
  moduleOp .w256 (some .montgomery) f [mutOperand .w256 dst] s fun d s => mulMontBody d dst d.r2Addr s endSeq

/-- The reference sequence of `to_integer(dst)` (rule R166): `mul_mont(dst, ONE)`. -/
def refToInteger (f dst : Nat) (s : State) : Out :=
  moduleOp .w256 (some .montgomery) f [mutOperand .w256 dst] s fun d s => mulMontBody d dst d.oneAddr s endSeq

/-- One pass of the fold by `NEGP` (spec/44_barrett_256.md rule R176). -/
def barretPass (d : Descriptor) (dst : Nat) (s : State) (k : State → Out) : Out :=
  issue (.waluMemCpy false) (s.sw 1) dst s fun s _ =>
  issue (.waluMulLo false) (s.sw 1) d.negpAddr s fun s _ =>
  issue (.waluMulHi false) dst d.negpAddr s fun s _ =>
  issue (.waluAdd false) (s.sw 0) (s.sw 1) s fun s c =>
  issue (.waluMemCpy c) (s.sw 1) dst s fun s _ =>
  issue (.waluMemCpy false) dst (s.sw 1) s fun s _ => k s

/-- The body of `mul_barret(dst, src)` (rule R176). -/
def mulBarretBody (d : Descriptor) (dst src : Nat) (s : State) (k : State → Out) : Out :=
  issue (.waluMemCpy false) (s.sw 0) dst s fun s _ =>
  issue (.waluMulLo false) (s.sw 0) src s fun s _ =>
  issue (.waluMulHi false) dst src s fun s _ =>
  barretPass d dst s fun s =>
  barretPass d dst s fun s =>
  issue (.waluMemCpy false) (s.sw 1) dst s fun s _ =>
  issue (.waluEq false) (s.sw 1) d.zeroAddr s fun s e =>
  issue (.waluMemCpy false) dst (s.sw 0) s fun s _ =>
  csubp d dst (!e) s k

/-- The reference sequence of `mul_barret(dst, src)` (rule R176). -/
def refMulBarret (f dst src : Nat) (s : State) : Out :=
  moduleOp .w256 (some .barrett) f [mutOperand .w256 dst, readOperand .w256 src] s fun d s =>
  mulBarretBody d dst src s endSeq

/-- The reference sequence of `square_barret(dst)` (rule R178). -/
def refSquareBarret (f dst : Nat) (s : State) : Out :=
  moduleOp .w256 (some .barrett) f [mutOperand .w256 dst] s fun d s =>
  issue (.waluMemCpy false) (s.sw 3) dst s fun s _ => mulBarretBody d dst (s.sw 3) s endSeq

/-! ### Inversion (spec/45_inversion_256.md rule R186): `S4 = U`, `S5 = V`, `S6 = X1`, `S7 = X2`, `S8 = T` -/

/-- `parity` of a scratch word (spec/41_wide_value_ops.md rule R122). -/
def wordOdd (s : State) (a : Nat) : Bool := (s.readByte a).getLsbD 0

/-- `halve` of a scratch word (spec/41_wide_value_ops.md rule R123). -/
def halveWord (s : State) (a : Nat) (cin : Bool) : State :=
  s.writeWord a (BitVec.ofNat 256 ((cin.toNat * W + (s.readWord a).toNat) / 2))

/-- `while parity(U) = 0`: halve `U`, and halve `X` modulo `p` with the carry-in of the sum `X + p`. The loop has
`fuel` turns; an input that needs more is the one rule R187 tells a model to refuse. -/
def halveWhileEven (d : Descriptor) (u x : Nat) : (fuel : Nat) → State → (State → Out) → Out
  | 0, _, _ => .refused .vRange
  | fuel + 1, s, k =>
    if wordOdd s u then k s
    else if wordOdd (halveWord s u false) x then
      issue (.waluAdd false) x d.pLoAddr (halveWord s u false) fun s c =>
        halveWhileEven d u x fuel (halveWord s x c) k
    else halveWhileEven d u x fuel (halveWord (halveWord s u false) x false) k

/-- `X <- X - Y mod p` by one subtraction and one correction. -/
def subCorrect (d : Descriptor) (x y : Nat) (s : State) (k : State → Out) : Out :=
  issue (.waluSub false) x y s fun s bw =>
  if bw then issue (.waluAdd false) x d.pLoAddr s fun s _ => k s else k s

/-- If the word at `u` is 1 then copy the word at `x` to `dst` and return `ok = 1`, else go on. -/
def returnIfOne (d : Descriptor) (dst u x : Nat) (s : State) (k : State → Out) : Out :=
  issue (.waluMemCpy false) (s.sw 8) u s fun s _ =>
  issue (.waluEq false) (s.sw 8) d.oneAddr s fun s e =>
  if e then issue (.waluMemCpy false) dst x s fun s _ => endSeqBit true s else k s

/-- The outer loop of rule R186, with `fuel` turns. -/
def invLoop (d : Descriptor) (dst : Nat) : (fuel : Nat) → State → Out
  | 0, _ => .refused .vRange
  | fuel + 1, s =>
    returnIfOne d dst (s.sw 4) (s.sw 6) s fun s =>
    returnIfOne d dst (s.sw 5) (s.sw 7) s fun s =>
    halveWhileEven d (s.sw 4) (s.sw 6) 257 s fun s =>
    halveWhileEven d (s.sw 5) (s.sw 7) 257 s fun s =>
    issue (.waluMemCpy false) (s.sw 8) (s.sw 4) s fun s _ =>
    issue (.waluSub false) (s.sw 8) (s.sw 5) s fun s bw =>
    if bw then
      issue (.waluSub false) (s.sw 5) (s.sw 4) s fun s _ =>
      subCorrect d (s.sw 7) (s.sw 6) s fun s => invLoop d dst fuel s
    else
      issue (.waluMemCpy false) (s.sw 4) (s.sw 8) s fun s _ =>
      subCorrect d (s.sw 6) (s.sw 7) s fun s => invLoop d dst fuel s

/-- The reference algorithm of `inv_mod(dst)` (rule R186): at most 512 subtractions (rule R187). -/
def refInvMod (f dst : Nat) (s : State) : Out :=
  moduleOp .w256 none f [mutOperand .w256 dst] s fun d s =>
  eqThroughScratch dst d.zeroAddr s fun s z =>
  if z then endSeqBit false s
  else
    issue (.waluMemCpy false) (s.sw 4) dst s fun s _ =>
    issue (.waluMemCpy false) (s.sw 5) d.pLoAddr s fun s _ =>
    issue (.waluMemCpy false) (s.sw 6) d.oneAddr s fun s _ =>
    issue (.waluMemCpy false) (s.sw 7) d.zeroAddr s fun s _ =>
    invLoop d dst 513 s

end Sys2Proof.Machine
end

