-- ==== Sys2Proof/Machine/RefSeq512.lean ====
section
/-! DEFINITION. The reference sequences of the 512-bit module (spec/46_modular_512.md, spec/47_montgomery_512.md): pairs
of 256-bit calls with the carry or borrow threaded from the low half to the high half (rule R201). -/

namespace Sys2Proof.Machine

/-- The address of the high half (spec/46_modular_512.md rule R200); the low half's is the operand's own. -/
def hiAddr (a : Nat) : Nat := a + 32

/-- `CSUBP512(dst, force)` (rule R202). -/
def csubp512 (d : Descriptor) (dst : Nat) (force : Bool) (s : State) (k : State → Out) : Out :=
  issue (.waluMemCpy false) (s.sw 0) dst s fun s _ =>
  issue (.waluMemCpy false) (s.sw 1) (hiAddr dst) s fun s _ =>
  issue (.waluSub false) (s.sw 0) d.pLoAddr s fun s bw =>
  issue (.waluSub bw) (s.sw 1) d.pHiAddr s fun s bw =>
  if force || !bw then
    issue (.waluMemCpy false) dst (s.sw 0) s fun s _ =>
    issue (.waluMemCpy false) (hiAddr dst) (s.sw 1) s fun s _ => k s
  else k s

/-- The reference sequence of `add_mod512(dst, src)` (rule R203). -/
def refAddMod512 (f dst src : Nat) (s : State) : Out :=
  moduleOp .w512 none f [mutOperand .w512 dst, readOperand .w512 src] s fun d s =>
  issue (.waluAdd false) dst src s fun s c =>
  issue (.waluAdd c) (hiAddr dst) (hiAddr src) s fun s c =>
  csubp512 d dst c s endSeq

/-- The reference sequence of `sub_mod512(dst, src)` (rule R204). -/
def refSubMod512 (f dst src : Nat) (s : State) : Out :=
  moduleOp .w512 none f [mutOperand .w512 dst, readOperand .w512 src] s fun d s =>
  issue (.waluSub false) dst src s fun s bw =>
  issue (.waluSub bw) (hiAddr dst) (hiAddr src) s fun s bw =>
  if bw then
    issue (.waluAdd false) dst d.pLoAddr s fun s c =>
    issue (.waluAdd c) (hiAddr dst) d.pHiAddr s fun s _ => endSeq s
  else endSeq s

/-- The reference sequence of `double_mod512(dst)` (rule R205). -/
def refDoubleMod512 (f dst : Nat) (s : State) : Out :=
  moduleOp .w512 none f [mutOperand .w512 dst] s fun d s =>
  issue (.waluMemCpy false) (s.sw 2) dst s fun s _ =>
  issue (.waluMemCpy false) (s.sw 3) (hiAddr dst) s fun s _ =>
  issue (.waluAdd false) dst (s.sw 2) s fun s c =>
  issue (.waluAdd c) (hiAddr dst) (s.sw 3) s fun s c =>
  csubp512 d dst c s endSeq

/-- The comparison of rule R209: the low words of `a` and `blo`, then the high words of `a` and `bhi`. -/
def eq512ThroughScratch (a blo bhi : Nat) (s : State) (k : State → Bool → Out) : Out :=
  eqThroughScratch a blo s fun s e =>
  if e then eqThroughScratch (hiAddr a) bhi s k else k s false

/-- The reference sequence of `negate_mod512(dst)` (rule R206). -/
def refNegateMod512 (f dst : Nat) (s : State) : Out :=
  moduleOp .w512 none f [mutOperand .w512 dst] s fun d s =>
  issue (.waluSubNeg false) dst d.pLoAddr s fun s bw =>
  issue (.waluSubNeg bw) (hiAddr dst) d.pHiAddr s fun s _ =>
  eq512ThroughScratch dst d.pLoAddr d.pHiAddr s fun s e =>
  if e then
    issue (.waluMemCpy false) dst d.zeroAddr s fun s _ =>
    issue (.waluMemCpy false) (hiAddr dst) d.zeroAddr s fun s _ => endSeq s
  else endSeq s

/-- The borrow of `[a] - [b]` at 512 bits, through `S0` and `S1` (rule R207). -/
def borrow512 (a b : Nat) (s : State) (k : State → Bool → Out) : Out :=
  issue (.waluMemCpy false) (s.sw 0) a s fun s _ =>
  issue (.waluMemCpy false) (s.sw 1) (hiAddr a) s fun s _ =>
  issue (.waluSub false) (s.sw 0) b s fun s bw =>
  issue (.waluSub bw) (s.sw 1) (hiAddr b) s k

/-- The reference sequence of `lt512(a, b)` (rule R207). -/
def refLt512 (f a b : Nat) (s : State) : Out :=
  moduleOp .w512 none f [readOperand .w512 a, readOperand .w512 b] s fun _ s =>
  borrow512 a b s fun s bw => endSeqBit bw s

/-- The reference sequence of `leq512(a, b)`: `1 - lt512(b, a)` (rule R208). -/
def refLeq512 (f a b : Nat) (s : State) : Out :=
  moduleOp .w512 none f [readOperand .w512 a, readOperand .w512 b] s fun _ s =>
  borrow512 b a s fun s bw => endSeqBit (!bw) s

/-- The reference sequence of `eq512(a, b)` (rule R209). -/
def refEq512 (f a b : Nat) (s : State) : Out :=
  moduleOp .w512 none f [readOperand .w512 a, readOperand .w512 b] s fun _ s =>
  eq512ThroughScratch a b (hiAddr b) s fun s e => endSeqBit e s

/-- The reference sequence of `is_zero512(a)` (rule R210). -/
def refIsZero512 (f a : Nat) (s : State) : Out :=
  moduleOp .w512 none f [readOperand .w512 a] s fun d s =>
  eq512ThroughScratch a d.zeroAddr d.zeroAddr s fun s e => endSeqBit e s

/-- The reference sequence of `is_one512(a)` (rule R211). -/
def refIsOne512 (f a : Nat) (s : State) : Out :=
  moduleOp .w512 none f [readOperand .w512 a] s fun d s =>
  eq512ThroughScratch a d.oneAddr (hiAddr d.oneAddr) s fun s e => endSeqBit e s

/-- The reference sequence of `is_zero_mod512(a)` (rule R212). -/
def refIsZeroMod512 (f a : Nat) (s : State) : Out :=
  moduleOp .w512 none f [readOperand .w512 a] s fun d s =>
  eq512ThroughScratch a d.zeroAddr d.zeroAddr s fun s z =>
  if z then endSeqBit true s
  else eq512ThroughScratch a d.pLoAddr d.pHiAddr s fun s e => endSeqBit e s

/-- `MAC(x, y, Tl, Tm, Th)` (spec/47_montgomery_512.md rule R221), with `Tl = T j`, `T0` to `T3` in `S4` to `S7`, and
`j` 0 or 1: add `[x] * [y] * W^j` to the accumulator. -/
def mac (d : Descriptor) (x y j : Nat) (s : State) (k : State → Out) : Out :=
  issue (.waluMemCpy false) (s.sw 9) x s fun s _ =>
  issue (.waluMulLo false) (s.sw 9) y s fun s _ =>
  issue (.waluMemCpy false) (s.sw 10) x s fun s _ =>
  issue (.waluMulHi false) (s.sw 10) y s fun s _ =>
  issue (.waluAdd false) (s.sw (4 + j)) (s.sw 9) s fun s c =>
  issue (.waluAdd c) (s.sw (5 + j)) (s.sw 10) s fun s c =>
  issue (.waluAdd c) (s.sw (6 + j)) d.zeroAddr s fun s c =>
  if j = 0 then issue (.waluAdd c) (s.sw 7) d.zeroAddr s fun s _ => k s else k s

/-- One iteration of rule R222 with the word of `b` at `bi`. -/
def mont512Pass (d : Descriptor) (dst bi : Nat) (s : State) (k : State → Out) : Out :=
  mac d dst bi 0 s fun s =>
  mac d (hiAddr dst) bi 1 s fun s =>
  issue (.waluMemCpy false) (s.sw 8) (s.sw 4) s fun s _ =>
  issue (.waluMulLo false) (s.sw 8) d.nprimeAddr s fun s _ =>
  mac d (s.sw 8) d.pLoAddr 0 s fun s =>
  mac d (s.sw 8) d.pHiAddr 1 s fun s =>
  issue (.waluMemCpy false) (s.sw 4) (s.sw 5) s fun s _ =>
  issue (.waluMemCpy false) (s.sw 5) (s.sw 6) s fun s _ =>
  issue (.waluMemCpy false) (s.sw 6) (s.sw 7) s fun s _ =>
  issue (.waluMemCpy false) (s.sw 7) d.zeroAddr s fun s _ => k s

/-- The body of `mul_mont512(dst, src)` (rule R222), which other sequences inline. -/
def mulMont512Body (d : Descriptor) (dst src : Nat) (s : State) (k : State → Out) : Out :=
  issue (.waluMemCpy false) (s.sw 4) d.zeroAddr s fun s _ =>
  issue (.waluMemCpy false) (s.sw 5) d.zeroAddr s fun s _ =>
  issue (.waluMemCpy false) (s.sw 6) d.zeroAddr s fun s _ =>
  issue (.waluMemCpy false) (s.sw 7) d.zeroAddr s fun s _ =>
  mont512Pass d dst src s fun s =>
  mont512Pass d dst (hiAddr src) s fun s =>
  issue (.waluMemCpy false) (s.sw 2) (s.sw 6) s fun s _ =>
  issue (.waluEq false) (s.sw 2) d.zeroAddr s fun s e =>
  issue (.waluMemCpy false) dst (s.sw 4) s fun s _ =>
  issue (.waluMemCpy false) (hiAddr dst) (s.sw 5) s fun s _ =>
  csubp512 d dst (!e) s k

/-- The reference sequence of `mul_mont512(dst, src)` (rule R222). -/
def refMulMont512 (f dst src : Nat) (s : State) : Out :=
  moduleOp .w512 (some .montgomery) f [mutOperand .w512 dst, readOperand .w512 src] s fun d s =>
  mulMont512Body d dst src s endSeq

/-- The reference sequence of `square_mont512(dst)` (rule R223): a copy in `S2` and `S3`. -/
def refSquareMont512 (f dst : Nat) (s : State) : Out :=
  moduleOp .w512 (some .montgomery) f [mutOperand .w512 dst] s fun d s =>
  issue (.waluMemCpy false) (s.sw 2) dst s fun s _ =>
  issue (.waluMemCpy false) (s.sw 3) (hiAddr dst) s fun s _ =>
  mulMont512Body d dst (s.sw 2) s endSeq

/-- The reference sequence of `to_representation512(dst)` (rule R225): `mul_mont512(dst, R2_LO)`. -/
def refToRepresentation512 (f dst : Nat) (s : State) : Out :=
  moduleOp .w512 (some .montgomery) f [mutOperand .w512 dst] s fun d s => mulMont512Body d dst d.r2Addr s endSeq

/-- The reference sequence of `to_integer512(dst)` (rule R226): `mul_mont512(dst, ONE)`. -/
def refToInteger512 (f dst : Nat) (s : State) : Out :=
  moduleOp .w512 (some .montgomery) f [mutOperand .w512 dst] s fun d s => mulMont512Body d dst d.oneAddr s endSeq

end Sys2Proof.Machine
end

