-- ==== Sys2Proof/Safety.lean ====
section
/-! DEFINITION. The words claims are made in: the invariant of the machine's states, a safe step, when an operation is
legal, how it stops when it is not, and what it leaves as it was. -/

namespace Sys2Proof.Machine

/-! ### States and runs -/

/-- The states a run goes through. Nothing but the configuration is assumed by it, and every step keeps it. -/
structure MachineInv (s : State) : Prop where
  /-- operand memory is in its canonical form -/
  memCanonical : Memory.wf s.mem = true
  /-- operand memory lists only addresses of the address space that neither a constants block nor the scratch space
  holds, so that equal memories are equal lists -/
  memPlaced : ∀ c ∈ s.mem, c.1 < s.cfg.addrLimit ∧ s.cfg.constByte? c.1 = none ∧ s.cfg.inScratch c.1 = false
  /-- `REG_A` is `ADDR_BITS` wide (spec/10_state.md rule R21) -/
  regAWidth : s.regA < s.cfg.addrLimit
  /-- `REG_B` is `ADDR_BITS` wide (spec/10_state.md rule R21) -/
  regBWidth : s.regB < s.cfg.addrLimit
  /-- `pc` is an address (log entry 4) -/
  pcWidth : s.pc < s.cfg.addrLimit
  /-- no macro-operation is in progress between steps (spec/10_state.md rule R36) -/
  idle : s.scratchBusy = false

/-- A step that completes: the machine neither stops with a violation nor is refused. -/
def SafeStep (s : State) : Prop := ∃ t, step s = .next t

/-- `n` steps that all complete. -/
def SafeRun (n : Nat) (s : State) : Prop := ∃ t, Host.Core.run core n s = .next t

/-! ### When an operation is legal -/

/-- The conditions of rule R100 of spec/40_walu_primitives.md on a delegation call: two aligned, distinct addresses, the
first word readable and writable, the second readable. -/
structure CallLegal (s : State) : Prop where
  alignedA : s.regA % 32 = 0
  alignedB : s.regB % 32 = 0
  distinct : s.regA ≠ s.regB
  writableA : s.cfg.writableBlock s.regA 32 = true
  readableB : s.cfg.readableBlock s.regB 32 = true

/-- The conditions of rule R140 of spec/42_modular_256.md on the operands of an operation: the scratch space is free
if the operation borrows it, every operand is aligned, no two meet, none meets the scratch space, and no written one meets a
constants block. -/
structure OpPlaced (s : State) (usesScratch : Bool) (ops : List Operand) : Prop where
  notBusy : usesScratch = true → s.scratchBusy = false
  aligned : ∀ o ∈ ops, o.addr % 32 = 0
  disjoint : operandsDisjoint ops = true
  clear : ∀ o ∈ ops, o.clear s.cfg = true

/-- The conditions on the operands of an operation that accesses them: those, and each operand is plain memory with the
permission it needs (spec/20_memory.md rules R59 and R61). -/
structure OpLegal (s : State) (usesScratch : Bool) (ops : List Operand) : Prop extends OpPlaced s usesScratch ops where
  accessible : ∀ o ∈ ops, o.accessible s.cfg = true

/-- `d` is the descriptor number `f`, it meets its invariants, and it is of the width and the kind the operation asks
for (spec/10_state.md rules R30 and R31). -/
structure Binds (c : Config) (f : Nat) (w : Option Width) (k : Option RedKind) (d : Descriptor) : Prop where
  found : c.fields[f]? = some d
  ok : d.ok = true
  width : w = none ∨ w = some d.width
  kind : k = none ∨ k = some d.kind

/-- The operand blocks an operation names, the byte strings of host data apart. A primitive takes its two words from
the registers and has none here. -/
def operandsOf (c : Config) : Instr → List Operand
  | .waluAdd _ => []
  | .waluSub _ => []
  | .waluSubNeg _ => []
  | .waluMulLo _ => []
  | .waluMulHi _ => []
  | .waluEq _ => []
  | .waluMemCpy _ => []
  | .reserved _ => []
  | .parity n a => [readOperand n a]
  | .halve n a _ => [mutOperand n a]
  | .beDecode n dst _ => [mutOperand n dst]
  | .beEncode n _ src => [readOperand n src]
  | .fromBytes f dst _ => [mutOperand (c.widthOf f) dst]
  | .toBytes f _ src => [readOperand (c.widthOf f) src]
  | .parseDecimal _ _ => []
  | .addMod _ dst src => [mutOperand .w256 dst, readOperand .w256 src]
  | .subMod _ dst src => [mutOperand .w256 dst, readOperand .w256 src]
  | .doubleMod _ dst => [mutOperand .w256 dst]
  | .negateMod _ dst => [mutOperand .w256 dst]
  | .lt _ a b => [readOperand .w256 a, readOperand .w256 b]
  | .leq _ a b => [readOperand .w256 a, readOperand .w256 b]
  | .eq _ a b => [readOperand .w256 a, readOperand .w256 b]
  | .isZero _ a => [readOperand .w256 a]
  | .isOne _ a => [readOperand .w256 a]
  | .isZeroMod _ a => [readOperand .w256 a]
  | .mulMont _ dst src => [mutOperand .w256 dst, readOperand .w256 src]
  | .squareMont _ dst => [mutOperand .w256 dst]
  | .toRepresentation _ dst => [mutOperand .w256 dst]
  | .toInteger _ dst => [mutOperand .w256 dst]
  | .mulBarret _ dst src => [mutOperand .w256 dst, readOperand .w256 src]
  | .squareBarret _ dst => [mutOperand .w256 dst]
  | .toRepresentationBarrett _ dst => [mutOperand .w256 dst]
  | .toIntegerBarrett _ dst => [mutOperand .w256 dst]
  | .invMod _ dst => [mutOperand .w256 dst]
  | .addMod512 _ dst src => [mutOperand .w512 dst, readOperand .w512 src]
  | .subMod512 _ dst src => [mutOperand .w512 dst, readOperand .w512 src]
  | .doubleMod512 _ dst => [mutOperand .w512 dst]
  | .negateMod512 _ dst => [mutOperand .w512 dst]
  | .lt512 _ a b => [readOperand .w512 a, readOperand .w512 b]
  | .leq512 _ a b => [readOperand .w512 a, readOperand .w512 b]
  | .eq512 _ a b => [readOperand .w512 a, readOperand .w512 b]
  | .isZero512 _ a => [readOperand .w512 a]
  | .isOne512 _ a => [readOperand .w512 a]
  | .isZeroMod512 _ a => [readOperand .w512 a]
  | .mulMont512 _ dst src => [mutOperand .w512 dst, readOperand .w512 src]
  | .squareMont512 _ dst => [mutOperand .w512 dst]
  | .toRepresentation512 _ dst => [mutOperand .w512 dst]
  | .toInteger512 _ dst => [mutOperand .w512 dst]

/-- The descriptor an operation names is there, meets its invariants, and is of the width and the kind the operation asks
for; an operation of no field has none to name. -/
def fieldBound (c : Config) : Instr → Bool
  | .waluAdd _ => true
  | .waluSub _ => true
  | .waluSubNeg _ => true
  | .waluMulLo _ => true
  | .waluMulHi _ => true
  | .waluEq _ => true
  | .waluMemCpy _ => true
  | .reserved _ => true
  | .parity _ _ => true
  | .halve _ _ _ => true
  | .beDecode _ _ _ => true
  | .beEncode _ _ _ => true
  | .fromBytes f _ _ => c.wfAnyField f
  | .toBytes f _ _ => c.wfAnyField f
  | .parseDecimal _ _ => true
  | .addMod f _ _ => c.wfField f .w256 none
  | .subMod f _ _ => c.wfField f .w256 none
  | .doubleMod f _ => c.wfField f .w256 none
  | .negateMod f _ => c.wfField f .w256 none
  | .lt f _ _ => c.wfField f .w256 none
  | .leq f _ _ => c.wfField f .w256 none
  | .eq f _ _ => c.wfField f .w256 none
  | .isZero f _ => c.wfField f .w256 none
  | .isOne f _ => c.wfField f .w256 none
  | .isZeroMod f _ => c.wfField f .w256 none
  | .mulMont f _ _ => c.wfField f .w256 (some .montgomery)
  | .squareMont f _ => c.wfField f .w256 (some .montgomery)
  | .toRepresentation f _ => c.wfField f .w256 (some .montgomery)
  | .toInteger f _ => c.wfField f .w256 (some .montgomery)
  | .mulBarret f _ _ => c.wfField f .w256 (some .barrett)
  | .squareBarret f _ => c.wfField f .w256 (some .barrett)
  | .toRepresentationBarrett f _ => c.wfField f .w256 (some .barrett)
  | .toIntegerBarrett f _ => c.wfField f .w256 (some .barrett)
  | .invMod f _ => c.wfField f .w256 none
  | .addMod512 f _ _ => c.wfField f .w512 none
  | .subMod512 f _ _ => c.wfField f .w512 none
  | .doubleMod512 f _ => c.wfField f .w512 none
  | .negateMod512 f _ => c.wfField f .w512 none
  | .lt512 f _ _ => c.wfField f .w512 none
  | .leq512 f _ _ => c.wfField f .w512 none
  | .eq512 f _ _ => c.wfField f .w512 none
  | .isZero512 f _ => c.wfField f .w512 none
  | .isOne512 f _ => c.wfField f .w512 none
  | .isZeroMod512 f _ => c.wfField f .w512 none
  | .mulMont512 f _ _ => c.wfField f .w512 (some .montgomery)
  | .squareMont512 f _ => c.wfField f .w512 (some .montgomery)
  | .toRepresentation512 f _ => c.wfField f .w512 (some .montgomery)
  | .toInteger512 f _ => c.wfField f .w512 (some .montgomery)

/-- Whether an operation borrows the scratch space (spec/42_modular_256.md rule R140); a primitive and a value operation of
the limb datapath do not. -/
def borrowsScratch : Instr → Bool
  | .waluAdd _ => false
  | .waluSub _ => false
  | .waluSubNeg _ => false
  | .waluMulLo _ => false
  | .waluMulHi _ => false
  | .waluEq _ => false
  | .waluMemCpy _ => false
  | .reserved _ => false
  | .parity _ _ => false
  | .halve _ _ _ => false
  | .beDecode _ _ _ => false
  | .beEncode _ _ _ => false
  | .fromBytes _ _ _ => true
  | .toBytes _ _ _ => false
  | .parseDecimal _ _ => false
  | .addMod _ _ _ => true
  | .subMod _ _ _ => true
  | .doubleMod _ _ => true
  | .negateMod _ _ => true
  | .lt _ _ _ => true
  | .leq _ _ _ => true
  | .eq _ _ _ => true
  | .isZero _ _ => true
  | .isOne _ _ => true
  | .isZeroMod _ _ => true
  | .mulMont _ _ _ => true
  | .squareMont _ _ => true
  | .toRepresentation _ _ => true
  | .toInteger _ _ => true
  | .mulBarret _ _ _ => true
  | .squareBarret _ _ => true
  | .toRepresentationBarrett _ _ => true
  | .toIntegerBarrett _ _ => true
  | .invMod _ _ => true
  | .addMod512 _ _ _ => true
  | .subMod512 _ _ _ => true
  | .doubleMod512 _ _ => true
  | .negateMod512 _ _ => true
  | .lt512 _ _ _ => true
  | .leq512 _ _ _ => true
  | .eq512 _ _ _ => true
  | .isZero512 _ _ => true
  | .isOne512 _ _ => true
  | .isZeroMod512 _ _ => true
  | .mulMont512 _ _ _ => true
  | .squareMont512 _ _ => true
  | .toRepresentation512 _ _ => true
  | .toInteger512 _ _ => true

/-- Whether an operation leaves the scratch words as they were: a delegation call, which knows of no scratch space, an operation
that writes no memory, and the evaluation of a literal. Every other leaves them unspecified (spec/10_state.md rule R35; log
entry 10). -/
def keepsScratch : Instr → Bool
  | .waluAdd _ => true
  | .waluSub _ => true
  | .waluSubNeg _ => true
  | .waluMulLo _ => true
  | .waluMulHi _ => true
  | .waluEq _ => true
  | .waluMemCpy _ => true
  | .reserved _ => true
  | .parity _ _ => true
  | .halve _ _ _ => false
  | .beDecode _ _ _ => false
  | .beEncode _ _ _ => false
  | .fromBytes _ _ _ => false
  | .toBytes _ _ _ => false
  | .parseDecimal _ _ => true
  | .addMod _ _ _ => false
  | .subMod _ _ _ => false
  | .doubleMod _ _ => false
  | .negateMod _ _ => false
  | .lt _ _ _ => false
  | .leq _ _ _ => false
  | .eq _ _ _ => false
  | .isZero _ _ => false
  | .isOne _ _ => false
  | .isZeroMod _ _ => false
  | .mulMont _ _ _ => false
  | .squareMont _ _ => false
  | .toRepresentation _ _ => false
  | .toInteger _ _ => false
  | .mulBarret _ _ _ => false
  | .squareBarret _ _ => false
  | .toRepresentationBarrett _ _ => true
  | .toIntegerBarrett _ _ => true
  | .invMod _ _ => false
  | .addMod512 _ _ _ => false
  | .subMod512 _ _ _ => false
  | .doubleMod512 _ _ => false
  | .negateMod512 _ _ => false
  | .lt512 _ _ _ => false
  | .leq512 _ _ _ => false
  | .eq512 _ _ _ => false
  | .isZero512 _ _ => false
  | .isOne512 _ _ => false
  | .isZeroMod512 _ _ => false
  | .mulMont512 _ _ _ => false
  | .squareMont512 _ _ => false
  | .toRepresentation512 _ _ => false
  | .toInteger512 _ _ => false

/-- The byte string of host data an operation writes, as a base and a size (spec/41_wide_value_ops.md rule R131). -/
def writtenString (c : Config) (i : Instr) : List (Nat × Nat) :=
  match i with
  | .beEncode n bytes _ => [(bytes, n.bytes)]
  | .toBytes f bytes _ => [(bytes, (c.widthOf f).bytes)]
  | _ => []

/-- Whether an operation is a primitive that writes the word at `REG_A` (spec/20_memory.md rule R58). -/
def writesRegA (c : Config) (i : Instr) : Bool :=
  match i with
  | .waluAdd _ => true
  | .waluSub _ => true
  | .waluSubNeg _ => true
  | .waluMulLo _ => true
  | .waluMulHi _ => true
  | .waluEq _ => !c.eqPreservesA
  | .waluMemCpy _ => true
  | _ => false

/-- The blocks of memory an operation writes, as bases and sizes: the word at `REG_A`, the operands it overwrites, its byte
string, and the scratch space if it leaves that unspecified. -/
def writtenBlocks (s : State) (i : Instr) : List (Nat × Nat) :=
  (if writesRegA s.cfg i then [(s.regA, 32)] else []) ++
    ((operandsOf s.cfg i).filter Operand.written).map (fun o => (o.addr, o.bytes)) ++
      writtenString s.cfg i ++ (if keepsScratch i then [] else [(s.cfg.scratchBase, scratchBytes)])

/-- The seven primitives. -/
def isPrimitive (i : Instr) : Bool :=
  match i with
  | .waluAdd _ => true
  | .waluSub _ => true
  | .waluSubNeg _ => true
  | .waluMulLo _ => true
  | .waluMulHi _ => true
  | .waluEq _ => true
  | .waluMemCpy _ => true
  | _ => false

/-! ### How an operation ends -/

/-- The machine stops with the violation `v` (spec/60_exceptions.md rule R240): stuck under `CHECK_POLICY = fault`, refused
under `trust`; no state follows under either. -/
def StopsWith (s : State) (o : Out) (v : Fault) : Prop :=
  (s.cfg.checkPolicy = .fault → o = .fault v) ∧ (s.cfg.checkPolicy = .trust → o = .refused (.violated v))

/-- Every byte of the address space outside the `n` addresses from `a` is as before. -/
def sameBytesOutside (s t : State) (a n : Nat) : Prop :=
  ∀ x, (x < a ∨ a + n ≤ x) → t.readByte x = s.readByte x

/-- Every byte of the address space is as before. -/
def sameBytes (s t : State) : Prop := ∀ x, t.readByte x = s.readByte x

/-- Every byte outside the block of `n` addresses from `a` and outside the scratch space is as before. -/
def sameOutside (s t : State) (a n : Nat) : Prop :=
  ∀ x, (x < a ∨ a + n ≤ x) → s.cfg.inScratch x = false → t.readByte x = s.readByte x

/-- Every byte outside the scratch space is as before. -/
def sameMemory (s t : State) : Prop := ∀ x, s.cfg.inScratch x = false → t.readByte x = s.readByte x

/-- What a completed delegation call leaves (spec/40_walu_primitives.md rule R100): `REG_A`, `REG_B` and `scratch_busy` as they
were, bits 31:1 of `REG_CTL` zero, `pc` past the delegation instruction (where that is an address), every byte outside the
word at `REG_A` as it was. -/
structure CallFrame (s t : State) : Prop where
  cfg : t.cfg = s.cfg
  regA : t.regA = s.regA
  regB : t.regB = s.regB
  upper : ∀ k, 1 ≤ k → t.regCtl.getLsbD k = false
  pc : s.pc + s.cfg.ilen < s.cfg.addrLimit → t.pc = s.pc + s.cfg.ilen
  scratchBusy : t.scratchBusy = s.scratchBusy
  requests : t.requests = s.requests
  memory : sameBytesOutside s t s.regA 32

/-- What a completed macro-operation leaves besides memory: the configuration, the requests, and the scratch space free. The
registers, the scratch words and `pc` are unspecified (spec/42_modular_256.md rule R140; log entry 10). -/
structure OpFrame (s t : State) : Prop where
  cfg : t.cfg = s.cfg
  scratchBusy : t.scratchBusy = false
  requests : t.requests = s.requests

/-- A macro-operation left the value `v` in the `Wide<N>` at `dst`, returned no bit, and left every byte outside it and outside
the scratch space as it was. -/
structure Stores (s t : State) (n : Width) (dst v : Nat) : Prop where
  value : t.readWide n dst = v
  ret : t.ret = .none
  memory : sameOutside s t dst n.bytes
  frame : OpFrame s t

/-- A macro-operation returned the bit `b` and left every byte outside the scratch space as it was. -/
structure Returns (s t : State) (b : Bool) : Prop where
  ret : t.ret = .bit b
  memory : sameMemory s t
  frame : OpFrame s t

/-- What a completed value operation of the limb datapath leaves besides memory. -/
structure LimbFrame (s t : State) : Prop where
  cfg : t.cfg = s.cfg
  scratchBusy : t.scratchBusy = s.scratchBusy
  requests : t.requests = s.requests

/-- Two outcomes of one operation agree where the spec specifies it: in what is returned, in every byte outside the scratch
space, in the configuration, the requests and `scratch_busy`. -/
structure Agrees (t u : State) : Prop where
  cfg : u.cfg = t.cfg
  ret : u.ret = t.ret
  scratchBusy : u.scratchBusy = t.scratchBusy
  requests : u.requests = t.requests
  memory : sameMemory t u

/-- The reference sequence `ref` carries out the operation `op`: wherever the operation completes, the sequence completes too,
and the two agree (spec/92_eei_decisions.md D19). -/
def CarriesOut (ref op : State → Out) : Prop :=
  ∀ s t, s.cfg.ok = true → op s = .next t → ∃ u, ref s = .next u ∧ Agrees t u

end Sys2Proof.Machine
end

