-- ==== Sys2Proof/Certificates/Slice0/Obligations.lean ====
section
/-! DEFINITION. The statements for the provers. Each docstring names the rule of spec/ a statement formalises; a statement
about a macro-operation says nothing of what the spec leaves unspecified after one: `REG_A`, `REG_B`, `REG_CTL`, `pc`
and the scratch words (spec/42_modular_256.md rule R140; log entry 10). What an operation returns other than in `REG_CTL` is in
the field `ret` (log entry 7). -/

open Sys2Proof Sys2Proof.Machine

/-! ### The control word -/

/-- Rule R74: the seven opcodes, with the control word for each value of `cin`. -/
def Obligations.ControlWordsOfTheMap : Prop :=
  decode ctlTable 0x00000000#32 = .ok (.waluAdd false) ∧ decode ctlTable 0x00000040#32 = .ok (.waluAdd true) ∧
  decode ctlTable 0x00000001#32 = .ok (.waluSub false) ∧ decode ctlTable 0x00000041#32 = .ok (.waluSub true) ∧
  decode ctlTable 0x00000002#32 = .ok (.waluSubNeg false) ∧ decode ctlTable 0x00000042#32 = .ok (.waluSubNeg true) ∧
  decode ctlTable 0x00000003#32 = .ok (.waluMulLo false) ∧ decode ctlTable 0x00000043#32 = .ok (.waluMulLo true) ∧
  decode ctlTable 0x00000004#32 = .ok (.waluMulHi false) ∧ decode ctlTable 0x00000044#32 = .ok (.waluMulHi true) ∧
  decode ctlTable 0x00000005#32 = .ok (.waluEq false) ∧ decode ctlTable 0x00000045#32 = .ok (.waluEq true) ∧
  decode ctlTable 0x00000007#32 = .ok (.waluMemCpy false) ∧ decode ctlTable 0x00000047#32 = .ok (.waluMemCpy true)

/-- Rules R70, R72 and R74: the decoder reads from a word exactly the operation whose word it is, for every word and every
operation; no bit is dropped and no operation has two words. -/
def Obligations.DecodeEncodeAgree : Prop :=
  ∀ (ctl : Ctl) (i : Instr), decode ctlTable ctl = .ok i ↔ encode ctlTable i = some ctl

/-- Rules R74 and R76: a word decodes to a primitive exactly when its reserved bits are clear and its `op` is not 6. -/
def Obligations.DecodeAcceptsExactly : Prop :=
  ∀ ctl : Ctl,
    (∃ i, decode ctlTable ctl = .ok i ∧ isPrimitive i = true) ↔
      ((∀ k, (3 ≤ k ∧ k ≤ 5) ∨ (7 ≤ k ∧ k ≤ 31) → ctl.getLsbD k = false) ∧ ctl.toNat % 8 ≠ 6)

/-- Rules R76 and R241: a delegation call with `op = 6` or a reserved bit set is `V_RESERVED`, whatever else is wrong with
it, and the reserved opcode has no other outcome. -/
def Obligations.ReservedWordsStop : Prop :=
  (∀ (s : State) (ctl : Ctl), s.cfg.ctl = ctlTable →
    (ctl.toNat % 8 = 6 ∨ ∃ k, ((3 ≤ k ∧ k ≤ 5) ∨ (7 ≤ k ∧ k ≤ 31)) ∧ ctl.getLsbD k = true) →
      StopsWith s (delegate ctl s) (.vReserved ctl)) ∧
  (∀ (s : State) (cin : Bool), s.cfg.ctl = ctlTable →
    StopsWith s (exec (.reserved cin) s) (.vReserved (if cin then 0x46#32 else 0x06#32)))

/-! ### The step -/

/-- A step runs the operation that the control word of the oldest request decodes to, with the three registers the request
carries (rules R71, R72 and R79); the same for a word put in front of the requests. The queue of requests and `withFetchWord`,
which takes the two operand addresses from `REG_A` and `REG_B`, are the model's choice (log entry 6). -/
def Obligations.StepRunsDecodedCall : Prop :=
  (∀ (s : State) (a b : Nat) (ctl : Ctl) (rest : List Request) (i : Instr),
    s.requests = .call a b ctl :: rest → s.cfg.ok = true → decode s.cfg.ctl ctl = .ok i →
      i.wf s.cfg = true ∧
      step s = exec i { s with
        requests := rest, regA := a % 2 ^ s.cfg.addrBits, regB := b % 2 ^ s.cfg.addrBits, regCtl := ctl }) ∧
  (∀ (s : State) (nbits w : Nat) (i : Instr),
    s.cfg.ok = true → s.cfg.ctl = ctlTable → decodeTableWord nbits w = some i →
      step (s.withFetchWord nbits w) = exec i { s with
        regA := s.regA % 2 ^ s.cfg.addrBits, regB := s.regB % 2 ^ s.cfg.addrBits,
        regCtl := BitVec.ofNat 32 (w % 2 ^ nbits) })

/-- A step runs the operation the oldest request names; with no request nothing changes (rule R20). The queue of requests is
the model's choice (log entry 6). So is the third clause (log entry 17): a configuration that `Config.ok` does not accept is
refused at the first request, and `Config.ok` asks more than rule R261. -/
def Obligations.StepRunsRequestedOperation : Prop :=
  (∀ (s : State) (i : Instr) (rest : List Request),
    s.requests = .op i :: rest → s.cfg.ok = true → step s = exec i { s with requests := rest }) ∧
  (∀ s : State, s.requests = [] → step s = .next s) ∧
  (∀ s : State, s.requests ≠ [] → s.cfg.ok = false → step s = .refused .badConfig)

/-! ### The primitives -/

/-- Rule R101: `Add`. -/
def Obligations.WaluAddResult : Prop :=
  ∀ (cin : Bool) (s : State) (A B : Nat),
    encode ctlTable (.waluAdd cin) = some (if cin then 0x40#32 else 0x00#32) ∧
    (CallLegal s → (s.readWord s.regA).toNat = A → (s.readWord s.regB).toNat = B →
      ∃ t, exec (.waluAdd cin) s = .next t ∧ CallFrame s t ∧ t.readWord s.regB = s.readWord s.regB ∧
        (t.readWord s.regA).toNat = (A + B + cin.toNat) % W ∧
        t.regCtl.toNat = (A + B + cin.toNat) / W)

/-- Rule R102: `Sub`. -/
def Obligations.WaluSubResult : Prop :=
  ∀ (cin : Bool) (s : State) (A B : Nat),
    encode ctlTable (.waluSub cin) = some (if cin then 0x41#32 else 0x01#32) ∧
    (CallLegal s → (s.readWord s.regA).toNat = A → (s.readWord s.regB).toNat = B →
      ∃ t, exec (.waluSub cin) s = .next t ∧ CallFrame s t ∧ t.readWord s.regB = s.readWord s.regB ∧
        ((t.readWord s.regA).toNat : Int) = ((A : Int) - B - cin.toNat) % (W : Int) ∧
        t.flag = decide (A < B + cin.toNat))

/-- Rule R103: `SubAndNegate`. -/
def Obligations.WaluSubNegResult : Prop :=
  ∀ (cin : Bool) (s : State) (A B : Nat),
    encode ctlTable (.waluSubNeg cin) = some (if cin then 0x42#32 else 0x02#32) ∧
    (CallLegal s → (s.readWord s.regA).toNat = A → (s.readWord s.regB).toNat = B →
      ∃ t, exec (.waluSubNeg cin) s = .next t ∧ CallFrame s t ∧ t.readWord s.regB = s.readWord s.regB ∧
        ((t.readWord s.regA).toNat : Int) = ((B : Int) - A - cin.toNat) % (W : Int) ∧
        t.flag = decide (B < A + cin.toNat))

/-- Rules R104 and R105: `MulLow` and `MulHigh` of the same operands give the two halves of the exact product, whatever
`cin` is and whatever the unspecified flag is. -/
def Obligations.WaluMulHalves : Prop :=
  ∀ (c c' : Bool) (s : State) (A B : Nat),
    encode ctlTable (.waluMulLo c) = some (if c then 0x43#32 else 0x03#32) ∧
    encode ctlTable (.waluMulHi c') = some (if c' then 0x44#32 else 0x04#32) ∧
    (CallLegal s → (s.readWord s.regA).toNat = A → (s.readWord s.regB).toNat = B →
      ∃ t u, exec (.waluMulLo c) s = .next t ∧ CallFrame s t ∧ t.readWord s.regB = s.readWord s.regB ∧
        exec (.waluMulHi c') s = .next u ∧ CallFrame s u ∧ u.readWord s.regB = s.readWord s.regB ∧
        (t.readWord s.regA).toNat = A * B % W ∧ (u.readWord s.regA).toNat = A * B / W ∧
        (t.readWord s.regA).toNat + W * (u.readWord s.regA).toNat = A * B)

/-- Rule R106: `Eq`; with `EQ_PRESERVES_A` no byte changes, without it only the word at `REG_A` may. -/
def Obligations.WaluEqResult : Prop :=
  ∀ (cin : Bool) (s : State),
    encode ctlTable (.waluEq cin) = some (if cin then 0x45#32 else 0x05#32) ∧
    (CallLegal s →
      ∃ t, exec (.waluEq cin) s = .next t ∧ CallFrame s t ∧ t.readWord s.regB = s.readWord s.regB ∧
        t.flag = decide (s.readWord s.regA = s.readWord s.regB) ∧
        (s.cfg.eqPreservesA = true → sameBytes s t))

/-- Rule R107: `MemCpy`. -/
def Obligations.WaluMemCpyResult : Prop :=
  ∀ (cin : Bool) (s : State) (B : Nat),
    encode ctlTable (.waluMemCpy cin) = some (if cin then 0x47#32 else 0x07#32) ∧
    (CallLegal s → (s.readWord s.regB).toNat = B →
      ∃ t, exec (.waluMemCpy cin) s = .next t ∧ CallFrame s t ∧ t.readWord s.regB = s.readWord s.regB ∧
        (t.readWord s.regA).toNat = (B + cin.toNat) % W ∧
        t.regCtl.toNat = (B + cin.toNat) / W ∧
        (t.flag = true ↔ B = W - 1 ∧ cin = true))

/-- Rules R108 and R267: two calls of `Add` (or of `Sub`) on adjacent words, the flag of the first moved to bit 6 of the
control word of the second, compute the exact 512-bit sum (or difference). -/
def Obligations.CarryChainsAreExact : Prop :=
  ∀ (s : State) (a b : Nat),
    a % 32 = 0 → b % 32 = 0 → disjointBlocks a 64 b 64 = true →
    s.cfg.writableBlock a 64 = true → s.cfg.readableBlock b 64 = true → s.cfg.ctl = ctlTable →
    (∃ t u, delegate (chainCtl ctlTable .add false) (s.setRegs a b (chainCtl ctlTable .add false)) = .next t ∧
      delegate (chainCtl ctlTable .add t.flag) (t.setRegs (a + 32) (b + 32) (chainCtl ctlTable .add t.flag)) = .next u ∧
      u.readWide .w512 a + W * W * u.flag.toNat = s.readWide .w512 a + s.readWide .w512 b ∧
      u.readWide .w512 b = s.readWide .w512 b) ∧
    (∃ t u, delegate (chainCtl ctlTable .sub false) (s.setRegs a b (chainCtl ctlTable .sub false)) = .next t ∧
      delegate (chainCtl ctlTable .sub t.flag) (t.setRegs (a + 32) (b + 32) (chainCtl ctlTable .sub t.flag)) = .next u ∧
      (u.readWide .w512 a : Int) - (W * W * u.flag.toNat : Nat) = (s.readWide .w512 a : Int) - s.readWide .w512 b ∧
      u.readWide .w512 b = s.readWide .w512 b)

/-! ### Violations -/

/-- Rules R243 and R245, in the order of rule R249: every primitive stops on aliased addresses and on a word it may not
access, and completes on every other call. -/
def Obligations.CallChecksInOrder : Prop :=
  ∀ (i : Instr) (s : State), isPrimitive i = true →
    (s.regA % 32 ≠ 0 ∨ s.regB % 32 ≠ 0 → StopsWith s (exec i s) (.vAlign s.regA s.regB)) ∧
    (s.regA % 32 = 0 → s.regB % 32 = 0 → s.regA = s.regB → StopsWith s (exec i s) (.vAlias s.regA)) ∧
    (s.regA % 32 = 0 → s.regB % 32 = 0 → s.regA ≠ s.regB →
      (s.cfg.writableBlock s.regA 32 = false ∨ s.cfg.readableBlock s.regB 32 = false) →
        StopsWith s (exec i s) (.vAccess s.regA s.regB)) ∧
    (CallLegal s → ∃ t, exec i s = .next t ∧ CallFrame s t)

/-- Rule R242: a misaligned address stops a delegation call, and a misaligned operand stops a macro-operation or value
operation. -/
def Obligations.MisalignedOperandsStop : Prop :=
  ∀ (i : Instr) (s : State),
    (isPrimitive i = true → s.regA % 32 ≠ 0 ∨ s.regB % 32 ≠ 0 →
      StopsWith s (exec i s) (.vAlign s.regA s.regB)) ∧
    (fieldBound s.cfg i = true → (∃ o ∈ operandsOf s.cfg i, o.addr % 32 ≠ 0) →
      (borrowsScratch i = true → s.scratchBusy = false) → ∃ a b, StopsWith s (exec i s) (.vAlign a b)) ∧
    (fieldBound s.cfg i = true → (∃ o ∈ operandsOf s.cfg i, o.addr % 32 ≠ 0) → ∃ v, StopsWith s (exec i s) v)

/-- A macro-operation that starts while the scratch space is borrowed stops (rule R246), those that use no scratch word among
them, and `from_bytes` (log entries 12 and 13). -/
def Obligations.ReentryStops : Prop :=
  ∀ (i : Instr) (s : State),
    borrowsScratch i = true → fieldBound s.cfg i = true → s.scratchBusy = true → StopsWith s (exec i s) .vReentry

/-- An operand that meets the scratch space, a written operand that meets a constants block, and two operands that meet, each
stop the operation (rule R247), the value operations among them (log entry 13). -/
def Obligations.OverlapStops : Prop :=
  ∀ (i : Instr) (s : State),
    fieldBound s.cfg i = true → (borrowsScratch i = true → s.scratchBusy = false) →
    (∀ o ∈ operandsOf s.cfg i, o.addr % 32 = 0) →
    ((∃ o ∈ operandsOf s.cfg i, disjointBlocks o.addr o.bytes s.cfg.scratchBase 384 = false) ∨
      (∃ o ∈ operandsOf s.cfg i, o.written = true ∧
        ∃ d ∈ s.cfg.fields, disjointBlocks o.addr o.bytes d.constBase 256 = false) ∨
      (∃ o o', operandsOf s.cfg i = [o, o'] ∧ disjointBlocks o.addr o.bytes o'.addr o'.bytes = false)) →
    ∃ a b, StopsWith s (exec i s) (.vOverlap a b)

/-! ### Value operations -/

/-- Rule R122: `parity`. -/
def Obligations.ParityResult : Prop :=
  ∀ (s : State) (n : Width) (a : Nat),
    (OpLegal s false [readOperand n a] →
      ∃ t, exec (.parity n a) s = .next t ∧ t.ret = .bit (decide (s.readWide n a % 2 = 1)) ∧ sameBytes s t ∧
        LimbFrame s t) ∧
    (a % 32 ≠ 0 → StopsWith s (exec (.parity n a) s) (.vAlign a a))

/-- Rule R123: `halve`, as one division and limb by limb. -/
def Obligations.HalveResult : Prop :=
  ∀ (s : State) (n : Width) (a : Nat) (cin : Bool) (v : Nat),
    (OpLegal s false [mutOperand n a] → s.readWide n a = v →
      ∃ t v', exec (.halve n a cin) s = .next t ∧ t.readWide n a = v' ∧ t.ret = .none ∧
        v' = (cin.toNat * 2 ^ n.bits + v) / 2 ∧
        (∀ i, i + 1 < n.bytes / 8 →
          v' / 2 ^ (64 * i) % 2 ^ 64 = v / 2 ^ (64 * i) % 2 ^ 64 / 2 + 2 ^ 63 * (v / 2 ^ (64 * (i + 1)) % 2)) ∧
        v' / 2 ^ (n.bits - 64) = v / 2 ^ (n.bits - 64) / 2 + 2 ^ 63 * cin.toNat ∧
        sameOutside s t a n.bytes ∧ LimbFrame s t) ∧
    (a % 32 ≠ 0 → StopsWith s (exec (.halve n a cin) s) (.vAlign a a))

/-- Rule R125: `be_decode` reads the whole string as one big-endian number, eight bytes to a limb. -/
def Obligations.BeDecodeResult : Prop :=
  ∀ (s : State) (n : Width) (dst bytes : Nat),
    OpLegal s false [mutOperand n dst] → s.cfg.readableBlock bytes n.bytes = true →
    ∃ t, exec (.beDecode n dst bytes) s = .next t ∧
      t.readWide n dst =
        ∑ k ∈ Finset.range n.bytes, (s.readByte (bytes + k)).toNat * 2 ^ (8 * (n.bytes - 1 - k)) ∧
      (∀ g, g < n.bytes / 8 →
        t.readWide n dst / 2 ^ (64 * (n.bytes / 8 - 1 - g)) % 2 ^ 64 =
          ∑ j ∈ Finset.range 8, (s.readByte (bytes + 8 * g + j)).toNat * 2 ^ (8 * (7 - j))) ∧
      t.ret = .none ∧ sameOutside s t dst n.bytes ∧ LimbFrame s t

/-- Rule R126: `be_encode` writes byte `k` of the string from the bits `8 (8N - 1 - k) + 7` to `8 (8N - 1 - k)` of the value,
and the two conversions are inverse. A byte of the string in the scratch space is unspecified afterwards (rule R35). -/
def Obligations.BeEncodeResult : Prop :=
  (∀ (s : State) (n : Width) (bytes src : Nat),
    OpLegal s false [readOperand n src] → s.cfg.writableBlock bytes n.bytes = true →
    ∃ t, exec (.beEncode n bytes src) s = .next t ∧
      (∀ k, k < n.bytes → s.cfg.inScratch (bytes + k) = false →
        (t.readByte (bytes + k)).toNat = s.readWide n src / 2 ^ (8 * (n.bytes - 1 - k)) % 256) ∧
      t.ret = .none ∧ sameOutside s t bytes n.bytes ∧ LimbFrame s t) ∧
  (∀ (n : Width) (v : Nat), v < 2 ^ n.bits → beValue (beBytes n.bytes v) = v) ∧
  (∀ (n : Width) (bs : List Byte), bs.length = n.bytes → beBytes n.bytes (beValue bs) = bs)

/-- Rules R128 and R131: `from_bytes` stores a value below the modulus and reports it present, and reports every other one
absent. That an absent outcome leaves `dst` as it was is log entry 12. -/
def Obligations.FromBytesResult : Prop :=
  ∀ (s : State) (f dst bytes v : Nat) (d : Descriptor),
    Binds s.cfg f none none d → OpLegal s true [mutOperand d.width dst] →
    s.cfg.readableBlock bytes d.width.bytes = true →
    v = ∑ k ∈ Finset.range d.width.bytes, (s.readByte (bytes + k)).toNat * 2 ^ (8 * (d.width.bytes - 1 - k)) →
    (v < d.modulus → ∃ t, exec (.fromBytes f dst bytes) s = .next t ∧ t.readWide d.width dst = v ∧
      t.ret = .bit true ∧ sameOutside s t dst d.width.bytes ∧ OpFrame s t) ∧
    (d.modulus ≤ v → ∃ t, exec (.fromBytes f dst bytes) s = .next t ∧ Returns s t false)

/-- Rule R129: `to_bytes` is `be_encode` of the stored integer, with no check and no conversion. A byte of the string in the
scratch space is unspecified afterwards (rule R35). -/
def Obligations.ToBytesResult : Prop :=
  ∀ (s : State) (f bytes src : Nat) (d : Descriptor),
    Binds s.cfg f none none d → OpLegal s false [readOperand d.width src] →
    s.cfg.writableBlock bytes d.width.bytes = true →
    exec (.toBytes f bytes src) s = exec (.beEncode d.width bytes src) s ∧
    ∃ t, exec (.toBytes f bytes src) s = .next t ∧
      (∀ k, k < d.width.bytes → s.cfg.inScratch (bytes + k) = false →
        (t.readByte (bytes + k)).toNat = s.readWide d.width src / 2 ^ (8 * (d.width.bytes - 1 - k)) % 256) ∧
      t.ret = .none ∧ sameOutside s t bytes d.width.bytes ∧ LimbFrame s t

/-- Rule R130: `parse_decimal` gives the value of a non-empty string of digits that fits, and refuses every other string; the
build of a configuration gives every field the value of its literal, and fails exactly where a literal fails. That
`parse_decimal` can also be asked for as an operation is the model's choice, log entry 11. -/
def Obligations.ParseDecimalResult : Prop :=
  (∀ (s : State) (n : Width) (lit : List Char) (v : Nat),
    v = ∑ k ∈ Finset.range lit.length, ((lit.getD k '0').toNat - 48) * 10 ^ (lit.length - 1 - k) →
    (lit ≠ [] → (∀ ch ∈ lit, 48 ≤ ch.toNat ∧ ch.toNat ≤ 57) → v < 2 ^ n.bits →
      decimalValue n lit = some v ∧
        ∃ t, exec (.parseDecimal n lit) s = .next t ∧ t.ret = .value v ∧ sameBytes s t ∧ LimbFrame s t) ∧
    (lit = [] ∨ (∃ ch ∈ lit, ch.toNat < 48 ∨ 57 < ch.toNat) ∨ 2 ^ n.bits ≤ v →
      exec (.parseDecimal n lit) s = .refused .badLiteral ∧ decimalValue n lit = none)) ∧
  (∀ (c : Config) (fs : List FieldSource),
    (c.build fs = none ↔ ∃ f ∈ fs, decimalValue f.width f.literal = none) ∧
    (∀ c', c.build fs = some c' → ∃ ds, c' = { c with fields := ds } ∧ ds.length = fs.length ∧
      ∀ (k : Nat) (f : FieldSource) (d : Descriptor), fs[k]? = some f → ds[k]? = some d → decimalValue f.width f.literal = some d.modulus ∧
        d.width = f.width ∧ d.kind = f.kind ∧ d.constBase = f.constBase))

/-- The value operations of the limb datapath issue no delegation call, so they leave the registers, `pc` and `scratch_busy`
as they were; so do the two conversions of a Barrett field (rule R179). An inference, log entry 10. -/
def Obligations.ValueOperationsKeepRegisters : Prop :=
  ∀ (i : Instr) (s t : State),
    ((isPrimitive i = false ∧ borrowsScratch i = false) ∨
      (∃ f dst, i = .toRepresentationBarrett f dst ∨ i = .toIntegerBarrett f dst)) →
    exec i s = .next t →
    t.regA = s.regA ∧ t.regB = s.regB ∧ t.regCtl = s.regCtl ∧ t.pc = s.pc ∧ t.scratchBusy = s.scratchBusy ∧
      t.requests = s.requests ∧ t.cfg = s.cfg

/-! ### The 256-bit module -/

/-- Rule R142: `add_mod`. -/
def Obligations.AddModResult : Prop :=
  ∀ (s : State) (f dst src a b : Nat) (d : Descriptor),
    Binds s.cfg f (some .w256) none d → OpLegal s true [mutOperand .w256 dst, readOperand .w256 src] →
    s.readWide .w256 dst = a → s.readWide .w256 src = b →
    (a + b < 2 * d.modulus → ∃ t, exec (.addMod f dst src) s = .next t ∧
      Stores s t .w256 dst ((a + b) % d.modulus) ∧ t.readWide .w256 src = b) ∧
    (2 * d.modulus ≤ a + b → exec (.addMod f dst src) s = .refused .vRange)

/-- Rule R143: `sub_mod`. -/
def Obligations.SubModResult : Prop :=
  ∀ (s : State) (f dst src a b : Nat) (d : Descriptor),
    Binds s.cfg f (some .w256) none d → OpLegal s true [mutOperand .w256 dst, readOperand .w256 src] →
    s.readWide .w256 dst = a → s.readWide .w256 src = b →
    (a < d.modulus → b < d.modulus → ∃ t, exec (.subMod f dst src) s = .next t ∧
      Stores s t .w256 dst ((a + d.modulus - b) % d.modulus) ∧ t.readWide .w256 src = b) ∧
    (d.modulus ≤ a ∨ d.modulus ≤ b → exec (.subMod f dst src) s = .refused .vRange)

/-- Rules R144 and R145: `double_mod` and `negate_mod`. -/
def Obligations.DoubleNegateResults : Prop :=
  ∀ (s : State) (f dst a : Nat) (d : Descriptor),
    Binds s.cfg f (some .w256) none d → OpLegal s true [mutOperand .w256 dst] → s.readWide .w256 dst = a →
    (a < d.modulus → ∃ t, exec (.doubleMod f dst) s = .next t ∧ Stores s t .w256 dst (2 * a % d.modulus)) ∧
    (d.modulus ≤ a → exec (.doubleMod f dst) s = .refused .vRange) ∧
    (a ≤ d.modulus → ∃ t, exec (.negateMod f dst) s = .next t ∧
      Stores s t .w256 dst ((d.modulus - a) % d.modulus)) ∧
    (d.modulus < a → exec (.negateMod f dst) s = .refused .vRange)

/-- Rules R146, R147 and R148: `lt`, `leq` and `eq`. -/
def Obligations.CompareResults : Prop :=
  ∀ (s : State) (f a b : Nat) (d : Descriptor),
    Binds s.cfg f (some .w256) none d → OpLegal s true [readOperand .w256 a, readOperand .w256 b] →
    (∃ t, exec (.lt f a b) s = .next t ∧ Returns s t (decide (s.readWide .w256 a < s.readWide .w256 b))) ∧
    (∃ t, exec (.leq f a b) s = .next t ∧ Returns s t (decide (s.readWide .w256 a ≤ s.readWide .w256 b))) ∧
    (∃ t, exec (.eq f a b) s = .next t ∧ Returns s t (decide (s.readWide .w256 a = s.readWide .w256 b)))

/-- Rules R149, R150 and R151: `is_zero`, `is_one` and `is_zero_mod`. -/
def Obligations.ZeroOneTestResults : Prop :=
  ∀ (s : State) (f a : Nat) (d : Descriptor),
    Binds s.cfg f (some .w256) none d → OpLegal s true [readOperand .w256 a] →
    (∃ t, exec (.isZero f a) s = .next t ∧ Returns s t (decide (s.readWide .w256 a = 0))) ∧
    (∃ t, exec (.isOne f a) s = .next t ∧ Returns s t (decide (s.readWide .w256 a = 1))) ∧
    (∃ t, exec (.isZeroMod f a) s = .next t ∧
      Returns s t (decide (s.readWide .w256 a = 0 ∨ s.readWide .w256 a = d.modulus)))

/-! ### 256-bit Montgomery -/

/-- Rule R160: the definition of `REDC` and the three facts that follow. -/
def Obligations.RedcFacts : Prop :=
  ∀ (d : Descriptor) (T m : Nat),
    d.ok = true → d.width = .w256 → T < W * W → m = T % W * d.nprime % W →
    (d.modulus * d.nprime + 1) % W = 0 ∧
    redc d T = (T + m * d.modulus) / W ∧ (T + m * d.modulus) % W = 0 ∧
    redc d T * W % d.modulus = T % d.modulus ∧
    redc d T * W < T + d.modulus * W ∧ redc d T < W + d.modulus ∧
    (T < d.modulus * W → redc d T < 2 * d.modulus) ∧
    (T < W → redc d T ≤ d.modulus ∧ (redc d T = d.modulus ↔ T ≠ 0 ∧ d.modulus ∣ T))

/-- Rules R161 and R162: `mul_mont` and `square_mont`: `REDC` and one subtraction, which is `a * b * W^-1 mod p`. -/
def Obligations.MulMontResults : Prop :=
  ∀ (s : State) (f dst : Nat) (a : Nat) (d : Descriptor),
    Binds s.cfg f (some .w256) (some .montgomery) d → s.readWide .w256 dst = a →
    (∀ src b, OpLegal s true [mutOperand .w256 dst, readOperand .w256 src] → s.readWide .w256 src = b →
      (a * b < d.modulus * W → ∃ t y, exec (.mulMont f dst src) s = .next t ∧ Stores s t .w256 dst y ∧
        t.readWide .w256 src = b ∧
        y = (if d.modulus ≤ redc d (a * b) then redc d (a * b) - d.modulus else redc d (a * b)) ∧
        y < d.modulus ∧ y * W % d.modulus = a * b % d.modulus) ∧
      (d.modulus * W ≤ a * b → exec (.mulMont f dst src) s = .refused .vRange)) ∧
    (OpLegal s true [mutOperand .w256 dst] →
      (a * a < d.modulus * W → ∃ t y, exec (.squareMont f dst) s = .next t ∧ Stores s t .w256 dst y ∧
        y < d.modulus ∧ y * W % d.modulus = a * a % d.modulus) ∧
      (d.modulus * W ≤ a * a → exec (.squareMont f dst) s = .refused .vRange))

/-- Rules R165 and R166: `to_representation` and `to_integer`. -/
def Obligations.ConversionResults : Prop :=
  ∀ (s : State) (f dst a : Nat) (d : Descriptor),
    Binds s.cfg f (some .w256) (some .montgomery) d → OpLegal s true [mutOperand .w256 dst] →
    s.readWide .w256 dst = a →
    (a < d.modulus → ∃ t, exec (.toRepresentation f dst) s = .next t ∧ Stores s t .w256 dst (a * W % d.modulus)) ∧
    (d.modulus ≤ a → exec (.toRepresentation f dst) s = .refused .vRange) ∧
    (∃ t y, exec (.toInteger f dst) s = .next t ∧ Stores s t .w256 dst y ∧ y < d.modulus ∧
      y * W % d.modulus = a % d.modulus)

/-- Rule R167: the conversions are mutual inverses on `[0, p)`; for a Barrett descriptor both are the identity. -/
def Obligations.ConversionsMutuallyInverse : Prop :=
  ∀ (s : State) (f dst x : Nat) (d : Descriptor),
    OpLegal s true [mutOperand .w256 dst] → s.readWide .w256 dst = x →
    (Binds s.cfg f (some .w256) (some .montgomery) d → x < d.modulus →
      (∃ t u, exec (.toRepresentation f dst) s = .next t ∧ exec (.toInteger f dst) t = .next u ∧
        u.readWide .w256 dst = x) ∧
      (∃ t u, exec (.toInteger f dst) s = .next t ∧ exec (.toRepresentation f dst) t = .next u ∧
        u.readWide .w256 dst = x)) ∧
    (Binds s.cfg f (some .w256) (some .barrett) d →
      (∃ t, exec (.toRepresentationBarrett f dst) s = .next t ∧ t.readWide .w256 dst = x) ∧
      (∃ t, exec (.toIntegerBarrett f dst) s = .next t ∧ t.readWide .w256 dst = x))

/-! ### 256-bit Barrett -/

/-- Rules R176 and R178: `mul_barret` and `square_barret` give the canonical product of every two words. -/
def Obligations.MulBarretResults : Prop :=
  ∀ (s : State) (f dst a : Nat) (d : Descriptor),
    Binds s.cfg f (some .w256) (some .barrett) d → s.readWide .w256 dst = a →
    (∀ src b, OpLegal s true [mutOperand .w256 dst, readOperand .w256 src] → s.readWide .w256 src = b →
      ∃ t, exec (.mulBarret f dst src) s = .next t ∧ Stores s t .w256 dst (a * b % d.modulus) ∧
        t.readWide .w256 src = b ∧ bred d (a * b) = a * b % d.modulus) ∧
    (OpLegal s true [mutOperand .w256 dst] →
      ∃ t, exec (.squareBarret f dst) s = .next t ∧ Stores s t .w256 dst (a * a % d.modulus) ∧
        bred d (a * a) = a * a % d.modulus)

/-- Rule R175: the definition of `BRED` and its three facts, for every one-word modulus; and, as rule R177 derives, the
result is canonical under the constraint on `c`. -/
def Obligations.BarrettReductionFacts : Prop :=
  ∀ (d : Descriptor) (T c V1 V2 : Nat),
    0 < d.modulus → d.modulus < W → T < W * W → c = W - d.modulus →
    V1 = T / W * c + T % W → V2 = V1 / W * c + V1 % W →
    bred d T = (if d.modulus ≤ V2 then V2 - d.modulus else V2) ∧
    V1 % d.modulus = T % d.modulus ∧ V2 % d.modulus = T % d.modulus ∧ bred d T % d.modulus = T % d.modulus ∧
    V1 < W * (c + 1) ∧ V1 / W ≤ c ∧ V2 + c + 1 ≤ W + c * c ∧
    (c * c < W + c + 1 → V2 < 2 * W ∧ V2 / W ≤ 1) ∧
    (c * (c + 1) ≤ W → bred d T < d.modulus)

/-- Rule R179, its third sentence: the two conversions of a Barrett field complete, read nothing, write nothing and use no
scratch, whatever memory stands at `dst`. -/
def Obligations.BarrettConversionsAreIdentity : Prop :=
  ∀ (s : State) (f dst : Nat) (d : Descriptor),
    Binds s.cfg f (some .w256) (some .barrett) d → OpPlaced s true [mutOperand .w256 dst] → dst < s.cfg.addrLimit →
    (∃ t, exec (.toRepresentationBarrett f dst) s = .next t ∧ sameBytes s t ∧ t.ret = .none ∧ LimbFrame s t) ∧
    (∃ t, exec (.toIntegerBarrett f dst) s = .next t ∧ sameBytes s t ∧ t.ret = .none ∧ LimbFrame s t)

/-! ### Inversion -/

/-- Rule R185: `inv_mod`. -/
def Obligations.InvModResult : Prop :=
  ∀ (s : State) (f dst x : Nat) (d : Descriptor),
    Binds s.cfg f (some .w256) none d → OpLegal s true [mutOperand .w256 dst] → s.readWide .w256 dst = x →
    (x = 0 → ∃ t, exec (.invMod f dst) s = .next t ∧ Returns s t false) ∧
    (0 < x → x < d.modulus → Nat.gcd x d.modulus = 1 →
      ∃ t y, exec (.invMod f dst) s = .next t ∧ t.readWide .w256 dst = y ∧ 1 ≤ y ∧ y < d.modulus ∧
        x * y % d.modulus = 1 ∧ t.ret = .bit true ∧ sameOutside s t dst 32 ∧ OpFrame s t) ∧
    (d.modulus ≤ x ∨ (x ≠ 0 ∧ Nat.gcd x d.modulus ≠ 1) → exec (.invMod f dst) s = .refused .vRange)

/-- Rule R188: `to_integer`, `inv_mod`, `to_representation` gives the Montgomery form of the inverse: the product of the two
stored values is `R * R mod p`. -/
def Obligations.InvertInMontgomeryForm : Prop :=
  ∀ (s : State) (f dst a : Nat) (d : Descriptor),
    Binds s.cfg f (some .w256) (some .montgomery) d → OpLegal s true [mutOperand .w256 dst] →
    s.readWide .w256 dst = a → a < d.modulus → Nat.gcd a d.modulus = 1 →
    ∃ t u v, exec (.toInteger f dst) s = .next t ∧ exec (.invMod f dst) t = .next u ∧ u.ret = .bit true ∧
      exec (.toRepresentation f dst) u = .next v ∧ v.readWide .w256 dst < d.modulus ∧
      a * v.readWide .w256 dst % d.modulus = W * W % d.modulus

/-! ### The 512-bit module -/

/-- Rules R203 and R204: `add_mod512` and `sub_mod512`. -/
def Obligations.AddSubResults512 : Prop :=
  ∀ (s : State) (f dst src a b : Nat) (d : Descriptor),
    Binds s.cfg f (some .w512) none d → OpLegal s true [mutOperand .w512 dst, readOperand .w512 src] →
    s.readWide .w512 dst = a → s.readWide .w512 src = b →
    (a + b < 2 * d.modulus → ∃ t, exec (.addMod512 f dst src) s = .next t ∧
      Stores s t .w512 dst ((a + b) % d.modulus) ∧ t.readWide .w512 src = b) ∧
    (2 * d.modulus ≤ a + b → exec (.addMod512 f dst src) s = .refused .vRange) ∧
    (a < d.modulus → b < d.modulus → ∃ t, exec (.subMod512 f dst src) s = .next t ∧
      Stores s t .w512 dst ((a + d.modulus - b) % d.modulus) ∧ t.readWide .w512 src = b) ∧
    (d.modulus ≤ a ∨ d.modulus ≤ b → exec (.subMod512 f dst src) s = .refused .vRange)

/-- Rules R205 and R206: `double_mod512` and `negate_mod512`. -/
def Obligations.DoubleNegateResults512 : Prop :=
  ∀ (s : State) (f dst a : Nat) (d : Descriptor),
    Binds s.cfg f (some .w512) none d → OpLegal s true [mutOperand .w512 dst] → s.readWide .w512 dst = a →
    (a < d.modulus → ∃ t, exec (.doubleMod512 f dst) s = .next t ∧ Stores s t .w512 dst (2 * a % d.modulus)) ∧
    (d.modulus ≤ a → exec (.doubleMod512 f dst) s = .refused .vRange) ∧
    (a ≤ d.modulus → ∃ t, exec (.negateMod512 f dst) s = .next t ∧
      Stores s t .w512 dst ((d.modulus - a) % d.modulus)) ∧
    (d.modulus < a → exec (.negateMod512 f dst) s = .refused .vRange)

/-- Rules R207, R208 and R209: `lt512`, `leq512` and `eq512`. -/
def Obligations.CompareResults512 : Prop :=
  ∀ (s : State) (f a b : Nat) (d : Descriptor),
    Binds s.cfg f (some .w512) none d → OpLegal s true [readOperand .w512 a, readOperand .w512 b] →
    (∃ t, exec (.lt512 f a b) s = .next t ∧ Returns s t (decide (s.readWide .w512 a < s.readWide .w512 b))) ∧
    (∃ t, exec (.leq512 f a b) s = .next t ∧ Returns s t (decide (s.readWide .w512 a ≤ s.readWide .w512 b))) ∧
    (∃ t, exec (.eq512 f a b) s = .next t ∧ Returns s t (decide (s.readWide .w512 a = s.readWide .w512 b)))

/-- Rules R210, R211 and R212: `is_zero512`, `is_one512` and `is_zero_mod512`. -/
def Obligations.ZeroOneTestResults512 : Prop :=
  ∀ (s : State) (f a : Nat) (d : Descriptor),
    Binds s.cfg f (some .w512) none d → OpLegal s true [readOperand .w512 a] →
    (∃ t, exec (.isZero512 f a) s = .next t ∧ Returns s t (decide (s.readWide .w512 a = 0))) ∧
    (∃ t, exec (.isOne512 f a) s = .next t ∧ Returns s t (decide (s.readWide .w512 a = 1))) ∧
    (∃ t, exec (.isZeroMod512 f a) s = .next t ∧
      Returns s t (decide (s.readWide .w512 a = 0 ∨ s.readWide .w512 a = d.modulus)))

/-- Rule R220: the three facts of `MM512`; the word-serial form equals the one-step Montgomery reduction with radix `R`. -/
def Obligations.WordSerialReductionFacts : Prop :=
  ∀ (d : Descriptor) (a b : Nat),
    d.ok = true → d.width = .w512 → a < W * W → b < W * W →
    (∀ N M, N < W * W → (d.modulus * N + 1) % (W * W) = 0 → M = a * b % (W * W) * N % (W * W) →
      mm512 d a b = (a * b + M * d.modulus) / (W * W) ∧ (a * b + M * d.modulus) % (W * W) = 0) ∧
    mm512 d a b * (W * W) % d.modulus = a * b % d.modulus ∧
    mm512 d a b * (W * W) < a * b + d.modulus * (W * W) ∧
    (a * b < d.modulus * (W * W) → mm512 d a b < 2 * d.modulus) ∧
    mm512 d a b < W * W + d.modulus

/-- Rules R222 and R223: `mul_mont512` and `square_mont512`. -/
def Obligations.MulMontResults512 : Prop :=
  ∀ (s : State) (f dst a : Nat) (d : Descriptor),
    Binds s.cfg f (some .w512) (some .montgomery) d → s.readWide .w512 dst = a →
    (∀ src b, OpLegal s true [mutOperand .w512 dst, readOperand .w512 src] → s.readWide .w512 src = b →
      (a * b < d.modulus * (W * W) → ∃ t y, exec (.mulMont512 f dst src) s = .next t ∧ Stores s t .w512 dst y ∧
        t.readWide .w512 src = b ∧
        y = (if d.modulus ≤ mm512 d a b then mm512 d a b - d.modulus else mm512 d a b) ∧
        y < d.modulus ∧ y * (W * W) % d.modulus = a * b % d.modulus) ∧
      (d.modulus * (W * W) ≤ a * b → exec (.mulMont512 f dst src) s = .refused .vRange)) ∧
    (OpLegal s true [mutOperand .w512 dst] →
      (a * a < d.modulus * (W * W) → ∃ t y, exec (.squareMont512 f dst) s = .next t ∧ Stores s t .w512 dst y ∧
        y < d.modulus ∧ y * (W * W) % d.modulus = a * a % d.modulus) ∧
      (d.modulus * (W * W) ≤ a * a → exec (.squareMont512 f dst) s = .refused .vRange))

/-- Rules R225 and R226: `to_representation512` and `to_integer512`, mutual inverses on `[0, p)`. -/
def Obligations.ConversionResults512 : Prop :=
  ∀ (s : State) (f dst a : Nat) (d : Descriptor),
    Binds s.cfg f (some .w512) (some .montgomery) d → OpLegal s true [mutOperand .w512 dst] →
    s.readWide .w512 dst = a →
    (a < d.modulus → ∃ t, exec (.toRepresentation512 f dst) s = .next t ∧
      Stores s t .w512 dst (a * (W * W) % d.modulus)) ∧
    (d.modulus ≤ a → exec (.toRepresentation512 f dst) s = .refused .vRange) ∧
    (∃ t y, exec (.toInteger512 f dst) s = .next t ∧ Stores s t .w512 dst y ∧ y < d.modulus ∧
      y * (W * W) % d.modulus = a % d.modulus) ∧
    (a < d.modulus → ∃ t u, exec (.toRepresentation512 f dst) s = .next t ∧ exec (.toInteger512 f dst) t = .next u ∧
      u.readWide .w512 dst = a) ∧
    (a < d.modulus → ∃ t u, exec (.toInteger512 f dst) s = .next t ∧ exec (.toRepresentation512 f dst) t = .next u ∧
      u.readWide .w512 dst = a)

/-- Rule R214: a request for 512-bit Barrett multiplication, or for 512-bit inversion, is refused. -/
def Obligations.NoWideBarrettNorInversion : Prop :=
  ∀ (s : State) (f dst src : Nat) (d : Descriptor),
    s.cfg.fields[f]? = some d → d.ok = true → d.width = .w512 →
    exec (.mulBarret f dst src) s = .refused .wrongWidth ∧ exec (.squareBarret f dst) s = .refused .wrongWidth ∧
      exec (.invMod f dst) s = .refused .wrongWidth

/-! ### Constants, reset, invariants -/

/-- Rule R32: in every state the constants block of every field reads as its table says, and no operation changes that. -/
def Obligations.ConstantsReadAsStated : Prop :=
  ∀ (s : State) (d : Descriptor),
    s.cfg.ok = true → d ∈ s.cfg.fields →
    d.constBase % 32 = 0 ∧
    (s.readWord d.constBase).toNat = 1 ∧ (s.readWord (d.constBase + 32)).toNat = 0 ∧
    (s.readWord (d.constBase + 64)).toNat = d.modulus % W ∧ (s.readWord (d.constBase + 96)).toNat = d.modulus / W ∧
    (d.modulus * (s.readWord (d.constBase + 128)).toNat + 1) % W = 0 ∧
    ((s.readWord (d.constBase + 160)).toNat + d.modulus) % W = 0 ∧
    (s.readWord (d.constBase + 192)).toNat = d.radix * d.radix % d.modulus % W ∧
    (s.readWord (d.constBase + 224)).toNat = d.radix * d.radix % d.modulus / W ∧
    s.readWide .w512 d.constBase = 1 ∧ s.readWide .w512 (d.constBase + 64) = d.modulus ∧
    s.readWide .w512 (d.constBase + 192) = d.radix * d.radix % d.modulus ∧
    (∀ i t x, exec i s = .next t → inBlock d.constBase 256 x = true → t.readByte x = s.readByte x)

/-- After reset no operation is in progress and the constants blocks hold their values (rule R40). The queue that is empty is
the model's (log entry 6), and the fields and their blocks are those of the model's configuration (log entry 5). -/
def Obligations.ResetState : Prop :=
  State.reset.scratchBusy = false ∧ State.reset.requests = [] ∧
  ∀ d ∈ State.reset.cfg.fields, ∀ k, k < 8 →
    (State.reset.readWord (d.constBase + 32 * k)).toNat = d.constWord k

/-- The state after reset meets the invariant, and its configuration is one the model accepts. It rests on the reset values
of log entries 1, 2 and 5. -/
def Obligations.ResetMeetsInvariant : Prop := MachineInv State.reset ∧ State.reset.cfg.ok = true

/-- The invariant of the machine's states is kept by every step: memory stays canonical and holds no byte of the scratch space
or of a constants block, the registers and `pc` stay addresses, no operation stays in progress; and the configuration
never changes (rule R39). -/
def Obligations.StepKeepsInvariant : Prop :=
  ∀ s t : State, MachineInv s → step s = .next t → MachineInv t ∧ t.cfg = s.cfg

/-- No operation writes a byte outside the blocks it is said to write: the word at `REG_A` for a primitive, the operands it
overwrites, its byte string, and the scratch space if it leaves that unspecified (rules R35, R58 and R140). -/
def Obligations.WritesStayInWrittenBlocks : Prop :=
  ∀ (i : Instr) (s t : State) (x : Nat),
    exec i s = .next t → (∀ b ∈ writtenBlocks s i, inBlock b.1 b.2 x = false) →
    t.readByte x = s.readByte x ∧ t.cfg = s.cfg ∧ t.requests = s.requests

/-- An operation that completes is well formed: aligned, inside the address space, its operands apart, its descriptor of the
right width and kind. -/
def Obligations.OnlyWellFormedComplete : Prop :=
  ∀ (i : Instr) (s t : State), exec i s = .next t → i.wf s.cfg = true

/-- Rule R31: what a descriptor must meet, the constraint of rule R177 among it if it is a Barrett one; and with a descriptor
that fails no operation runs. -/
def Obligations.DescriptorChecks : Prop :=
  (∀ d : Descriptor, d.ok = true ↔
    d.modulus % 2 = 1 ∧ d.modulus.Prime ∧ (d.width = .w256 → 3 ≤ d.modulus ∧ d.modulus < 2 ^ 256) ∧
    (d.width = .w512 → 2 ^ 256 < d.modulus ∧ d.modulus < 2 ^ 511) ∧
    (d.kind = .barrett → d.width = .w256 ∧ (2 ^ 256 - d.modulus) * (2 ^ 256 - d.modulus + 1) ≤ 2 ^ 256)) ∧
  (∀ (s : State) (d : Descriptor), s.requests ≠ [] → d ∈ s.cfg.fields → d.ok = false → step s = .refused .badConfig)

/-! ### The reference sequences -/

/-- Rules R142 to R145: the sequences of primitives for the 256-bit additions carry out the operations. -/
def Obligations.SequencesCarryOutArithmetic : Prop :=
  ∀ f dst src : Nat,
    CarriesOut (refAddMod f dst src) (exec (.addMod f dst src)) ∧
    CarriesOut (refSubMod f dst src) (exec (.subMod f dst src)) ∧
    CarriesOut (refDoubleMod f dst) (exec (.doubleMod f dst)) ∧
    CarriesOut (refNegateMod f dst) (exec (.negateMod f dst))

/-- Rules R146 to R151: the sequences of primitives for the 256-bit comparisons carry out the operations. -/
def Obligations.SequencesCarryOutComparisons : Prop :=
  ∀ f a b : Nat,
    CarriesOut (refLt f a b) (exec (.lt f a b)) ∧ CarriesOut (refLeq f a b) (exec (.leq f a b)) ∧
    CarriesOut (refEq f a b) (exec (.eq f a b)) ∧ CarriesOut (refIsZero f a) (exec (.isZero f a)) ∧
    CarriesOut (refIsOne f a) (exec (.isOne f a)) ∧ CarriesOut (refIsZeroMod f a) (exec (.isZeroMod f a))

/-- Rules R161, R162, R165 and R166: the sequences of primitives for 256-bit Montgomery multiplication carry out the
operations. -/
def Obligations.SequencesCarryOutMontgomery : Prop :=
  ∀ f dst src : Nat,
    CarriesOut (refMulMont f dst src) (exec (.mulMont f dst src)) ∧
    CarriesOut (refSquareMont f dst) (exec (.squareMont f dst)) ∧
    CarriesOut (refToRepresentation f dst) (exec (.toRepresentation f dst)) ∧
    CarriesOut (refToInteger f dst) (exec (.toInteger f dst))

/-- Rules R176 and R178: the sequences of primitives for Barrett multiplication carry out the operations. -/
def Obligations.SequencesCarryOutBarrett : Prop :=
  ∀ f dst src : Nat,
    CarriesOut (refMulBarret f dst src) (exec (.mulBarret f dst src)) ∧
    CarriesOut (refSquareBarret f dst) (exec (.squareBarret f dst))

/-- Rules R203 to R212: the sequences of primitives for the 512-bit additions and comparisons carry out the operations. -/
def Obligations.SequencesCarryOutWideArithmetic : Prop :=
  ∀ f a b : Nat,
    CarriesOut (refAddMod512 f a b) (exec (.addMod512 f a b)) ∧
    CarriesOut (refSubMod512 f a b) (exec (.subMod512 f a b)) ∧
    CarriesOut (refDoubleMod512 f a) (exec (.doubleMod512 f a)) ∧
    CarriesOut (refNegateMod512 f a) (exec (.negateMod512 f a)) ∧
    CarriesOut (refLt512 f a b) (exec (.lt512 f a b)) ∧ CarriesOut (refLeq512 f a b) (exec (.leq512 f a b)) ∧
    CarriesOut (refEq512 f a b) (exec (.eq512 f a b)) ∧ CarriesOut (refIsZero512 f a) (exec (.isZero512 f a)) ∧
    CarriesOut (refIsOne512 f a) (exec (.isOne512 f a)) ∧
    CarriesOut (refIsZeroMod512 f a) (exec (.isZeroMod512 f a))

/-- Rules R221 to R226: the sequences of primitives for 512-bit Montgomery multiplication carry out the operations. -/
def Obligations.SequencesCarryOutWideMontgomery : Prop :=
  ∀ f dst src : Nat,
    CarriesOut (refMulMont512 f dst src) (exec (.mulMont512 f dst src)) ∧
    CarriesOut (refSquareMont512 f dst) (exec (.squareMont512 f dst)) ∧
    CarriesOut (refToRepresentation512 f dst) (exec (.toRepresentation512 f dst)) ∧
    CarriesOut (refToInteger512 f dst) (exec (.toInteger512 f dst))
end

