-- ==== Sys2Proof/Laws/State.lean ====
section
/-! SUPPORT. What each update of the state leaves and sets, one lemma for each field and update. -/

namespace Sys2Proof.Machine

set_option Elab.async false

variable (s : State)

/-! ### `State.setRegs` -/

@[simp] theorem State.setRegs_cfg (a b : Nat) (ctl : Ctl) : (s.setRegs a b ctl).cfg = s.cfg := rfl
@[simp] theorem State.setRegs_regA (a b : Nat) (ctl : Ctl) : (s.setRegs a b ctl).regA = s.cfg.truncAddr a := rfl
@[simp] theorem State.setRegs_regB (a b : Nat) (ctl : Ctl) : (s.setRegs a b ctl).regB = s.cfg.truncAddr b := rfl
@[simp] theorem State.setRegs_regCtl (a b : Nat) (ctl : Ctl) : (s.setRegs a b ctl).regCtl = ctl := rfl
@[simp] theorem State.setRegs_pc (a b : Nat) (ctl : Ctl) : (s.setRegs a b ctl).pc = s.pc := rfl
@[simp] theorem State.setRegs_mem (a b : Nat) (ctl : Ctl) : (s.setRegs a b ctl).mem = s.mem := rfl
@[simp] theorem State.setRegs_scratch (a b : Nat) (ctl : Ctl) : (s.setRegs a b ctl).scratch = s.scratch := rfl
@[simp] theorem State.setRegs_scratchBusy (a b : Nat) (ctl : Ctl) : (s.setRegs a b ctl).scratchBusy = s.scratchBusy := rfl
@[simp] theorem State.setRegs_ret (a b : Nat) (ctl : Ctl) : (s.setRegs a b ctl).ret = s.ret := rfl
@[simp] theorem State.setRegs_requests (a b : Nat) (ctl : Ctl) : (s.setRegs a b ctl).requests = s.requests := rfl
@[simp] theorem State.setRegs_tick (a b : Nat) (ctl : Ctl) : (s.setRegs a b ctl).tick = s.tick := rfl

/-! ### `State.completeCall` -/

@[simp] theorem State.completeCall_cfg (flag : Bool) : (s.completeCall flag).cfg = s.cfg := rfl
@[simp] theorem State.completeCall_regA (flag : Bool) : (s.completeCall flag).regA = s.regA := rfl
@[simp] theorem State.completeCall_regB (flag : Bool) : (s.completeCall flag).regB = s.regB := rfl
@[simp] theorem State.completeCall_regCtl (flag : Bool) : (s.completeCall flag).regCtl = (BitVec.ofBool flag).setWidth 32 := rfl
@[simp] theorem State.completeCall_pc (flag : Bool) : (s.completeCall flag).pc = s.nextPc := rfl
@[simp] theorem State.completeCall_mem (flag : Bool) : (s.completeCall flag).mem = s.mem := rfl
@[simp] theorem State.completeCall_scratch (flag : Bool) : (s.completeCall flag).scratch = s.scratch := rfl
@[simp] theorem State.completeCall_scratchBusy (flag : Bool) : (s.completeCall flag).scratchBusy = s.scratchBusy := rfl
@[simp] theorem State.completeCall_ret (flag : Bool) : (s.completeCall flag).ret = .none := rfl
@[simp] theorem State.completeCall_requests (flag : Bool) : (s.completeCall flag).requests = s.requests := rfl
@[simp] theorem State.completeCall_tick (flag : Bool) : (s.completeCall flag).tick = s.tick + 1 := rfl

/-! ### `State.freeScratch` -/

@[simp] theorem State.freeScratch_cfg : s.freeScratch.cfg = s.cfg := rfl
@[simp] theorem State.freeScratch_regA : s.freeScratch.regA = s.regA := rfl
@[simp] theorem State.freeScratch_regB : s.freeScratch.regB = s.regB := rfl
@[simp] theorem State.freeScratch_regCtl : s.freeScratch.regCtl = s.regCtl := rfl
@[simp] theorem State.freeScratch_pc : s.freeScratch.pc = s.pc := rfl
@[simp] theorem State.freeScratch_mem : s.freeScratch.mem = s.mem := rfl
@[simp] theorem State.freeScratch_scratch : s.freeScratch.scratch = unspecifiedScratch s.tick := rfl
@[simp] theorem State.freeScratch_scratchBusy : s.freeScratch.scratchBusy = s.scratchBusy := rfl
@[simp] theorem State.freeScratch_ret : s.freeScratch.ret = s.ret := rfl
@[simp] theorem State.freeScratch_requests : s.freeScratch.requests = s.requests := rfl
@[simp] theorem State.freeScratch_tick : s.freeScratch.tick = s.tick := rfl

/-! ### `State.beginOp` -/

@[simp] theorem State.beginOp_cfg : s.beginOp.cfg = s.cfg := rfl
@[simp] theorem State.beginOp_regA : s.beginOp.regA = s.regA := rfl
@[simp] theorem State.beginOp_regB : s.beginOp.regB = s.regB := rfl
@[simp] theorem State.beginOp_regCtl : s.beginOp.regCtl = s.regCtl := rfl
@[simp] theorem State.beginOp_pc : s.beginOp.pc = s.pc := rfl
@[simp] theorem State.beginOp_mem : s.beginOp.mem = s.mem := rfl
@[simp] theorem State.beginOp_scratch : s.beginOp.scratch = s.scratch := rfl
@[simp] theorem State.beginOp_scratchBusy : s.beginOp.scratchBusy = true := rfl
@[simp] theorem State.beginOp_ret : s.beginOp.ret = s.ret := rfl
@[simp] theorem State.beginOp_requests : s.beginOp.requests = s.requests := rfl
@[simp] theorem State.beginOp_tick : s.beginOp.tick = s.tick := rfl

/-! ### `State.completeOp` -/

@[simp] theorem State.completeOp_cfg (r : Ret) : (s.completeOp r).cfg = s.cfg := rfl
@[simp] theorem State.completeOp_regA (r : Ret) : (s.completeOp r).regA = s.cfg.truncAddr (Config.freeRegA s.tick) := rfl
@[simp] theorem State.completeOp_regB (r : Ret) : (s.completeOp r).regB = s.cfg.truncAddr (Config.freeRegB s.tick) := rfl
@[simp] theorem State.completeOp_regCtl (r : Ret) : (s.completeOp r).regCtl = Config.freeRegCtl s.tick := rfl
@[simp] theorem State.completeOp_pc (r : Ret) : (s.completeOp r).pc = s.cfg.truncAddr (Config.freePc s.tick) := rfl
@[simp] theorem State.completeOp_mem (r : Ret) : (s.completeOp r).mem = s.mem := rfl
@[simp] theorem State.completeOp_scratch (r : Ret) : (s.completeOp r).scratch = unspecifiedScratch s.tick := rfl
@[simp] theorem State.completeOp_scratchBusy (r : Ret) : (s.completeOp r).scratchBusy = false := rfl
@[simp] theorem State.completeOp_ret (r : Ret) : (s.completeOp r).ret = r := rfl
@[simp] theorem State.completeOp_requests (r : Ret) : (s.completeOp r).requests = s.requests := rfl
@[simp] theorem State.completeOp_tick (r : Ret) : (s.completeOp r).tick = s.tick + 1 := rfl

/-! ### `State.completeLimbOp` -/

@[simp] theorem State.completeLimbOp_cfg (r : Ret) : (s.completeLimbOp r).cfg = s.cfg := rfl
@[simp] theorem State.completeLimbOp_regA (r : Ret) : (s.completeLimbOp r).regA = s.regA := rfl
@[simp] theorem State.completeLimbOp_regB (r : Ret) : (s.completeLimbOp r).regB = s.regB := rfl
@[simp] theorem State.completeLimbOp_regCtl (r : Ret) : (s.completeLimbOp r).regCtl = s.regCtl := rfl
@[simp] theorem State.completeLimbOp_pc (r : Ret) : (s.completeLimbOp r).pc = s.pc := rfl
@[simp] theorem State.completeLimbOp_mem (r : Ret) : (s.completeLimbOp r).mem = s.mem := rfl
@[simp] theorem State.completeLimbOp_scratch (r : Ret) : (s.completeLimbOp r).scratch = unspecifiedScratch s.tick := rfl
@[simp] theorem State.completeLimbOp_scratchBusy (r : Ret) : (s.completeLimbOp r).scratchBusy = s.scratchBusy := rfl
@[simp] theorem State.completeLimbOp_ret (r : Ret) : (s.completeLimbOp r).ret = r := rfl
@[simp] theorem State.completeLimbOp_requests (r : Ret) : (s.completeLimbOp r).requests = s.requests := rfl
@[simp] theorem State.completeLimbOp_tick (r : Ret) : (s.completeLimbOp r).tick = s.tick + 1 := rfl

/-! ### `State.completeReadOnly` -/

@[simp] theorem State.completeReadOnly_cfg (r : Ret) : (s.completeReadOnly r).cfg = s.cfg := rfl
@[simp] theorem State.completeReadOnly_regA (r : Ret) : (s.completeReadOnly r).regA = s.regA := rfl
@[simp] theorem State.completeReadOnly_regB (r : Ret) : (s.completeReadOnly r).regB = s.regB := rfl
@[simp] theorem State.completeReadOnly_regCtl (r : Ret) : (s.completeReadOnly r).regCtl = s.regCtl := rfl
@[simp] theorem State.completeReadOnly_pc (r : Ret) : (s.completeReadOnly r).pc = s.pc := rfl
@[simp] theorem State.completeReadOnly_mem (r : Ret) : (s.completeReadOnly r).mem = s.mem := rfl
@[simp] theorem State.completeReadOnly_scratch (r : Ret) : (s.completeReadOnly r).scratch = s.scratch := rfl
@[simp] theorem State.completeReadOnly_scratchBusy (r : Ret) : (s.completeReadOnly r).scratchBusy = s.scratchBusy := rfl
@[simp] theorem State.completeReadOnly_ret (r : Ret) : (s.completeReadOnly r).ret = r := rfl
@[simp] theorem State.completeReadOnly_requests (r : Ret) : (s.completeReadOnly r).requests = s.requests := rfl
@[simp] theorem State.completeReadOnly_tick (r : Ret) : (s.completeReadOnly r).tick = s.tick + 1 := rfl

/-! ### `State.returnValue` -/

@[simp] theorem State.returnValue_cfg (v : Nat) : (s.returnValue v).cfg = s.cfg := rfl
@[simp] theorem State.returnValue_regA (v : Nat) : (s.returnValue v).regA = s.regA := rfl
@[simp] theorem State.returnValue_regB (v : Nat) : (s.returnValue v).regB = s.regB := rfl
@[simp] theorem State.returnValue_regCtl (v : Nat) : (s.returnValue v).regCtl = s.regCtl := rfl
@[simp] theorem State.returnValue_pc (v : Nat) : (s.returnValue v).pc = s.pc := rfl
@[simp] theorem State.returnValue_mem (v : Nat) : (s.returnValue v).mem = s.mem := rfl
@[simp] theorem State.returnValue_scratch (v : Nat) : (s.returnValue v).scratch = s.scratch := rfl
@[simp] theorem State.returnValue_scratchBusy (v : Nat) : (s.returnValue v).scratchBusy = s.scratchBusy := rfl
@[simp] theorem State.returnValue_ret (v : Nat) : (s.returnValue v).ret = .value v := rfl
@[simp] theorem State.returnValue_requests (v : Nat) : (s.returnValue v).requests = s.requests := rfl
@[simp] theorem State.returnValue_tick (v : Nat) : (s.returnValue v).tick = s.tick := rfl

/-! ### `State.popRequest` -/

@[simp] theorem State.popRequest_cfg : s.popRequest.cfg = s.cfg := rfl
@[simp] theorem State.popRequest_regA : s.popRequest.regA = s.regA := rfl
@[simp] theorem State.popRequest_regB : s.popRequest.regB = s.regB := rfl
@[simp] theorem State.popRequest_regCtl : s.popRequest.regCtl = s.regCtl := rfl
@[simp] theorem State.popRequest_pc : s.popRequest.pc = s.pc := rfl
@[simp] theorem State.popRequest_mem : s.popRequest.mem = s.mem := rfl
@[simp] theorem State.popRequest_scratch : s.popRequest.scratch = s.scratch := rfl
@[simp] theorem State.popRequest_scratchBusy : s.popRequest.scratchBusy = s.scratchBusy := rfl
@[simp] theorem State.popRequest_ret : s.popRequest.ret = s.ret := rfl
@[simp] theorem State.popRequest_requests : s.popRequest.requests = s.requests.tail := rfl
@[simp] theorem State.popRequest_tick : s.popRequest.tick = s.tick := rfl

/-! ### Writes to memory change only `mem` and `scratch` -/

@[simp] theorem State.writeByte_cfg (x : Nat) (b : Byte) : (s.writeByte x b).cfg = s.cfg := by
  unfold State.writeByte; split <;> rfl
@[simp] theorem State.writeByte_regA (x : Nat) (b : Byte) : (s.writeByte x b).regA = s.regA := by
  unfold State.writeByte; split <;> rfl
@[simp] theorem State.writeByte_regB (x : Nat) (b : Byte) : (s.writeByte x b).regB = s.regB := by
  unfold State.writeByte; split <;> rfl
@[simp] theorem State.writeByte_regCtl (x : Nat) (b : Byte) : (s.writeByte x b).regCtl = s.regCtl := by
  unfold State.writeByte; split <;> rfl
@[simp] theorem State.writeByte_pc (x : Nat) (b : Byte) : (s.writeByte x b).pc = s.pc := by
  unfold State.writeByte; split <;> rfl
@[simp] theorem State.writeByte_scratchBusy (x : Nat) (b : Byte) : (s.writeByte x b).scratchBusy = s.scratchBusy := by
  unfold State.writeByte; split <;> rfl
@[simp] theorem State.writeByte_ret (x : Nat) (b : Byte) : (s.writeByte x b).ret = s.ret := by
  unfold State.writeByte; split <;> rfl
@[simp] theorem State.writeByte_requests (x : Nat) (b : Byte) : (s.writeByte x b).requests = s.requests := by
  unfold State.writeByte; split <;> rfl
@[simp] theorem State.writeByte_tick (x : Nat) (b : Byte) : (s.writeByte x b).tick = s.tick := by
  unfold State.writeByte; split <;> rfl
@[simp] theorem State.writeBytes_cfg (a : Nat) (bs : List Byte) : (s.writeBytes a bs).cfg = s.cfg := by
  induction bs generalizing s a with
  | nil => rfl
  | cons b bs ih => simp [State.writeBytes, ih]
@[simp] theorem State.writeBytes_regA (a : Nat) (bs : List Byte) : (s.writeBytes a bs).regA = s.regA := by
  induction bs generalizing s a with
  | nil => rfl
  | cons b bs ih => simp [State.writeBytes, ih]
@[simp] theorem State.writeBytes_regB (a : Nat) (bs : List Byte) : (s.writeBytes a bs).regB = s.regB := by
  induction bs generalizing s a with
  | nil => rfl
  | cons b bs ih => simp [State.writeBytes, ih]
@[simp] theorem State.writeBytes_regCtl (a : Nat) (bs : List Byte) : (s.writeBytes a bs).regCtl = s.regCtl := by
  induction bs generalizing s a with
  | nil => rfl
  | cons b bs ih => simp [State.writeBytes, ih]
@[simp] theorem State.writeBytes_pc (a : Nat) (bs : List Byte) : (s.writeBytes a bs).pc = s.pc := by
  induction bs generalizing s a with
  | nil => rfl
  | cons b bs ih => simp [State.writeBytes, ih]
@[simp] theorem State.writeBytes_scratchBusy (a : Nat) (bs : List Byte) : (s.writeBytes a bs).scratchBusy = s.scratchBusy := by
  induction bs generalizing s a with
  | nil => rfl
  | cons b bs ih => simp [State.writeBytes, ih]
@[simp] theorem State.writeBytes_ret (a : Nat) (bs : List Byte) : (s.writeBytes a bs).ret = s.ret := by
  induction bs generalizing s a with
  | nil => rfl
  | cons b bs ih => simp [State.writeBytes, ih]
@[simp] theorem State.writeBytes_requests (a : Nat) (bs : List Byte) : (s.writeBytes a bs).requests = s.requests := by
  induction bs generalizing s a with
  | nil => rfl
  | cons b bs ih => simp [State.writeBytes, ih]
@[simp] theorem State.writeBytes_tick (a : Nat) (bs : List Byte) : (s.writeBytes a bs).tick = s.tick := by
  induction bs generalizing s a with
  | nil => rfl
  | cons b bs ih => simp [State.writeBytes, ih]
@[simp] theorem State.memWrite_cfg (a n v : Nat) : (s.memWrite a n v).cfg = s.cfg :=
  State.writeBytes_cfg s a (leBytes n v)
@[simp] theorem State.memWrite_regA (a n v : Nat) : (s.memWrite a n v).regA = s.regA :=
  State.writeBytes_regA s a (leBytes n v)
@[simp] theorem State.memWrite_regB (a n v : Nat) : (s.memWrite a n v).regB = s.regB :=
  State.writeBytes_regB s a (leBytes n v)
@[simp] theorem State.memWrite_regCtl (a n v : Nat) : (s.memWrite a n v).regCtl = s.regCtl :=
  State.writeBytes_regCtl s a (leBytes n v)
@[simp] theorem State.memWrite_pc (a n v : Nat) : (s.memWrite a n v).pc = s.pc :=
  State.writeBytes_pc s a (leBytes n v)
@[simp] theorem State.memWrite_scratchBusy (a n v : Nat) : (s.memWrite a n v).scratchBusy = s.scratchBusy :=
  State.writeBytes_scratchBusy s a (leBytes n v)
@[simp] theorem State.memWrite_ret (a n v : Nat) : (s.memWrite a n v).ret = s.ret :=
  State.writeBytes_ret s a (leBytes n v)
@[simp] theorem State.memWrite_requests (a n v : Nat) : (s.memWrite a n v).requests = s.requests :=
  State.writeBytes_requests s a (leBytes n v)
@[simp] theorem State.memWrite_tick (a n v : Nat) : (s.memWrite a n v).tick = s.tick :=
  State.writeBytes_tick s a (leBytes n v)
@[simp] theorem State.writeWord_cfg (a : Nat) (w : Word) : (s.writeWord a w).cfg = s.cfg :=
  State.memWrite_cfg s a 32 w.toNat
@[simp] theorem State.writeWord_regA (a : Nat) (w : Word) : (s.writeWord a w).regA = s.regA :=
  State.memWrite_regA s a 32 w.toNat
@[simp] theorem State.writeWord_regB (a : Nat) (w : Word) : (s.writeWord a w).regB = s.regB :=
  State.memWrite_regB s a 32 w.toNat
@[simp] theorem State.writeWord_regCtl (a : Nat) (w : Word) : (s.writeWord a w).regCtl = s.regCtl :=
  State.memWrite_regCtl s a 32 w.toNat
@[simp] theorem State.writeWord_pc (a : Nat) (w : Word) : (s.writeWord a w).pc = s.pc :=
  State.memWrite_pc s a 32 w.toNat
@[simp] theorem State.writeWord_scratchBusy (a : Nat) (w : Word) : (s.writeWord a w).scratchBusy = s.scratchBusy :=
  State.memWrite_scratchBusy s a 32 w.toNat
@[simp] theorem State.writeWord_ret (a : Nat) (w : Word) : (s.writeWord a w).ret = s.ret :=
  State.memWrite_ret s a 32 w.toNat
@[simp] theorem State.writeWord_requests (a : Nat) (w : Word) : (s.writeWord a w).requests = s.requests :=
  State.memWrite_requests s a 32 w.toNat
@[simp] theorem State.writeWord_tick (a : Nat) (w : Word) : (s.writeWord a w).tick = s.tick :=
  State.memWrite_tick s a 32 w.toNat
@[simp] theorem State.writeWide_cfg (n : Width) (a v : Nat) : (s.writeWide n a v).cfg = s.cfg := by
  cases n <;> simp [State.writeWide]
@[simp] theorem State.writeWide_regA (n : Width) (a v : Nat) : (s.writeWide n a v).regA = s.regA := by
  cases n <;> simp [State.writeWide]
@[simp] theorem State.writeWide_regB (n : Width) (a v : Nat) : (s.writeWide n a v).regB = s.regB := by
  cases n <;> simp [State.writeWide]
@[simp] theorem State.writeWide_regCtl (n : Width) (a v : Nat) : (s.writeWide n a v).regCtl = s.regCtl := by
  cases n <;> simp [State.writeWide]
@[simp] theorem State.writeWide_pc (n : Width) (a v : Nat) : (s.writeWide n a v).pc = s.pc := by
  cases n <;> simp [State.writeWide]
@[simp] theorem State.writeWide_scratchBusy (n : Width) (a v : Nat) : (s.writeWide n a v).scratchBusy = s.scratchBusy := by
  cases n <;> simp [State.writeWide]
@[simp] theorem State.writeWide_ret (n : Width) (a v : Nat) : (s.writeWide n a v).ret = s.ret := by
  cases n <;> simp [State.writeWide]
@[simp] theorem State.writeWide_requests (n : Width) (a v : Nat) : (s.writeWide n a v).requests = s.requests := by
  cases n <;> simp [State.writeWide]
@[simp] theorem State.writeWide_tick (n : Width) (a v : Nat) : (s.writeWide n a v).tick = s.tick := by
  cases n <;> simp [State.writeWide]

/-! ### The configuration at reset -/

/-- The literals of the seven fields build the configuration at reset (spec/41_wide_value_ops.md rule R130). -/
theorem build_standard : standardPlatform.build standardSources = some Config.standard := by decide +kernel

/-- Its moduli are those of spec/10_state.md rule R33. -/
theorem standard_moduli : Config.standard.fields.map Descriptor.modulus = fieldPrimes := by decide +kernel

end Sys2Proof.Machine
end

