-- ==== Sys2Proof/Laws/Memory.lean ====
section
/-! SUPPORT. Memory: a read after a write, the frame of a write, the canonical form, and the byte orders. -/

namespace Sys2Proof.Machine

set_option Elab.async false

/-! ### The list of cells -/

theorem Memory.get_append (m₁ m₂ : Memory) (x : Nat) (h : ∀ c ∈ m₁, c.1 ≠ x) :
    Memory.get (m₁ ++ m₂) x = Memory.get m₂ x := by
  induction m₁ with
  | nil => rfl
  | cons c m₁ ih => simp_all [Memory.get]

theorem Memory.get_filter (p : Nat → Bool) (m : Memory) (x : Nat) (hx : p x = true) :
    Memory.get (m.filter (fun c => p c.1)) x = Memory.get m x := by
  induction m with
  | nil => rfl
  | cons c m ih =>
    by_cases hc : c.1 = x
    · subst hc; simp [hx, Memory.get]
    · by_cases hp : p c.1 = true <;> simp [hp, Memory.get, hc, ih]

theorem Memory.get_append_of_mem (m₁ m₂ : Memory) (x : Nat) (h : ∀ c ∈ m₂, c.1 ≠ x) :
    Memory.get (m₁ ++ m₂) x = Memory.get m₁ x := by
  induction m₁ with
  | nil =>
    have := Memory.get_append m₂ [] x h
    simpa [Memory.get] using this
  | cons c m₁ ih => simp [Memory.get, ih]

/-- A read after a write to the same address gives the byte written. -/
@[simp] theorem Memory.get_set_same (m : Memory) (x : Nat) (b : Byte) : Memory.get (Memory.set m x b) x = b := by
  unfold Memory.set
  rw [Memory.get_append_of_mem _ _ _ (by simp; omega), Memory.get_append _ _ _ (by simp; omega)]
  split
  · next hb => simp [hb, Memory.get]
  · simp [Memory.get]

/-- A write leaves every other address alone. -/
theorem Memory.get_set_ne (m : Memory) {x y : Nat} (b : Byte) (h : y ≠ x) :
    Memory.get (Memory.set m x b) y = Memory.get m y := by
  have hmid : ∀ c ∈ (if b = 0 then ([] : Memory) else [(x, b)]), c.1 ≠ y := by
    intro c hc; split at hc <;> simp at hc; subst hc; exact fun e => h e.symm
  unfold Memory.set
  rcases Nat.lt_or_gt_of_ne h with hlt | hgt
  · rw [Memory.get_append_of_mem _ _ _ (by simp; omega), Memory.get_append_of_mem _ _ _ hmid]
    exact Memory.get_filter (fun a => decide (a < x)) m y (by simpa using hlt)
  · rw [List.append_assoc, Memory.get_append _ _ _ (by simp; omega), Memory.get_append _ _ _ hmid]
    exact Memory.get_filter (fun a => decide (x < a)) m y (by simpa using hgt)

theorem Memory.wf_iff (m : Memory) :
    Memory.wf m = true ↔ m.Pairwise (fun c c' => c.1 < c'.1) ∧ ∀ c ∈ m, c.2 ≠ 0 := by
  induction m with
  | nil => simp [Memory.wf]
  | cons c m ih => simp [Memory.wf, ih]; tauto

/-- A write keeps the canonical form. -/
theorem Memory.wf_set (m : Memory) (x : Nat) (b : Byte) (h : Memory.wf m = true) :
    Memory.wf (Memory.set m x b) = true := by
  obtain ⟨hp, hz⟩ := (Memory.wf_iff m).1 h
  rw [Memory.wf_iff]
  unfold Memory.set
  constructor
  · rw [List.pairwise_append, List.pairwise_append]
    refine ⟨⟨hp.filter _, by split <;> simp, ?_⟩, hp.filter _, ?_⟩
    · intro c hc c' hc'; split at hc' <;> simp_all
    · intro c hc c' hc'
      simp only [List.mem_append, List.mem_filter, decide_eq_true_eq] at hc hc'
      rcases hc with hc | hc
      · omega
      · split at hc <;> simp_all
  · intro c hc
    simp only [List.mem_append, List.mem_filter] at hc
    rcases hc with (hc | hc) | hc
    · exact hz c hc.1
    · split at hc <;> simp_all
    · exact hz c hc.1

/-- The addresses a write lists: those listed before, and its own. -/
theorem Memory.mem_set (m : Memory) (x : Nat) (b : Byte) (c : Host.Cell) (h : c ∈ Memory.set m x b) :
    c ∈ m ∨ c.1 = x := by
  unfold Memory.set at h
  simp only [List.mem_append, List.mem_filter] at h
  rcases h with (h | h) | h
  · exact .inl h.1
  · split at h <;> simp_all
  · exact .inl h.1

/-! ### The one address space -/

theorem inBlock_iff (base n x : Nat) : inBlock base n x = true ↔ base ≤ x ∧ x < base + n := by
  simp [inBlock]

theorem Config.inScratch_iff (c : Config) (x : Nat) :
    c.inScratch x = true ↔ c.scratchBase ≤ x ∧ x < c.scratchBase + 384 := inBlock_iff _ _ _

/-- Whether no constants block holds the address `x`: what a write may change. -/
abbrev Config.free (c : Config) (x : Nat) : Prop := c.constByte? x = none

@[simp] theorem State.readByte_writeByte_same (s : State) (x : Nat) (b : Byte) (h : Config.free s.cfg x) :
    (s.writeByte x b).readByte x = b := by
  unfold State.readByte State.writeByte
  by_cases hs : s.cfg.inScratch x = true
  · have hx : x - s.cfg.scratchBase < 384 := by
      have := (Config.inScratch_iff _ _).1 hs
      omega
    simp [hs, h, hx]
  · simp [hs, h]

theorem State.readByte_writeByte_ne (s : State) {x y : Nat} (b : Byte) (h : y ≠ x) :
    (s.writeByte x b).readByte y = s.readByte y := by
  unfold State.readByte State.writeByte
  by_cases hs : s.cfg.inScratch x = true
  · simp only [hs, if_true]
    split
    · rfl
    · by_cases hy : s.cfg.inScratch y = true
      · have : x - s.cfg.scratchBase ≠ y - s.cfg.scratchBase := by
          have := (Config.inScratch_iff _ _).1 hs
          have := (Config.inScratch_iff _ _).1 hy
          omega
        simp [hy, this]
      · simp [hy]
  · simp [hs, Memory.get_set_ne _ _ h]

/-- The frame of a byte-string write: every address outside it reads as before. -/
theorem State.readByte_writeBytes_outside (s : State) (a : Nat) (bs : List Byte) (y : Nat)
    (h : y < a ∨ a + bs.length ≤ y) : (s.writeBytes a bs).readByte y = s.readByte y := by
  induction bs generalizing s a with
  | nil => rfl
  | cons b bs ih =>
    simp only [List.length_cons] at h
    rw [State.writeBytes, ih _ _ (by omega), State.readByte_writeByte_ne _ _ (by omega)]

theorem State.readByte_writeBytes_inside (s : State) (a : Nat) (bs : List Byte) (i : Nat) (hi : i < bs.length)
    (hf : ∀ j < bs.length, Config.free s.cfg (a + j)) : (s.writeBytes a bs).readByte (a + i) = bs[i] := by
  induction bs generalizing s a i with
  | nil => simp at hi
  | cons b bs ih =>
    rw [State.writeBytes]
    cases i with
    | zero =>
      rw [State.readByte_writeBytes_outside _ _ _ _ (by omega)]
      exact State.readByte_writeByte_same s a b (hf 0 (by simp))
    | succ i =>
      have hf' : ∀ j < bs.length, Config.free (s.writeByte a b).cfg (a + 1 + j) := by
        intro j hj
        have := hf (j + 1) (by simpa using hj)
        simpa [Nat.add_assoc, Nat.add_comm 1 j] using this
      have := ih (s.writeByte a b) (a + 1) i (by simpa using hi) hf'
      simpa [Nat.add_assoc, Nat.add_comm 1 i] using this

@[simp] theorem State.length_readBytes (s : State) (a n : Nat) : (s.readBytes a n).length = n := by
  induction n generalizing a with
  | zero => rfl
  | succ n ih => simp [State.readBytes, ih]

theorem State.getElem_readBytes (s : State) (a n i : Nat) (h : i < (s.readBytes a n).length) :
    (s.readBytes a n)[i] = s.readByte (a + i) := by
  induction n generalizing a i with
  | zero => simp at h
  | succ n ih =>
    cases i with
    | zero => rfl
    | succ i =>
      simp only [State.readBytes, List.getElem_cons_succ]
      rw [ih, Nat.add_assoc, Nat.add_comm 1 i]

/-- Two states that agree on every byte of a block read the same string there. -/
theorem State.readBytes_congr {s t : State} {a n : Nat} (h : ∀ i < n, s.readByte (a + i) = t.readByte (a + i)) :
    s.readBytes a n = t.readBytes a n := by
  apply List.ext_getElem (by simp)
  intro i h₁ h₂
  rw [State.getElem_readBytes, State.getElem_readBytes]
  exact h i (by simpa using h₁)

/-- A read of a byte string after it was written. -/
theorem State.readBytes_writeBytes_same (s : State) (a : Nat) (bs : List Byte)
    (hf : ∀ j < bs.length, Config.free s.cfg (a + j)) : (s.writeBytes a bs).readBytes a bs.length = bs := by
  apply List.ext_getElem (by simp)
  intro i h₁ h₂
  rw [State.getElem_readBytes, State.readByte_writeBytes_inside s a bs i h₂ hf]

/-! ### Byte orders -/

@[simp] theorem length_leBytes (n v : Nat) : (leBytes n v).length = n := by
  induction n generalizing v with
  | zero => rfl
  | succ n ih => simp [leBytes, ih]

@[simp] theorem length_beBytes (n v : Nat) : (beBytes n v).length = n := by simp [beBytes]

theorem leValue_lt (bs : List Byte) : leValue bs < 256 ^ bs.length := by
  induction bs with
  | nil => simp [leValue]
  | cons b bs ih =>
    have := b.isLt
    simp only [leValue, List.length_cons, Nat.pow_succ]
    omega

theorem leValue_leBytes (n v : Nat) : leValue (leBytes n v) = v % 256 ^ n := by
  induction n generalizing v with
  | zero => simp [leBytes, leValue, Nat.mod_one]
  | succ n ih =>
    rw [Nat.pow_succ, Nat.mul_comm (256 ^ n) 256, Nat.mod_mul]
    simp [leBytes, leValue, ih]

theorem leBytes_leValue (bs : List Byte) : leBytes bs.length (leValue bs) = bs := by
  induction bs with
  | nil => rfl
  | cons b bs ih =>
    have hb := b.isLt
    simp only [List.length_cons, leBytes, leValue]
    have h1 : (b.toNat + 256 * leValue bs) / 256 = leValue bs := by omega
    rw [h1, ih]
    congr 1
    apply BitVec.eq_of_toNat_eq
    simp only [BitVec.toNat_ofNat]; omega

/-- Decoding undoes encoding (spec/41_wide_value_ops.md rule R126). -/
theorem beValue_beBytes (n v : Nat) : beValue (beBytes n v) = v % 256 ^ n := by
  simp [beValue, beBytes, leValue_leBytes]

/-- Encoding undoes decoding (spec/41_wide_value_ops.md rule R126). -/
theorem beBytes_beValue (bs : List Byte) : beBytes bs.length (beValue bs) = bs := by
  have := leBytes_leValue bs.reverse
  simp only [List.length_reverse] at this
  simp [beBytes, beValue, this]

/-! ### Words and 512-bit values -/

/-- The `n` bytes from `a` lie outside every constants block. -/
def Config.freeBlock (c : Config) (a n : Nat) : Prop := ∀ j < n, Config.free c (a + j)

theorem State.memRead_lt (s : State) (a n : Nat) : s.memRead a n < 256 ^ n := by
  have := leValue_lt (s.readBytes a n)
  simpa [State.memRead] using this

theorem State.memRead_memWrite_same (s : State) (a n v : Nat) (h : Config.freeBlock s.cfg a n) :
    (s.memWrite a n v).memRead a n = v % 256 ^ n := by
  have := State.readBytes_writeBytes_same s a (leBytes n v) (by simpa [Config.freeBlock] using h)
  rw [length_leBytes] at this
  rw [State.memRead, State.memWrite, this, leValue_leBytes]

@[simp] theorem State.readWord_writeWord_same (s : State) (a : Nat) (w : Word) (h : Config.freeBlock s.cfg a 32) :
    (s.writeWord a w).readWord a = w := by
  rw [State.readWord, State.writeWord, State.memRead_memWrite_same _ _ _ _ h]
  apply BitVec.eq_of_toNat_eq
  have := w.isLt
  simp only [BitVec.toNat_ofNat]
  rw [Nat.mod_mod_of_dvd _ (by norm_num), Nat.mod_eq_of_lt this]

theorem State.readByte_writeWord_outside (s : State) (a : Nat) (w : Word) (y : Nat) (h : y < a ∨ a + 32 ≤ y) :
    (s.writeWord a w).readByte y = s.readByte y :=
  State.readByte_writeBytes_outside s a _ y (by simpa using h)

theorem State.readByte_writeWide_outside (s : State) (n : Width) (a v : Nat) (y : Nat) (h : y < a ∨ a + n.bytes ≤ y) :
    (s.writeWide n a v).readByte y = s.readByte y := by
  cases n <;> simp only [Width.bytes] at h <;> simp only [State.writeWide]
  · exact State.readByte_writeWord_outside _ _ _ _ h
  · rw [State.readByte_writeWord_outside _ _ _ _ (by omega), State.readByte_writeWord_outside _ _ _ _ (by omega)]

theorem State.readWord_congr {s t : State} {a : Nat} (h : ∀ i < 32, s.readByte (a + i) = t.readByte (a + i)) :
    s.readWord a = t.readWord a := by
  rw [State.readWord, State.readWord, State.memRead, State.memRead, State.readBytes_congr h]

/-- Two states that agree on every byte of a value read the same value there. -/
theorem State.readWide_congr {s t : State} {n : Width} {a : Nat}
    (h : ∀ i < n.bytes, s.readByte (a + i) = t.readByte (a + i)) : s.readWide n a = t.readWide n a := by
  cases n <;> simp only [Width.bytes] at h <;> simp only [State.readWide]
  · rw [State.readWord_congr h]
  · rw [State.readWord_congr (t := t) (fun i hi => h i (by omega)),
      State.readWord_congr (a := a + 32) (t := t) (fun i hi => by rw [Nat.add_assoc]; exact h (32 + i) (by omega))]

theorem State.readWide_lt (s : State) (n : Width) (a : Nat) : s.readWide n a < 2 ^ n.bits := by
  cases n <;> simp only [State.readWide, Width.bits]
  · exact (s.readWord a).isLt
  · have h₁ := (s.readWord a).isLt
    have h₂ := (s.readWord (a + 32)).isLt
    simp only [W]
    omega

/-- A read of a `Wide<N>` after it was written. -/
theorem State.readWide_writeWide_same (s : State) (n : Width) (a v : Nat) (h : Config.freeBlock s.cfg a n.bytes)
    (hv : v < 2 ^ n.bits) : (s.writeWide n a v).readWide n a = v := by
  cases n <;> simp only [State.readWide, State.writeWide, Width.bytes, Width.bits] at *
  · rw [State.readWord_writeWord_same _ _ _ h, BitVec.toNat_ofNat, Nat.mod_eq_of_lt hv]
  · have hlo : Config.freeBlock s.cfg a 32 := fun j hj => h j (by omega)
    have hhi : Config.freeBlock (s.writeWord a (BitVec.ofNat 256 v)).cfg (a + 32) 32 := by
      intro j hj; rw [Nat.add_assoc, State.writeWord_cfg]; exact h (32 + j) (by omega)
    rw [State.readWord_writeWord_same _ _ _ hhi,
      State.readWord_congr (a := a) (t := s.writeWord a (BitVec.ofNat 256 v))
        (fun i hi => State.readByte_writeWord_outside _ _ _ _ (by omega)),
      State.readWord_writeWord_same _ _ _ hlo]
    simp only [BitVec.toNat_ofNat, W]
    omega

/-- Updates of the state that leave the configuration, the scratch words and the cells alone leave every byte alone. -/
theorem State.readByte_of_eq {s t : State} (hc : t.cfg = s.cfg) (hm : t.mem = s.mem) (hs : t.scratch = s.scratch)
    (x : Nat) : t.readByte x = s.readByte x := by
  simp [State.readByte, hc, hm, hs]

/-- Updates that leave the configuration and the cells alone leave every byte outside the scratch space alone. -/
theorem State.readByte_of_eq_outside {s t : State} (hc : t.cfg = s.cfg) (hm : t.mem = s.mem) {x : Nat}
    (hx : s.cfg.inScratch x = false) : t.readByte x = s.readByte x := by
  simp [State.readByte, hc, hm, hx]

@[simp] theorem State.readByte_completeCall (s : State) (f : Bool) (x : Nat) :
    (s.completeCall f).readByte x = s.readByte x := State.readByte_of_eq rfl rfl rfl x

@[simp] theorem State.readByte_completeReadOnly (s : State) (r : Ret) (x : Nat) :
    (s.completeReadOnly r).readByte x = s.readByte x := State.readByte_of_eq rfl rfl rfl x

@[simp] theorem State.readByte_returnValue (s : State) (v : Nat) (x : Nat) :
    (s.returnValue v).readByte x = s.readByte x := State.readByte_of_eq rfl rfl rfl x

@[simp] theorem State.readByte_setRegs (s : State) (a b : Nat) (ctl : Ctl) (x : Nat) :
    (s.setRegs a b ctl).readByte x = s.readByte x := State.readByte_of_eq rfl rfl rfl x

@[simp] theorem State.readByte_beginOp (s : State) (x : Nat) : s.beginOp.readByte x = s.readByte x :=
  State.readByte_of_eq rfl rfl rfl x

@[simp] theorem State.readByte_popRequest (s : State) (x : Nat) : s.popRequest.readByte x = s.readByte x :=
  State.readByte_of_eq rfl rfl rfl x

/-- After a macro-operation every byte outside the scratch space is as its last write left it. -/
theorem State.readByte_completeOp (s : State) (r : Ret) {x : Nat} (hx : s.cfg.inScratch x = false) :
    (s.completeOp r).readByte x = s.readByte x :=
  State.readByte_of_eq_outside (s := s) (t := s.completeOp r) rfl rfl hx

/-- After a value operation every byte outside the scratch space is as its last write left it. -/
theorem State.readByte_completeLimbOp (s : State) (r : Ret) {x : Nat} (hx : s.cfg.inScratch x = false) :
    (s.completeLimbOp r).readByte x = s.readByte x :=
  State.readByte_of_eq_outside (s := s) (t := s.completeLimbOp r) rfl rfl hx

/-- A constants block holds its values at all times (spec/10_state.md rule R40). -/
theorem State.readByte_const (s : State) {x : Nat} {b : Byte} (h : s.cfg.constByte? x = some b) : s.readByte x = b := by
  simp [State.readByte, h]

end Sys2Proof.Machine
end

