-- ==== Sys2Proof/Laws/Ops.lean ====
section
/-! SUPPORT. What each shared operation can do, said once: when it completes and with which state; and what the checks
give (no byte written lies in a constants block, no operand meets the scratch space). -/

namespace Sys2Proof.Machine

set_option Elab.async false

/-! ### Permissions -/

theorem Config.constByte?_eq_none_iff (c : Config) (x : Nat) : c.constByte? x = none ↔ c.constField? x = none := by
  unfold Config.constByte?; split <;> simp_all

theorem Config.lt_of_kindAt {c : Config} {x : Nat} {k : RegionKind} (h : c.kindAt x = some k) : x < c.addrLimit := by
  unfold Config.kindAt at h; split at h
  · assumption
  · cases h

/-- A writable byte lies in no constants block. -/
theorem Config.free_of_writable {c : Config} {x : Nat} (h : c.writable x = true) : Config.free c x := by
  have h : c.kindAt x = some .plain := by simpa [Config.writable] using h
  rw [Config.free, Config.constByte?_eq_none_iff]
  unfold Config.kindAt at h
  split at h
  · split at h
    · cases h
    · assumption
  · cases h

theorem Config.lt_of_writable {c : Config} {x : Nat} (h : c.writable x = true) : x < c.addrLimit :=
  Config.lt_of_kindAt (k := .plain) (by simpa [Config.writable] using h)

theorem Config.lt_of_readable {c : Config} {x : Nat} (h : c.readable x = true) : x < c.addrLimit := by
  have h : c.kindAt x = some .plain ∨ c.kindAt x = some .readOnly := by simpa [Config.readable] using h
  rcases h with h | h <;> exact Config.lt_of_kindAt h

theorem Config.writableBlock_iff (c : Config) (a n : Nat) :
    c.writableBlock a n = true ↔ ∀ j < n, c.writable (a + j) = true := by
  induction n generalizing a with
  | zero => simp [Config.writableBlock]
  | succ n ih =>
    simp only [Config.writableBlock, Bool.and_eq_true, ih]
    constructor
    · rintro ⟨h0, h⟩ j hj
      cases j with
      | zero => exact h0
      | succ j => have := h j (by omega); rwa [Nat.add_assoc, Nat.add_comm 1 j] at this
    · intro h
      refine ⟨h 0 (by omega), fun j hj => ?_⟩
      have := h (j + 1) (by omega); rwa [Nat.add_assoc, Nat.add_comm 1 j]

theorem Config.readableBlock_iff (c : Config) (a n : Nat) :
    c.readableBlock a n = true ↔ ∀ j < n, c.readable (a + j) = true := by
  induction n generalizing a with
  | zero => simp [Config.readableBlock]
  | succ n ih =>
    simp only [Config.readableBlock, Bool.and_eq_true, ih]
    constructor
    · rintro ⟨h0, h⟩ j hj
      cases j with
      | zero => exact h0
      | succ j => have := h j (by omega); rwa [Nat.add_assoc, Nat.add_comm 1 j] at this
    · intro h
      refine ⟨h 0 (by omega), fun j hj => ?_⟩
      have := h (j + 1) (by omega); rwa [Nat.add_assoc, Nat.add_comm 1 j]

theorem Config.freeBlock_of_writableBlock {c : Config} {a n : Nat} (h : c.writableBlock a n = true) :
    Config.freeBlock c a n := fun j hj => Config.free_of_writable ((Config.writableBlock_iff c a n).1 h j hj)

theorem disjointBlocks_iff (a n b m : Nat) : disjointBlocks a n b m = true ↔ a + n ≤ b ∨ b + m ≤ a := by
  simp [disjointBlocks]

theorem Config.truncAddr_lt (c : Config) (v : Nat) : c.truncAddr v < c.addrLimit :=
  Nat.mod_lt _ (by simp [Config.addrLimit])

theorem State.nextPc_lt (s : State) : s.nextPc < s.cfg.addrLimit := by
  unfold State.nextPc; split
  · assumption
  · exact Config.truncAddr_lt _ _

/-! ### Violations -/

@[simp] theorem State.violate_ne_next (s : State) (v : Fault) (t : State) : s.violate v ≠ .next t := by
  unfold State.violate; cases s.cfg.checkPolicy <;> simp

theorem State.violate_fault {s : State} (h : s.cfg.checkPolicy = .fault) (v : Fault) : s.violate v = .fault v := by
  simp [State.violate, h]

theorem State.violate_trust {s : State} (h : s.cfg.checkPolicy = .trust) (v : Fault) :
    s.violate v = .refused (.violated v) := by
  simp [State.violate, h]

/-! ### The delegation call -/

theorem callViolation_eq_none_iff (s : State) : callViolation s = none ↔ CallLegal s := by
  unfold callViolation callAccessible
  constructor
  · intro h
    split at h
    · cases h
    · split at h
      · cases h
      · split at h
        · simp_all; exact ⟨by omega, by omega, by assumption, by tauto, by tauto⟩
        · cases h
  · intro h
    simp [h.alignedA, h.alignedB, h.distinct, h.writableA, h.readableB]

@[simp] theorem State.writeResult_cfg (s : State) (r : PrimResult) : (s.writeResult r).cfg = s.cfg := by
  unfold State.writeResult; split <;> simp
@[simp] theorem State.writeResult_regA (s : State) (r : PrimResult) : (s.writeResult r).regA = s.regA := by
  unfold State.writeResult; split <;> simp
@[simp] theorem State.writeResult_regB (s : State) (r : PrimResult) : (s.writeResult r).regB = s.regB := by
  unfold State.writeResult; split <;> simp
@[simp] theorem State.writeResult_regCtl (s : State) (r : PrimResult) : (s.writeResult r).regCtl = s.regCtl := by
  unfold State.writeResult; split <;> simp
@[simp] theorem State.writeResult_pc (s : State) (r : PrimResult) : (s.writeResult r).pc = s.pc := by
  unfold State.writeResult; split <;> simp
@[simp] theorem State.writeResult_scratchBusy (s : State) (r : PrimResult) : (s.writeResult r).scratchBusy = s.scratchBusy := by
  unfold State.writeResult; split <;> simp
@[simp] theorem State.writeResult_ret (s : State) (r : PrimResult) : (s.writeResult r).ret = s.ret := by
  unfold State.writeResult; split <;> simp
@[simp] theorem State.writeResult_requests (s : State) (r : PrimResult) : (s.writeResult r).requests = s.requests := by
  unfold State.writeResult; split <;> simp
@[simp] theorem State.writeResult_tick (s : State) (r : PrimResult) : (s.writeResult r).tick = s.tick := by
  unfold State.writeResult; split <;> simp

/-- The write of a call touches only the word at the first address. -/
theorem State.readByte_writeResult_outside (s : State) (r : PrimResult) (y : Nat) (h : y < s.regA ∨ s.regA + 32 ≤ y) :
    (s.writeResult r).readByte y = s.readByte y := by
  unfold State.writeResult; split
  · exact State.readByte_writeWord_outside _ _ _ _ h
  · rfl

/-- The frame of a completed call: every byte outside the word at `REG_A` is as before. -/
theorem readByte_callResult_outside (prim : Word → Word → PrimResult) (s : State) (y : Nat)
    (h : y < s.regA ∨ s.regA + 32 ≤ y) : (callResult prim s).readByte y = s.readByte y := by
  unfold callResult
  rw [State.readByte_completeCall, State.readByte_writeResult_outside _ _ _ h]

/-- The word a completed call leaves at `REG_A`, for a primitive that writes one. -/
theorem readWord_callResult_same {prim : Word → Word → PrimResult} {s : State} {w : Word} (h : CallLegal s)
    (hr : (prim (s.readWord s.regA) (s.readWord s.regB)).result = some w) :
    (callResult prim s).readWord s.regA = w := by
  unfold callResult
  rw [State.readWord_congr (t := s.writeResult _) (fun _ _ => State.readByte_completeCall _ _ _)]
  unfold State.writeResult
  rw [hr]
  exact State.readWord_writeWord_same _ _ _ (Config.freeBlock_of_writableBlock h.writableA)

theorem delegationCall_of_legal (prim : Word → Word → PrimResult) {s : State} (h : CallLegal s) :
    delegationCall prim s = .next (callResult prim s) := by
  unfold delegationCall
  rw [(callViolation_eq_none_iff s).2 h]

/-- A call that answers a next state was legal, and this is the state. -/
theorem delegationCall_next {prim : Word → Word → PrimResult} {s t : State} (h : delegationCall prim s = .next t) :
    CallLegal s ∧ t = callResult prim s := by
  have hl : CallLegal s := by
    rw [← callViolation_eq_none_iff]
    unfold delegationCall at h
    split at h
    · exact absurd h (by simp)
    · assumption
  rw [delegationCall_of_legal prim hl] at h
  exact ⟨hl, (Host.Outcome.next.inj h).symm⟩

/-! ### Macro-operations and value operations -/

/-- The preconditions hold exactly when no operand breaks one. -/
theorem placeViolation_eq_none_iff (s : State) (u : Bool) (ops : List Operand) :
    placeViolation s u ops = none ↔ OpPlaced s u ops := by
  unfold placeViolation
  constructor
  · intro h
    split at h
    · cases h
    split at h
    · cases h
    split at h
    · cases h
    next h1 h2 h3 =>
    simp only [Bool.and_eq_true, Bool.not_eq_true', Bool.not_eq_false, List.all_eq_true, Operand.aligned,
      decide_eq_true_eq, not_and, Bool.not_eq_true] at h1 h2 h3
    exact ⟨fun hu => h1 hu, h2, h3.1, h3.2⟩
  · rintro ⟨h1, h2, h3, h4⟩
    have ha : ops.all Operand.aligned = true := by simpa [Operand.aligned] using h2
    have hc : ops.all (Operand.clear s.cfg) = true := by simpa using h4
    have hb : (u && s.scratchBusy) = false := by cases u <;> simp_all
    simp [ha, hc, hb, h3]

/-- An operation that accesses its operands passes its checks exactly when they are legal. -/
theorem opViolation_eq_none_iff (s : State) (u : Bool) (ops : List Operand) :
    opViolation s u ops = none ↔ OpLegal s u ops := by
  unfold opViolation
  constructor
  · intro h
    split at h
    · cases h
    next hp =>
    split at h
    · next hx => exact ⟨(placeViolation_eq_none_iff ..).1 hp, by simpa using hx⟩
    · cases h
  · rintro ⟨hp, h5⟩
    have hx : ops.all (Operand.accessible s.cfg) = true := by simpa using h5
    rw [(placeViolation_eq_none_iff ..).2 hp]
    simp [hx]

/-- A written operand that passed the checks lies outside every constants block. -/
theorem OpLegal.freeBlock {s : State} {u : Bool} {ops : List Operand} (h : OpLegal s u ops) {o : Operand}
    (ho : o ∈ ops) (hw : o.written = true) : Config.freeBlock s.cfg o.addr o.bytes := by
  have := h.accessible o ho
  rw [Operand.accessible, if_pos hw] at this
  exact Config.freeBlock_of_writableBlock this

/-- An operand that passed the checks does not meet the scratch space. -/
theorem OpLegal.notInScratch {s : State} {u : Bool} {ops : List Operand} (h : OpLegal s u ops) {o : Operand}
    (ho : o ∈ ops) {i : Nat} (hi : i < o.bytes) : s.cfg.inScratch (o.addr + i) = false := by
  have := h.clear o ho
  simp only [Operand.clear, Bool.and_eq_true, disjointBlocks_iff, scratchBytes] at this
  rw [Bool.eq_false_iff]
  intro hs
  have := (Config.inScratch_iff _ _).1 hs
  omega

theorem bindField_eq_ok_iff (c : Config) (f : Nat) (w : Option Width) (k : Option RedKind) (d : Descriptor) :
    bindField c f w k = .ok d ↔ Binds c f w k d := by
  unfold bindField
  constructor
  · intro h
    split at h
    · cases h
    split at h
    · cases h
    split at h
    · cases h
    split at h
    · cases h
    next hf h1 h2 h3 =>
    cases h
    simp only [Bool.not_eq_true', Bool.not_eq_false, Bool.or_eq_true, beq_iff_eq] at h1 h2 h3
    exact ⟨hf, h1, h2, h3⟩
  · rintro ⟨hf, h1, h2, h3⟩
    have hw : (w == none || w == some d.width) = true := by rcases h2 with h | h <;> subst h <;> simp
    have hk : (k == none || k == some d.kind) = true := by rcases h3 with h | h <;> subst h <;> simp
    rw [hf]
    simp only [h1, hw, hk, Bool.not_true, Bool.false_eq_true, if_false]

theorem moduleOp_of_legal {w : Width} {k : Option RedKind} {f : Nat} {ops : List Operand} {s : State}
    {d : Descriptor} (body : Descriptor → State → Out) (hb : Binds s.cfg f (some w) k d) (hl : OpLegal s true ops) :
    moduleOp w k f ops s body = body d s.beginOp := by
  unfold moduleOp
  rw [(bindField_eq_ok_iff ..).2 hb]; dsimp only
  rw [(opViolation_eq_none_iff ..).2 hl]

/-- A macro-operation that answers a next state bound its descriptor and passed its checks. -/
theorem moduleOp_next {w : Width} {k : Option RedKind} {f : Nat} {ops : List Operand} {s t : State}
    {body : Descriptor → State → Out} (h : moduleOp w k f ops s body = .next t) :
    ∃ d, Binds s.cfg f (some w) k d ∧ OpLegal s true ops ∧ body d s.beginOp = .next t := by
  unfold moduleOp at h
  split at h
  · cases h
  next d hd =>
  split at h
  · exact absurd h (by simp)
  next ho =>
  exact ⟨d, (bindField_eq_ok_iff ..).1 hd, (opViolation_eq_none_iff ..).1 ho, h⟩

@[simp] theorem State.readWide_beginOp (s : State) (n : Width) (a : Nat) : s.beginOp.readWide n a = s.readWide n a :=
  State.readWide_congr (fun _ _ => State.readByte_beginOp _ _)

/-- What a two-operand macro-operation can do. -/
theorem modBinary_next {w : Width} {k : Option RedKind} {rng : Descriptor → Nat → Nat → Bool}
    {res : Descriptor → Nat → Nat → Nat} {f dst src : Nat} {s t : State}
    (h : modBinary w k rng res f dst src s = .next t) :
    ∃ d, Binds s.cfg f (some w) k d ∧ OpLegal s true [mutOperand w dst, readOperand w src] ∧
      rng d (s.readWide w dst) (s.readWide w src) = true ∧
      t = (s.beginOp.writeWide w dst (res d (s.readWide w dst) (s.readWide w src))).completeOp .none := by
  obtain ⟨d, hb, hl, h⟩ := moduleOp_next h
  simp only [State.readWide_beginOp] at h
  split at h
  · next hr => exact ⟨d, hb, hl, hr, (Host.Outcome.next.inj h).symm⟩
  · cases h

/-- When a two-operand macro-operation completes. -/
theorem modBinary_of_legal {w : Width} {k : Option RedKind} {rng : Descriptor → Nat → Nat → Bool}
    {res : Descriptor → Nat → Nat → Nat} {f dst src : Nat} {s : State} {d : Descriptor}
    (hb : Binds s.cfg f (some w) k d) (hl : OpLegal s true [mutOperand w dst, readOperand w src])
    (hr : rng d (s.readWide w dst) (s.readWide w src) = true) :
    modBinary w k rng res f dst src s =
      .next ((s.beginOp.writeWide w dst (res d (s.readWide w dst) (s.readWide w src))).completeOp .none) := by
  unfold modBinary
  rw [moduleOp_of_legal _ hb hl]
  simp [hr]

/-- What a one-operand macro-operation can do. -/
theorem modUnary_next {w : Width} {k : Option RedKind} {rng : Descriptor → Nat → Bool}
    {res : Descriptor → Nat → Nat} {f dst : Nat} {s t : State}
    (h : modUnary w k rng res f dst s = .next t) :
    ∃ d, Binds s.cfg f (some w) k d ∧ OpLegal s true [mutOperand w dst] ∧ rng d (s.readWide w dst) = true ∧
      t = (s.beginOp.writeWide w dst (res d (s.readWide w dst))).completeOp .none := by
  obtain ⟨d, hb, hl, h⟩ := moduleOp_next h
  simp only [State.readWide_beginOp] at h
  split at h
  · next hr => exact ⟨d, hb, hl, hr, (Host.Outcome.next.inj h).symm⟩
  · cases h

/-- When a one-operand macro-operation completes. -/
theorem modUnary_of_legal {w : Width} {k : Option RedKind} {rng : Descriptor → Nat → Bool}
    {res : Descriptor → Nat → Nat} {f dst : Nat} {s : State} {d : Descriptor}
    (hb : Binds s.cfg f (some w) k d) (hl : OpLegal s true [mutOperand w dst])
    (hr : rng d (s.readWide w dst) = true) :
    modUnary w k rng res f dst s =
      .next ((s.beginOp.writeWide w dst (res d (s.readWide w dst))).completeOp .none) := by
  unfold modUnary
  rw [moduleOp_of_legal _ hb hl]
  simp [hr]

/-- What a comparison can do. -/
theorem modCompare_next {w : Width} {test : Nat → Nat → Bool} {f a b : Nat} {s t : State}
    (h : modCompare w test f a b s = .next t) :
    ∃ d, Binds s.cfg f (some w) none d ∧ OpLegal s true [readOperand w a, readOperand w b] ∧
      t = s.beginOp.completeOp (.bit (test (s.readWide w a) (s.readWide w b))) := by
  obtain ⟨d, hb, hl, h⟩ := moduleOp_next h
  exact ⟨d, hb, hl, by rw [← Host.Outcome.next.inj h]; simp⟩

/-- When a comparison completes. -/
theorem modCompare_of_legal {w : Width} {test : Nat → Nat → Bool} {f a b : Nat} {s : State} {d : Descriptor}
    (hb : Binds s.cfg f (some w) none d) (hl : OpLegal s true [readOperand w a, readOperand w b]) :
    modCompare w test f a b s =
      .next (s.beginOp.completeOp (.bit (test (s.readWide w a) (s.readWide w b)))) := by
  unfold modCompare
  rw [moduleOp_of_legal _ hb hl]
  simp

/-- What a test of one value can do. -/
theorem modTest_next {w : Width} {test : Descriptor → Nat → Bool} {f a : Nat} {s t : State}
    (h : modTest w test f a s = .next t) :
    ∃ d, Binds s.cfg f (some w) none d ∧ OpLegal s true [readOperand w a] ∧
      t = s.beginOp.completeOp (.bit (test d (s.readWide w a))) := by
  obtain ⟨d, hb, hl, h⟩ := moduleOp_next h
  exact ⟨d, hb, hl, by rw [← Host.Outcome.next.inj h]; simp⟩

/-- When a test of one value completes. -/
theorem modTest_of_legal {w : Width} {test : Descriptor → Nat → Bool} {f a : Nat} {s : State} {d : Descriptor}
    (hb : Binds s.cfg f (some w) none d) (hl : OpLegal s true [readOperand w a]) :
    modTest w test f a s = .next (s.beginOp.completeOp (.bit (test d (s.readWide w a)))) := by
  unfold modTest
  rw [moduleOp_of_legal _ hb hl]
  simp

/-- What an identity conversion can do. -/
theorem modIdentity_next {f dst : Nat} {s t : State} (h : modIdentity f dst s = .next t) :
    ∃ d, Binds s.cfg f (some .w256) (some .barrett) d ∧ OpPlaced s true [mutOperand .w256 dst] ∧
      dst < s.cfg.addrLimit ∧ t = s.completeReadOnly .none := by
  unfold modIdentity at h
  split at h
  · cases h
  next d hd =>
  split at h
  · exact absurd h (by simp)
  next ho =>
  split at h
  · next ha =>
    exact ⟨d, (bindField_eq_ok_iff ..).1 hd, (placeViolation_eq_none_iff ..).1 ho, ha, (Host.Outcome.next.inj h).symm⟩
  · exact absurd h (by simp)

/-- When an identity conversion completes. -/
theorem modIdentity_of_placed {f dst : Nat} {s : State} {d : Descriptor}
    (hb : Binds s.cfg f (some .w256) (some .barrett) d) (hl : OpPlaced s true [mutOperand .w256 dst])
    (ha : dst < s.cfg.addrLimit) : modIdentity f dst s = .next (s.completeReadOnly .none) := by
  unfold modIdentity
  rw [(bindField_eq_ok_iff ..).2 hb]; dsimp only
  rw [(placeViolation_eq_none_iff ..).2 hl]
  simp [ha]

/-- What a value operation can do. -/
theorem limbOp_next {o : Operand} {bytesOk : Bool} {x : Nat} {s t : State} {body : State → Out}
    (h : limbOp o bytesOk x s body = .next t) : OpLegal s false [o] ∧ bytesOk = true ∧ body s = .next t := by
  unfold limbOp at h
  split at h
  · exact absurd h (by simp)
  next ho =>
  split at h
  · next hb => exact ⟨(opViolation_eq_none_iff ..).1 ho, hb, h⟩
  · exact absurd h (by simp)

/-- When a value operation completes. -/
theorem limbOp_of_legal {o : Operand} {bytesOk : Bool} {x : Nat} {s : State} {body : State → Out}
    (hl : OpLegal s false [o]) (hb : bytesOk = true) : limbOp o bytesOk x s body = body s := by
  unfold limbOp
  rw [(opViolation_eq_none_iff ..).2 hl]
  simp [hb]

/-- What a step can do. -/
theorem step_next {s t : State} (h : step s = .next t) :
    (s.requests = [] ∧ t = s) ∨
    (∃ a b ctl rest i, s.requests = .call a b ctl :: rest ∧ s.cfg.ok = true ∧ decode s.cfg.ctl ctl = .ok i ∧
      exec i (s.popRequest.setRegs a b ctl) = .next t) ∨
    (∃ i rest, s.requests = .op i :: rest ∧ s.cfg.ok = true ∧ exec i s.popRequest = .next t) := by
  unfold step at h
  split at h
  · next hr => exact .inl ⟨hr, (Host.Outcome.next.inj h).symm⟩
  · next a b ctl rest hr =>
    split at h
    · next hc =>
      unfold delegate at h
      split at h
      · next i hi => exact .inr (.inl ⟨a, b, ctl, rest, i, hr, hc, hi, h⟩)
      · exact absurd h (by simp)
    · cases h
  · next i rest hr =>
    split at h
    · next hc => exact .inr (.inr ⟨i, rest, hr, hc, h⟩)
    · cases h

end Sys2Proof.Machine
end

