-- ==== Sys2Proof/Laws/PerInstr.lean ====
section
/-! SUPPORT. A statement about every operation as syntax, one lemma per constructor: the control word of an operation, if it
has one, has its reserved bits clear, and only a primitive or the reserved opcode has one (spec/30_encoding.md rules R76
and R81). -/

namespace Sys2Proof.Laws.EncodingClass

open Sys2Proof.Machine

/-- The control word of `i`, if there is one, has no reserved bit set, and `i` names no operand and no field. -/
def Statement (i : Instr) : Prop := ∀ c, encode ctlTable i = some c → ctlTable.rsvField c = 0 ∧ ∀ cfg, operandsOf cfg i = []

theorem waluAdd (cin : Bool) : Statement (.waluAdd cin) := by intro c h; cases cin <;> cases h <;> exact ⟨by decide, fun _ => rfl⟩
theorem waluSub (cin : Bool) : Statement (.waluSub cin) := by intro c h; cases cin <;> cases h <;> exact ⟨by decide, fun _ => rfl⟩
theorem waluSubNeg (cin : Bool) : Statement (.waluSubNeg cin) := by intro c h; cases cin <;> cases h <;> exact ⟨by decide, fun _ => rfl⟩
theorem waluMulLo (cin : Bool) : Statement (.waluMulLo cin) := by intro c h; cases cin <;> cases h <;> exact ⟨by decide, fun _ => rfl⟩
theorem waluMulHi (cin : Bool) : Statement (.waluMulHi cin) := by intro c h; cases cin <;> cases h <;> exact ⟨by decide, fun _ => rfl⟩
theorem waluEq (cin : Bool) : Statement (.waluEq cin) := by intro c h; cases cin <;> cases h <;> exact ⟨by decide, fun _ => rfl⟩
theorem waluMemCpy (cin : Bool) : Statement (.waluMemCpy cin) := by intro c h; cases cin <;> cases h <;> exact ⟨by decide, fun _ => rfl⟩
theorem reserved (cin : Bool) : Statement (.reserved cin) := by intro c h; cases cin <;> cases h <;> exact ⟨by decide, fun _ => rfl⟩
theorem parity (n : Width) (a : Nat) : Statement (.parity n a) := by intro c h; cases h
theorem halve (n : Width) (a : Nat) (cin : Bool) : Statement (.halve n a cin) := by intro c h; cases h
theorem beDecode (n : Width) (dst bytes : Nat) : Statement (.beDecode n dst bytes) := by intro c h; cases h
theorem beEncode (n : Width) (bytes src : Nat) : Statement (.beEncode n bytes src) := by intro c h; cases h
theorem fromBytes (f : Nat) (dst bytes : Nat) : Statement (.fromBytes f dst bytes) := by intro c h; cases h
theorem toBytes (f : Nat) (bytes src : Nat) : Statement (.toBytes f bytes src) := by intro c h; cases h
theorem parseDecimal (n : Width) (s : List Char) : Statement (.parseDecimal n s) := by intro c h; cases h
theorem addMod (f : Nat) (dst src : Nat) : Statement (.addMod f dst src) := by intro c h; cases h
theorem subMod (f : Nat) (dst src : Nat) : Statement (.subMod f dst src) := by intro c h; cases h
theorem doubleMod (f : Nat) (dst : Nat) : Statement (.doubleMod f dst) := by intro c h; cases h
theorem negateMod (f : Nat) (dst : Nat) : Statement (.negateMod f dst) := by intro c h; cases h
theorem lt (f : Nat) (a b : Nat) : Statement (.lt f a b) := by intro c h; cases h
theorem leq (f : Nat) (a b : Nat) : Statement (.leq f a b) := by intro c h; cases h
theorem eq (f : Nat) (a b : Nat) : Statement (.eq f a b) := by intro c h; cases h
theorem isZero (f : Nat) (a : Nat) : Statement (.isZero f a) := by intro c h; cases h
theorem isOne (f : Nat) (a : Nat) : Statement (.isOne f a) := by intro c h; cases h
theorem isZeroMod (f : Nat) (a : Nat) : Statement (.isZeroMod f a) := by intro c h; cases h
theorem mulMont (f : Nat) (dst src : Nat) : Statement (.mulMont f dst src) := by intro c h; cases h
theorem squareMont (f : Nat) (dst : Nat) : Statement (.squareMont f dst) := by intro c h; cases h
theorem toRepresentation (f : Nat) (dst : Nat) : Statement (.toRepresentation f dst) := by intro c h; cases h
theorem toInteger (f : Nat) (dst : Nat) : Statement (.toInteger f dst) := by intro c h; cases h
theorem mulBarret (f : Nat) (dst src : Nat) : Statement (.mulBarret f dst src) := by intro c h; cases h
theorem squareBarret (f : Nat) (dst : Nat) : Statement (.squareBarret f dst) := by intro c h; cases h
theorem toRepresentationBarrett (f : Nat) (dst : Nat) : Statement (.toRepresentationBarrett f dst) := by intro c h; cases h
theorem toIntegerBarrett (f : Nat) (dst : Nat) : Statement (.toIntegerBarrett f dst) := by intro c h; cases h
theorem invMod (f : Nat) (dst : Nat) : Statement (.invMod f dst) := by intro c h; cases h
theorem addMod512 (f : Nat) (dst src : Nat) : Statement (.addMod512 f dst src) := by intro c h; cases h
theorem subMod512 (f : Nat) (dst src : Nat) : Statement (.subMod512 f dst src) := by intro c h; cases h
theorem doubleMod512 (f : Nat) (dst : Nat) : Statement (.doubleMod512 f dst) := by intro c h; cases h
theorem negateMod512 (f : Nat) (dst : Nat) : Statement (.negateMod512 f dst) := by intro c h; cases h
theorem lt512 (f : Nat) (a b : Nat) : Statement (.lt512 f a b) := by intro c h; cases h
theorem leq512 (f : Nat) (a b : Nat) : Statement (.leq512 f a b) := by intro c h; cases h
theorem eq512 (f : Nat) (a b : Nat) : Statement (.eq512 f a b) := by intro c h; cases h
theorem isZero512 (f : Nat) (a : Nat) : Statement (.isZero512 f a) := by intro c h; cases h
theorem isOne512 (f : Nat) (a : Nat) : Statement (.isOne512 f a) := by intro c h; cases h
theorem isZeroMod512 (f : Nat) (a : Nat) : Statement (.isZeroMod512 f a) := by intro c h; cases h
theorem mulMont512 (f : Nat) (dst src : Nat) : Statement (.mulMont512 f dst src) := by intro c h; cases h
theorem squareMont512 (f : Nat) (dst : Nat) : Statement (.squareMont512 f dst) := by intro c h; cases h
theorem toRepresentation512 (f : Nat) (dst : Nat) : Statement (.toRepresentation512 f dst) := by intro c h; cases h
theorem toInteger512 (f : Nat) (dst : Nat) : Statement (.toInteger512 f dst) := by intro c h; cases h

end Sys2Proof.Laws.EncodingClass
end

