-- ==== Sys2Proof/Laws/Primes.lean ====
section
/-! SUPPORT. The primality test of Machine/Descriptor.lean is exact: what trial division finds is what `Nat.Prime` says, and the
seven moduli of spec/10_state.md rule R33 are prime, by Lucas's theorem on a chain of smaller primes. -/

namespace Sys2Proof

set_option Elab.async false

/-! ### Trial division -/

theorem noDivisorFrom_iff (p fuel k : Nat) :
    noDivisorFrom p fuel k = true ↔ ∀ m, k ≤ m → m < k + fuel → m * m ≤ p → ¬ m ∣ p := by
  induction fuel generalizing k with
  | zero => simp only [noDivisorFrom, true_iff]; intro m h1 h2; omega
  | succ fuel ih =>
    unfold noDivisorFrom
    split
    · next h =>
      simp only [true_iff]
      intro m h1 _ h3
      have := Nat.mul_le_mul h1 h1
      omega
    · next h =>
      split
      · next hd =>
        simp only [Bool.false_eq_true, false_iff, not_forall]
        exact ⟨k, le_refl k, by omega, by omega, fun hn => hn (Nat.dvd_of_mod_eq_zero hd)⟩
      · next hd =>
        rw [ih]
        constructor
        · intro H m h1 h2 h3
          rcases Nat.eq_or_lt_of_le h1 with rfl | h1
          · exact fun hn => hd (Nat.mod_eq_zero_of_dvd hn)
          · exact H m h1 (by omega) h3
        · intro H m h1 h2 h3
          exact H m (by omega) (by omega) h3

/-- Trial division decides primality. -/
theorem trial_iff (p : Nat) : (decide (2 ≤ p) && noDivisorFrom p p 2) = true ↔ p.Prime := by
  rw [Bool.and_eq_true, decide_eq_true_eq, noDivisorFrom_iff, Nat.prime_def_le_sqrt]
  refine and_congr_right fun _ => ⟨fun H m h1 h2 => ?_, fun H m h1 _ h3 => H m h1 (Nat.le_sqrt.2 h3)⟩
  exact H m h1 (by have := Nat.sqrt_le_self p; omega) (Nat.le_sqrt.1 h2)

/-! ### Lucas's theorem on a chain of primes -/

/-- `b^e mod m`, by squaring; `fuel` is at least the number of bits of `e`. -/
def powMod (b m : Nat) : (fuel e : Nat) → Nat
  | 0, _ => 1 % m
  | fuel + 1, e =>
    let h := powMod b m fuel (e / 2)
    if e % 2 = 1 then h * h % m * b % m else h * h % m

theorem powMod_cast (b m fuel e : Nat) (he : e < 2 ^ fuel) : ((powMod b m fuel e : Nat) : ZMod m) = (b : ZMod m) ^ e := by
  induction fuel generalizing e with
  | zero => obtain rfl : e = 0 := by omega
            simp [powMod]
  | succ fuel ih =>
    have ih := ih (e / 2) (by rw [pow_succ] at he; omega)
    have he2 : e = e / 2 + e / 2 + e % 2 := by omega
    conv_rhs => rw [he2, pow_add, pow_add, ← ih]
    rw [powMod]
    split
    · next h1 => rw [h1]; simp
    · next h1 => rw [show e % 2 = 0 by omega]; simp

/-- A number, a root of the group modulo it, and the prime factors of its predecessor. -/
structure LucasRow where
  p : Nat
  root : Nat
  factors : List Nat

/-- The root has the order `p - 1`. -/
def LucasRow.ok (r : LucasRow) : Bool :=
  decide (1 < r.p) && decide (r.p < 2 ^ 400) && decide (r.factors.prod = r.p - 1) &&
    powMod r.root r.p 400 (r.p - 1) == 1 && r.factors.all (fun q => powMod r.root r.p 400 ((r.p - 1) / q) != 1)

theorem powMod_lt {b m fuel e : Nat} (hm : 1 < m) : powMod b m fuel e < m := by
  cases fuel with
  | zero => exact Nat.mod_lt _ (by omega)
  | succ fuel => unfold powMod; dsimp only; split <;> exact Nat.mod_lt _ (by omega)

theorem LucasRow.prime {r : LucasRow} (h : r.ok = true) (hq : ∀ q ∈ r.factors, q.Prime) : r.p.Prime := by
  simp only [LucasRow.ok, Bool.and_eq_true, decide_eq_true_eq, beq_iff_eq, List.all_eq_true, bne_iff_ne, ne_eq] at h
  obtain ⟨⟨⟨⟨h1, hlt⟩, hprod⟩, hpow⟩, hne⟩ := h
  have hbound : r.p - 1 < 2 ^ 400 := by omega
  refine lucas_primality r.p (r.root : ZMod r.p) ?_ fun q hqp hqd hone => ?_
  · rw [← powMod_cast _ _ _ _ hbound, hpow, Nat.cast_one]
  · rw [← hprod] at hqd
    obtain ⟨f, hf, hdvd⟩ := (Nat.Prime.prime hqp).dvd_prod_iff.1 hqd
    obtain rfl : q = f := ((hq f hf).eq_one_or_self_of_dvd q hdvd).resolve_left hqp.one_lt.ne'
    refine hne q hf ?_
    have hb : (r.p - 1) / q < 2 ^ 400 := lt_of_le_of_lt (Nat.div_le_self _ _) hbound
    rw [← powMod_cast _ _ _ _ hb, ← Nat.cast_one (R := ZMod r.p), ZMod.natCast_eq_natCast_iff] at hone
    have := Nat.mod_eq_of_lt (powMod_lt (b := r.root) (fuel := 400) (e := (r.p - 1) / q) h1)
    rw [Nat.ModEq, this, Nat.mod_eq_of_lt h1] at hone
    exact hone

/-- Every row holds, and its factors are rows before it or small enough to try by division. -/
def chainOk (known : List Nat) : List LucasRow → Bool
  | [] => true
  | r :: rs =>
    r.ok && r.factors.all (fun q => known.contains q || (decide (2 ≤ q) && noDivisorFrom q q 2)) && chainOk (r.p :: known) rs

theorem chain_prime {known : List Nat} {rs : List LucasRow} (hk : ∀ q ∈ known, q.Prime) (h : chainOk known rs = true) :
    ∀ r ∈ rs, r.p.Prime := by
  induction rs generalizing known with
  | nil => intro r hr; cases hr
  | cons r rs ih =>
    simp only [chainOk, Bool.and_eq_true, List.all_eq_true, Bool.or_eq_true, List.contains_iff_mem] at h
    obtain ⟨⟨hr, hf⟩, hrs⟩ := h
    have hp : r.p.Prime := LucasRow.prime hr fun q hq => (hf q hq).elim (hk q) fun ht =>
      (trial_iff q).1 (by rw [Bool.and_eq_true]; exact ht)
    intro r' hr'
    rcases List.mem_cons.1 hr' with rfl | hr'
    · exact hp
    · exact ih (fun q hq => (List.mem_cons.1 hq).elim (fun e => e ▸ hp) (hk q)) hrs r' hr'

/-! ### The seven moduli -/

/-- The chain of secp256k1 field. -/
def chainK1Field : List LucasRow :=
  [ ⟨13331831, 13,
      [2, 5, 971, 1373]⟩,
    ⟨173378833005251801, 6,
      [2, 2, 2, 5, 5, 2621, 24809, 13331831]⟩,
    ⟨22149492674086928081353, 5,
      [2, 2, 2, 3, 5323, 173378833005251801]⟩,
    ⟨132896956044521568488119, 6,
      [2, 3, 22149492674086928081353]⟩,
    ⟨7240687, 3,
      [2, 3, 1206781]⟩,
    ⟨107590001, 3,
      [2, 2, 2, 2, 5, 5, 5, 5, 7, 29, 53]⟩,
    ⟨255515944373312847190720520512484175977, 3,
      [2, 2, 2, 7, 7, 11, 1627, 2657, 4423, 41201, 96557, 7240687, 107590001]⟩,
    ⟨205115282021455665897114700593932402728804164701536103180137503955397371, 10,
      [2, 3, 5, 29, 29, 31, 7723, 132896956044521568488119, 255515944373312847190720520512484175977]⟩,
    ⟨115792089237316195423570985008687907853269984665640564039457584007908834671663, 3,
      [2, 3, 7, 13441, 205115282021455665897114700593932402728804164701536103180137503955397371]⟩ ]

/-- The chain of secp256k1 scalar. -/
def chainK1Scalar : List LucasRow :=
  [ ⟨4681609, 23,
      [2, 2, 2, 3, 97, 2011]⟩,
    ⟨107361793816595537, 3,
      [2, 2, 2, 2, 16699, 85831, 4681609]⟩,
    ⟨44706919, 6,
      [2, 3, 797, 9349]⟩,
    ⟨174723607534414371449, 3,
      [2, 2, 2, 17, 59, 4051, 120233, 44706919]⟩,
    ⟨545358713, 5,
      [2, 2, 2, 41, 59, 28181]⟩,
    ⟨297159362677, 2,
      [2, 2, 3, 3, 11, 461, 1627771]⟩,
    ⟨29047611873442575647497758179, 2,
      [2, 293, 305873, 545358713, 297159362677]⟩,
    ⟨341948486974166000522343609283189, 2,
      [2, 2, 3, 3, 3, 109, 29047611873442575647497758179]⟩,
    ⟨115792089237316195423570985008687907852837564279074904382605163141518161494337, 7,
      [2, 2, 2, 2, 2, 2, 3, 149, 631, 107361793816595537, 174723607534414371449, 341948486974166000522343609283189]⟩ ]

/-- The chain of secp256r1 field. -/
def chainR1Field : List LucasRow :=
  [ ⟨6700417, 5,
      [2, 2, 2, 2, 2, 2, 2, 3, 17449]⟩,
    ⟨204061199, 11,
      [2, 11, 23, 107, 3769]⟩,
    ⟨34282281433, 17,
      [2, 2, 2, 3, 7, 204061199]⟩,
    ⟨66417393611, 6,
      [2, 5, 53, 173, 197, 3677]⟩,
    ⟨11290956913871, 13,
      [2, 5, 17, 66417393611]⟩,
    ⟨46076956964474543, 5,
      [2, 23, 18169, 78283, 704251]⟩,
    ⟨774023187263532362759620327192479577272145303, 3,
      [2, 3, 3, 2411, 34282281433, 11290956913871, 46076956964474543]⟩,
    ⟨835945042244614951780389953367877943453916927241, 11,
      [2, 2, 2, 3, 3, 3, 5, 774023187263532362759620327192479577272145303]⟩,
    ⟨115792089210356248762697446949407573530086143415290314195533631308867097853951, 6,
      [2, 3, 5, 5, 17, 257, 641, 1531, 65537, 490463, 6700417, 835945042244614951780389953367877943453916927241]⟩ ]

/-- The chain of secp256r1 scalar. -/
def chainR1Scalar : List LucasRow :=
  [ ⟨9350987, 2,
      [2, 17, 229, 1201]⟩,
    ⟨187019741, 2,
      [2, 2, 5, 9350987]⟩,
    ⟨311245691, 2,
      [2, 5, 7, 17, 29, 29, 311]⟩,
    ⟨622491383, 5,
      [2, 311245691]⟩,
    ⟨3969899, 2,
      [2, 19, 104471]⟩,
    ⟨1002328039319, 19,
      [2, 126241, 3969899]⟩,
    ⟨191039911, 3,
      [2, 3, 5, 41, 155317]⟩,
    ⟨208150935158385979, 2,
      [2, 3, 11, 43, 127, 3023, 191039911]⟩,
    ⟨2624747550333869278416773953, 7,
      [2, 2, 2, 2, 2, 2, 3, 3, 1297, 16879, 208150935158385979]⟩,
    ⟨115792089210356248762697446949407573529996955224135760342422259061068512044369, 7,
      [2, 2, 2, 2, 3, 71, 131, 373, 3407, 17449, 38189, 187019741, 622491383, 1002328039319, 2624747550333869278416773953]⟩ ]

/-- The chain of BN254 Fq. -/
def chainBn254Fq : List LucasRow :=
  [ ⟨405928799, 22,
      [2, 11, 3691, 4999]⟩,
    ⟨11465965001, 3,
      [2, 2, 2, 5, 5, 5, 5, 7, 327599]⟩,
    ⟨4562087, 5,
      [2, 17, 109, 1231]⟩,
    ⟨173171039, 13,
      [2, 73, 89, 13327]⟩,
    ⟨1263766531, 10,
      [2, 3, 5, 13, 911, 3557]⟩,
    ⟨35385462869, 2,
      [2, 2, 7, 1263766531]⟩,
    ⟨2480874801745591, 6,
      [2, 3, 3, 5, 19, 41, 35385462869]⟩,
    ⟨13427688667394608761327070753331941386769, 17,
      [2, 2, 2, 2, 3, 7, 11, 1853641, 4562087, 173171039, 2480874801745591]⟩,
    ⟨21888242871839275222246405745257275088696311157297823662689037894645226208583, 3,
      [2, 3, 3, 13, 29, 67, 229, 311, 983, 11003, 405928799, 11465965001, 13427688667394608761327070753331941386769]⟩ ]

/-- The chain of BLS12-381 Fr. -/
def chainBls381Fr : List LucasRow :=
  [ ⟨2508409, 11,
      [2, 2, 2, 3, 3, 3, 3, 7, 7, 79]⟩,
    ⟨2529403, 2,
      [2, 3, 23, 18329]⟩,
    ⟨52437899, 2,
      [2, 43, 609743]⟩,
    ⟨2653753, 5,
      [2, 2, 2, 3, 110573]⟩,
    ⟨63690073, 7,
      [2, 2, 2, 3, 2653753]⟩,
    ⟨254760293, 2,
      [2, 2, 63690073]⟩,
    ⟨52435875175126190479447740508185965837690552500527637822603658699938581184513, 7,
      [2, 2, 2, 2, 2, 2, 2, 2, 2, 2, 2, 2, 2, 2, 2, 2, 2, 2, 2, 2, 2, 2, 2, 2, 2, 2, 2, 2, 2, 2, 2, 2, 3, 11, 19, 10177, 125527, 859267, 906349, 906349, 2508409, 2529403, 52437899, 254760293, 254760293]⟩ ]

/-- The chain of BLS12-381 Fq. -/
def chainBls381Fq : List LucasRow :=
  [ ⟨9272813673901, 2,
      [2, 2, 3, 5, 5, 7, 7577, 582767]⟩,
    ⟨1928745244171409, 3,
      [2, 2, 2, 2, 13, 9272813673901]⟩,
    ⟨7259797099061183477, 2,
      [2, 2, 941, 1928745244171409]⟩,
    ⟨2584487767265781317813, 2,
      [2, 2, 89, 7259797099061183477]⟩,
    ⟨475709467, 2,
      [2, 3, 47, 1686913]⟩,
    ⟨927093389, 3,
      [2, 2, 13, 409, 43591]⟩,
    ⟨64881703735777, 5,
      [2, 2, 2, 2, 2, 3, 3, 3, 3, 3, 3, 3, 927093389]⟩,
    ⟨92691255082156974996979, 3,
      [2, 3, 31, 467, 16447, 64881703735777]⟩,
    ⟨51376543, 3,
      [2, 3, 7, 151, 8101]⟩,
    ⟨43670061551, 7,
      [2, 5, 5, 17, 51376543]⟩,
    ⟨13090036741, 10,
      [2, 2, 3, 5, 11, 47, 421987]⟩,
    ⟨3819663927398918131021, 6,
      [2, 2, 3, 3, 5, 19, 113, 755057, 13090036741]⟩,
    ⟨1125266252156850182658904441386709967, 5,
      [2, 3373, 43670061551, 3819663927398918131021]⟩,
    ⟨15778400344354997994418419698270088123916926905054652752758194827714659, 2,
      [2, 3, 53, 475709467, 92691255082156974996979, 1125266252156850182658904441386709967]⟩,
    ⟨4002409555221667393417789825735904156556882819939007885332058136124031650490837864442687629129015664037894272559787, 2,
      [2, 3, 3, 11, 23, 47, 10177, 859267, 52437899, 2584487767265781317813, 15778400344354997994418419698270088123916926905054652752758194827714659]⟩ ]

theorem chainK1Field_ok : chainOk [] chainK1Field = true := by decide +kernel
theorem chainK1Scalar_ok : chainOk [] chainK1Scalar = true := by decide +kernel
theorem chainR1Field_ok : chainOk [] chainR1Field = true := by decide +kernel
theorem chainR1Scalar_ok : chainOk [] chainR1Scalar = true := by decide +kernel
theorem chainBn254Fq_ok : chainOk [] chainBn254Fq = true := by decide +kernel
theorem chainBls381Fr_ok : chainOk [] chainBls381Fr = true := by decide +kernel
theorem chainBls381Fq_ok : chainOk [] chainBls381Fq = true := by decide +kernel

/-- The last number of a chain that holds is prime. -/
theorem prime_of_chain {rs : List LucasRow} (h : chainOk [] rs = true) {p : Nat}
    (hp : (rs.map LucasRow.p).contains p = true) : p.Prime := by
  obtain ⟨r, hr, rfl⟩ := List.mem_map.1 (List.contains_iff_mem.1 hp)
  exact chain_prime (fun _ hq => absurd hq List.not_mem_nil) h r hr

/-- The seven moduli of spec/10_state.md rule R33 are prime. -/
theorem fieldPrimes_prime : ∀ p ∈ fieldPrimes, p.Prime := by
  intro p hp
  simp only [fieldPrimes, List.mem_cons, List.not_mem_nil, or_false] at hp
  rcases hp with rfl | rfl | rfl | rfl | rfl | rfl | rfl
  · exact prime_of_chain chainK1Field_ok (by decide +kernel)
  · exact prime_of_chain chainK1Scalar_ok (by decide +kernel)
  · exact prime_of_chain chainR1Field_ok (by decide +kernel)
  · exact prime_of_chain chainR1Scalar_ok (by decide +kernel)
  · exact prime_of_chain chainBn254Fq_ok (by decide +kernel)
  · exact prime_of_chain chainBls381Fr_ok (by decide +kernel)
  · exact prime_of_chain chainBls381Fq_ok (by decide +kernel)

/-- The test says exactly whether its argument is prime. -/
theorem primeTest_iff (p : Nat) : primeTest p = true ↔ p.Prime := by
  rw [primeTest, Bool.or_eq_true, List.contains_iff_mem, trial_iff]
  exact ⟨fun h => h.elim (fieldPrimes_prime p) id, .inr⟩

end Sys2Proof
end

