-- ==== Sys2Proof/Tests/Slice0.lean ====
section
/-! SUPPORT. Tests. Every expected value is from spec/95_test_vectors.md or from the worked example of the rule a test names;
and for every obligation with hypotheses a theorem named witness_… that shows a state and operands meeting them. -/

namespace Sys2Proof.Tests

set_option Elab.async false

open Sys2Proof.Machine

/-! ### States and outcomes to write tests with -/

/-- The moduli of spec/10_state.md rule R33 the vectors use: secp256k1 field, BN254 Fq, BLS12-381 Fr, BLS12-381 Fq. -/
abbrev pK : Nat := 0xFFFFFFFFFFFFFFFFFFFFFFFFFFFFFFFFFFFFFFFFFFFFFFFFFFFFFFFEFFFFFC2F
/-- BN254 Fq. -/
abbrev pN : Nat := 0x30644E72E131A029B85045B68181585D97816A916871CA8D3C208C16D87CFD47
/-- BLS12-381 Fr. -/
abbrev pR : Nat := 0x73EDA753299D7D483339D80809A1D80553BDA402FFFE5BFEFFFFFFFF00000001
/-- BLS12-381 Fq. -/
abbrev pQ : Nat := 0x1A0111EA397FE69A4B1BA7B6434BACD764774B84F38512BF6730D2A0F6B0F6241EABFFFEB153FFFFB9FEFFFFFFFFAAAB
/-- `R mod p` of BLS12-381 Fq (spec/95_test_vectors.md section 2). -/
abbrev oneQ : Nat := 0x02CB5D3A884E56C4FAB7CD07EE4E16BC15EFEBB5D396D7CF82383087033108464532383FA8EAFF4E967D3988A62B6C9D

/-- The descriptors of these fields, and of the secp256k1 scalars (number 1). -/
abbrev dK : Descriptor := ⟨.w256, .barrett, pK, standardConstBase 0⟩
/-- secp256k1 scalar. -/
abbrev dS : Descriptor :=
  ⟨.w256, .montgomery, 0xFFFFFFFFFFFFFFFFFFFFFFFFFFFFFFFEBAAEDCE6AF48A03BBFD25E8CD0364141, standardConstBase 1⟩
/-- BN254 Fq. -/
abbrev dN : Descriptor := ⟨.w256, .montgomery, pN, standardConstBase 4⟩
/-- BLS12-381 Fr. -/
abbrev dR : Descriptor := ⟨.w256, .montgomery, pR, standardConstBase 5⟩
/-- BLS12-381 Fq. -/
abbrev dQ : Descriptor := ⟨.w512, .montgomery, pQ, standardConstBase 6⟩

/-- The words `A` at 0x100 and `B` at 0x140, after reset. -/
def two (A B : Nat) : State := (State.reset.writeWide .w256 0x100 A).writeWide .w256 0x140 B
/-- The 512-bit values `A` at 0x100 and `B` at 0x200, after reset. -/
def two512 (A B : Nat) : State := (State.reset.writeWide .w512 0x100 A).writeWide .w512 0x200 B
/-- As `two`, with another configuration. -/
def configured (f : Config → Config) (A B : Nat) : State :=
  ({ State.reset with cfg := f Config.standard }.writeWide .w256 0x100 A).writeWide .w256 0x140 B
/-- As `two`, with `CHECK_POLICY = trust`. -/
def trusting : Nat → Nat → State := configured (fun c => { c with checkPolicy := .trust })
/-- As `two`, with `EQ_PRESERVES_A`. -/
def preserving : Nat → Nat → State := configured (fun c => { c with eqPreservesA := true })
/-- A state no run reaches: the scratch space is borrowed. -/
def busy : State := { two 1 2 with scratchBusy := true }
/-- A delegation call asked for. -/
def called (a b : Nat) (ctl : Ctl) : State := { two 5 3 with requests := [.call a b ctl] }
/-- The bytes 0, 1, … 31 at 0x201. -/
def counting : State := State.reset.writeBytes 0x201 ((List.range 32).map (BitVec.ofNat 8))
/-- The 32-byte encoding of `v` at 0x200. -/
def encoded (v : Nat) : State := State.reset.writeBytes 0x200 (beBytes 32 v)
/-- The 64-byte encoding of `v` at 0x200. -/
def encoded512 (v : Nat) : State := State.reset.writeBytes 0x200 (beBytes 64 v)

/-- The outcome is a next state of which `p` holds. -/
def finishes (o : Out) (p : State → Bool) : Bool :=
  match o with
  | .next t => p t
  | .fault _ => false
  | .refused _ => false
/-- The operation answers a next state of which `p` holds. -/
def leaves (i : Instr) (s : State) (p : State → Bool) : Bool := finishes (exec i s) p
/-- The outcome is this fault. -/
def faults (o : Out) (v : Fault) : Bool :=
  match o with
  | .next _ => false
  | .fault w => w == v
  | .refused _ => false
/-- The outcome is this refusal. -/
def refuses (o : Out) (r : Refusal) : Bool :=
  match o with
  | .next _ => false
  | .fault _ => false
  | .refused q => q == r
/-- The decoder reads `i` from the word. -/
def reads (ctl : Ctl) (i : Instr) : Bool :=
  match decode ctlTable ctl with
  | .ok j => j == i
  | .error _ => false
/-- The decoder rejects the word for its reserved bits. -/
def rejects (ctl : Ctl) : Bool :=
  match decode ctlTable ctl with
  | .ok _ => false
  | .error e => e == .reservedBits
/-- After reset, word `k` of the constants block of the field number `f` reads as `v`. -/
def constant (f k v : Nat) : Bool := State.reset.readWide .w256 (standardConstBase f + 32 * k) == v

/-! ### The decoder: words written out bit by bit from spec/30_encoding.md rule R70 -/

theorem test_decode_waluAdd : reads 0b00000000000000000000000000000000 (.waluAdd false) ∧ reads 0b00000000000000000000000001000000 (.waluAdd true) := by decide +kernel

theorem test_decode_waluSub : reads 0b00000000000000000000000000000001 (.waluSub false) ∧ reads 0b00000000000000000000000001000001 (.waluSub true) := by decide +kernel

theorem test_decode_waluSubNeg : reads 0b00000000000000000000000000000010 (.waluSubNeg false) ∧ reads 0b00000000000000000000000001000010 (.waluSubNeg true) := by decide +kernel

theorem test_decode_waluMulLo : reads 0b00000000000000000000000000000011 (.waluMulLo false) ∧ reads 0b00000000000000000000000001000011 (.waluMulLo true) := by decide +kernel

theorem test_decode_waluMulHi : reads 0b00000000000000000000000000000100 (.waluMulHi false) ∧ reads 0b00000000000000000000000001000100 (.waluMulHi true) := by decide +kernel

theorem test_decode_waluEq : reads 0b00000000000000000000000000000101 (.waluEq false) ∧ reads 0b00000000000000000000000001000101 (.waluEq true) := by decide +kernel

theorem test_decode_reserved : reads 0b00000000000000000000000000000110 (.reserved false) ∧ reads 0b00000000000000000000000001000110 (.reserved true) := by decide +kernel

theorem test_decode_waluMemCpy : reads 0b00000000000000000000000000000111 (.waluMemCpy false) ∧ reads 0b00000000000000000000000001000111 (.waluMemCpy true) := by decide +kernel

/-- spec/95_test_vectors.md section 10 rows 2 to 4; bit 5 besides. -/
theorem test_reserved_bits_rejected : rejects 0x00000008 ∧ rejects 0x00000020 ∧ rejects 0x00000080 ∧ rejects 0x80000000 := by decide +kernel

theorem test_decodeTableWord : decodeTableWord 32 0x41 = some (.waluSub true) ∧ decodeTableWord 32 0x09 = none := by decide +kernel

theorem test_opcode_rows_distinct : ctlTable.rows.Pairwise (fun r r' => r.value ≠ r'.value ∧ r.opcode ≠ r'.opcode) := by decide +kernel

/-! ### Well-formed operations: an ill-formed one for each check -/

theorem test_illformed_misaligned : Instr.wf Config.standard (.parity .w256 0x110) = false := by decide +kernel

theorem test_illformed_past_the_top : Instr.wf Config.standard (.halve .w256 0x100000000 true) = false := by decide +kernel

theorem test_illformed_high_half_past_the_top : Instr.wf Config.standard (.parity .w512 0xFFFFFFE0) = false := by decide +kernel

theorem test_illformed_byte_address : Instr.wf Config.standard (.beDecode .w256 0x100 0x100000000) = false := by decide +kernel

theorem test_illformed_byte_address_out : Instr.wf Config.standard (.beEncode .w256 0x100000000 0x100) = false := by decide +kernel

theorem test_illformed_overlap : Instr.wf Config.standard (.addMod 0 0x100 0x100) = false := by decide +kernel

theorem test_illformed_half_overlap : Instr.wf Config.standard (.addMod512 6 0x100 0x120) = false := by decide +kernel

theorem test_illformed_no_field : Instr.wf Config.standard (.doubleMod 7 0x100) = false := by decide +kernel

theorem test_illformed_wrong_width : Instr.wf Config.standard (.invMod 6 0x100) = false := by decide +kernel

theorem test_illformed_wrong_kind : Instr.wf Config.standard (.mulMont 0 0x100 0x140) = false := by decide +kernel

theorem test_illformed_wrong_kind_barrett : Instr.wf Config.standard (.squareBarret 4 0x100) = false := by decide +kernel

theorem test_illformed_no_field_bytes : Instr.wf Config.standard (.fromBytes 7 0x100 0x140) = false := by decide +kernel

theorem test_illformed_to_bytes_misaligned : Instr.wf Config.standard (.toBytes 0 0x100 0x141) = false := by decide +kernel

theorem test_illformed_literal : Instr.wf Config.standard (.parseDecimal .w256 ['1', '2', 'a', '4']) = false := by decide +kernel

theorem test_wellformed : Instr.wf Config.standard (.parity .w256 0xFFFFFFE0) = true ∧ Instr.wf Config.standard (.addMod512 6 0x100 0x140) = true ∧
    Instr.wf Config.standard (.mulMont 4 0x100 0x140) = true := by decide +kernel

/-! ### Configuration and constants (spec/95_test_vectors.md section 2) -/

theorem test_standard_config_ok : Config.standard.ok = true := by decide +kernel

/-- A literal that is no number fails the build of the configuration (rule R130). -/
theorem test_build_fails : standardPlatform.build [⟨.w256, .montgomery, ['9', '7', 'x'], 0x2000⟩] = none := by decide +kernel

/-- A scratch space that spans two regions is accepted, one that reaches past plain memory is not (rule R261 (b)). -/
theorem test_scratch_regions :
    Config.scratchOk { Config.standard with regions := [⟨0, 0x1080, .plain⟩, ⟨0x1080, 0x1000, .plain⟩] } = true ∧
    Config.scratchOk { Config.standard with regions := [⟨0, 0x1080, .plain⟩, ⟨0x1080, 0x1000, .readOnly⟩] } = false := by decide +kernel

theorem test_constants_secp256k1 : constant 0 4 0xC9BD1905155383999C46C2C295F2B761BCB223FEDC24A059D838091DD2253531 ∧
    constant 0 5 0x1000003D1 ∧ constant 0 6 0x1000007A2000E90A1 := by decide +kernel

theorem test_constants_bls12_fq : constant 6 3 0x1A0111EA397FE69A4B1BA7B6434BACD7 ∧
    constant 6 4 0x19ECCA0E8EB2DB4C16EF2EF0C8E30B48286ADB92D9D113E889F3FFFCFFFCFFFD ∧
    constant 6 7 0x10A8C1A49A064FF0A85A3F35446D0B := by decide +kernel

/-- Section 10 row 18. -/
theorem test_scalar_is_no_barrett_field : Descriptor.ok ⟨.w256, .barrett, 0xFFFFFFFFFFFFFFFFFFFFFFFFFFFFFFFEBAAEDCE6AF48A03BBFD25E8CD0364141, 0x2000⟩ = false := by decide +kernel

/-- Section 10 row 20, and composite moduli, the last a strong pseudoprime to the bases 2 and 3. -/
theorem test_bad_moduli : Descriptor.ok ⟨.w256, .montgomery, 10, 0x2000⟩ = false ∧ Descriptor.ok ⟨.w256, .montgomery, 15, 0x2000⟩ = false ∧
    Descriptor.ok ⟨.w256, .montgomery, 1373653, 0x2000⟩ = false ∧
    Descriptor.ok ⟨.w512, .montgomery, 2 ^ 511 + 111, 0x2000⟩ = false := by decide +kernel

/-! ### The primitives (section 4.1; the row is in the name) -/

theorem test_waluAdd_row4 : leaves (.waluAdd true) (two (W - 1) (W - 1)) (fun t => t.readWide .w256 0x100 == W - 1 && t.readWide .w256 0x140 == W - 1 && t.regCtl == 1) := by decide +kernel

theorem test_waluAdd_row5 : leaves (.waluAdd true) (two (W - 1) (0)) (fun t => t.readWide .w256 0x100 == 0 && t.readWide .w256 0x140 == 0 && t.regCtl == 1) := by decide +kernel

theorem test_waluSub_row9 : leaves (.waluSub false) (two (3) (5)) (fun t => t.readWide .w256 0x100 == W - 2 && t.readWide .w256 0x140 == 5 && t.regCtl == 1) := by decide +kernel

theorem test_waluSub_row13 : leaves (.waluSub true) (two (7) (6)) (fun t => t.readWide .w256 0x100 == 0 && t.readWide .w256 0x140 == 6 && t.regCtl == 0) := by decide +kernel

theorem test_waluSubNeg_row15 : leaves (.waluSubNeg false) (two (5) (3)) (fun t => t.readWide .w256 0x100 == W - 2 && t.readWide .w256 0x140 == 3 && t.regCtl == 1) := by decide +kernel

theorem test_waluSubNeg_row17 : leaves (.waluSubNeg true) (two (3) (5)) (fun t => t.readWide .w256 0x100 == 1 && t.readWide .w256 0x140 == 5 && t.regCtl == 0) := by decide +kernel

theorem test_waluMulLo_row24 : leaves (.waluMulLo true) (two (W - 1) (W - 1)) (fun t => t.readWide .w256 0x100 == 1 && t.readWide .w256 0x140 == W - 1) := by decide +kernel

theorem test_waluMulLo_row26 : leaves (.waluMulLo false) (two (2 ^ 128 + 1) (2 ^ 128 + 1)) (fun t => t.readWide .w256 0x100 == 2 ^ 129 + 1 && t.readWide .w256 0x140 == 2 ^ 128 + 1) := by decide +kernel

theorem test_waluMulHi_row30 : leaves (.waluMulHi true) (two (W - 1) (W - 1)) (fun t => t.readWide .w256 0x100 == W - 2 && t.readWide .w256 0x140 == W - 1) := by decide +kernel

theorem test_waluMulHi_row32 : leaves (.waluMulHi false) (two (2 ^ 128 + 1) (2 ^ 128 + 1)) (fun t => t.readWide .w256 0x100 == 1 && t.readWide .w256 0x140 == 2 ^ 128 + 1) := by decide +kernel

theorem test_waluEq_row35 : leaves (.waluEq true) (two (0) (0)) (fun t => t.regCtl == 1) := by decide +kernel

theorem test_waluEq_row34 : leaves (.waluEq false) (two (7) (2 ^ 255 + 7)) (fun t => t.regCtl == 0) := by decide +kernel

theorem test_waluMemCpy_row38 : leaves (.waluMemCpy true) (two (99) (41)) (fun t => t.readWide .w256 0x100 == 42 && t.readWide .w256 0x140 == 41 && t.regCtl == 0) := by decide +kernel

theorem test_waluMemCpy_row39 : leaves (.waluMemCpy true) (two (99) (W - 1)) (fun t => t.readWide .w256 0x100 == 0 && t.readWide .w256 0x140 == W - 1 && t.regCtl == 1) := by decide +kernel

theorem test_eq_preserves : leaves (.waluEq false) (preserving 7 7) (fun t =>
    t.readWide .w256 0x100 == 7 && t.readWide .w256 0x140 == 7 && t.flag) := by decide +kernel

theorem test_pc_advances : leaves (.waluAdd false) (two 1 2) (fun t => t.pc == 4 && t.regA == 0x100 && t.regB == 0x140) := by decide +kernel

/-! ### Violations (section 10; the row is in the name) -/

theorem test_row1_reserved : faults (exec (.reserved false) (two 5 3)) (.vReserved 6) ∧ refuses (exec (.reserved true) (trusting 5 3)) (.violated (.vReserved 0x46)) := by decide +kernel

theorem test_rows2_and_10 : faults (step (called 0x100 0x140 8)) (.vReserved 8) ∧ faults (step (called 0x101 0x140 6)) (.vReserved 6) := by decide +kernel

theorem test_rows5_and_6 : faults (step (called 0x110 0x140 0)) (.vAlign 0x110 0x140) ∧ faults (step (called 0x100 0x141 7)) (.vAlign 0x100 0x141) := by decide +kernel

theorem test_rows7_and_8 : faults (step (called 0x100 0x100 0)) (.vAlias 0x100) ∧ faults (step (called 0x100 0x100 5)) (.vAlias 0x100) := by decide +kernel

theorem test_row9_access : faults (step (called 0x2040 0x100 0)) (.vAccess 0x2040 0x100) := by decide +kernel

/-- The modulus copied from the constants block. -/
theorem test_constant_as_second_operand : finishes (step (called 0x100 0x2040 7)) (fun t => t.readWide .w256 0x100 == pK) := by decide +kernel

theorem test_rows11_to_13 : faults (exec (.addMod 0 0x100 0x100) (two 1 2)) (.vOverlap 0x100 0x100) ∧
    faults (exec (.addMod 0 0x1000 0x140) (two 1 2)) (.vOverlap 0x1000 0x140) ∧
    faults (exec (.addMod512 6 0x100 0x120) (two 1 2)) (.vOverlap 0x100 0x120) := by decide +kernel

theorem test_rows14_to_17 : refuses (exec (.addMod 0 0x100 0x140) (two pK pK)) .vRange ∧
    refuses (exec (.mulMont 5 0x100 0x140) (two (2 * pR - 1) (2 * pR - 1))) .vRange ∧
    refuses (exec (.negateMod 0 0x100) (two (pK + 1) 0)) .vRange ∧ refuses (exec (.invMod 0 0x100) (two pK 0)) .vRange := by decide +kernel

theorem test_row19_no_wide_barrett : refuses (exec (.mulBarret 6 0x100 0x140) (two 1 2)) .wrongWidth ∧ refuses (exec (.invMod 6 0x100) (two 1 2)) .wrongWidth := by decide +kernel

theorem test_reentry : faults (exec (.addMod 0 0x100 0x140) busy) .vReentry := by decide +kernel

/-! ### Value operations (section 3) -/

theorem test_parity : leaves (.parity .w256 0x100) (two pK 0) (fun t => t.ret == .bit true) ∧
    leaves (.parity .w256 0x100) (two (2 ^ 255) 0) (fun t => t.ret == .bit false) := by decide +kernel

theorem test_halve : leaves (.halve .w256 0x100 true) (two 1 0) (fun t => t.readWide .w256 0x100 == 2 ^ 255) ∧
    leaves (.halve .w256 0x100 false) (two (2 ^ 64) 0) (fun t => t.readWide .w256 0x100 == 2 ^ 63) := by decide +kernel

theorem test_halve_wide : leaves (.halve .w512 0x100 true) (two512 W 0) (fun t => t.readWide .w512 0x100 == 2 ^ 511 + 2 ^ 255) := by decide +kernel

theorem test_be_decode : leaves (.beDecode .w256 0x100 0x201) counting (fun t =>
    t.readWide .w256 0x100 == 0x000102030405060708090A0B0C0D0E0F101112131415161718191A1B1C1D1E1F &&
      t.readByte 0x100 == 0x1F && t.readByte 0x107 == 0x18 && t.readByte 0x108 == 0x17 && t.readByte 0x11F == 0) := by decide +kernel

theorem test_be_encode : leaves (.beEncode .w256 0x301 0x100) (two 258 0) (fun t =>
    t.readBytes 0x301 32 == List.replicate 30 0 ++ [1, 2]) := by decide +kernel

theorem test_from_bytes : leaves (.fromBytes 0 0x100 0x200) (encoded (pK - 1)) (fun t => t.ret == .bit true && t.readWide .w256 0x100 == pK - 1) ∧
    leaves (.fromBytes 0 0x100 0x200) (encoded pK) (fun t => t.ret == .bit false && t.readWide .w256 0x100 == 0) := by decide +kernel

theorem test_from_bytes_wide : leaves (.fromBytes 6 0x100 0x200) (encoded512 (pQ - 1)) (fun t => t.ret == .bit true && t.readWide .w512 0x100 == pQ - 1) ∧
    leaves (.fromBytes 6 0x100 0x200) (encoded512 pQ) (fun t => t.ret == .bit false) := by decide +kernel

theorem test_to_bytes : leaves (.toBytes 0 0x301 0x100) (two 1 0) (fun t => t.readBytes 0x301 32 == List.replicate 31 0 ++ [1]) := by decide +kernel

theorem test_parse_decimal : leaves (.parseDecimal .w256 ['0', '0', '0', '1', '2', '3']) State.reset (fun t => t.ret == .value 123) ∧
    refuses (exec (.parseDecimal .w256 []) State.reset) .badLiteral ∧
    refuses (exec (.parseDecimal .w256 ['-', '5']) State.reset) .badLiteral := by decide +kernel

/-- 2^256 does not fit four limbs. -/
theorem test_parse_decimal_too_large : decimalValue .w256 ['1', '1', '5', '7', '9', '2', '0', '8', '9', '2', '3', '7', '3', '1', '6', '1', '9', '5', '4', '2', '3', '5', '7', '0', '9', '8', '5', '0', '0', '8', '6', '8', '7', '9', '0', '7', '8', '5', '3', '2',
    '6', '9', '9', '8', '4', '6', '6', '5', '6', '4', '0', '5', '6', '4', '0', '3', '9', '4', '5', '7', '5', '8', '4', '0', '0', '7', '9', '1', '3', '1', '2', '9', '6', '3', '9', '9', '3', '6'] = none := by decide +kernel

/-! ### The 256-bit module (sections 4.2, 5, 6 and 7.1) -/

theorem test_add_mod : leaves (.addMod 0 0x100 0x140) (two (pK - 1) (pK - 1)) (fun t => t.readWide .w256 0x100 == pK - 2) := by decide +kernel

theorem test_add_mod_zero : addResult dN (pN - 1) 1 = 0 := by decide +kernel

theorem test_sub_mod : leaves (.subMod 0 0x100 0x140) (two (1) (2)) (fun t => t.readWide .w256 0x100 == pK - 1) := by decide +kernel

theorem test_sub_mod_equal : subResult dN 5 5 = 0 := by decide +kernel

theorem test_double_mod : leaves (.doubleMod 0 0x100) (two (pK - 1) (0)) (fun t => t.readWide .w256 0x100 == pK - 2) := by decide +kernel

theorem test_double_mod_half : doubleResult dN ((pN + 1) / 2) = 1 := by decide +kernel

theorem test_negate_mod : leaves (.negateMod 0 0x100) (two (0) (0)) (fun t => t.readWide .w256 0x100 == 0) := by decide +kernel

theorem test_negate_mod_modulus : negateResult dK pK = 0 ∧ negateResult dK 2 = pK - 2 := by decide +kernel

theorem test_lt : leaves (.lt 0 0x100 0x140) (two (2 ^ 255) (2 ^ 255 - 1)) (fun t => t.ret == .bit false) := by decide +kernel

theorem test_lt_zero : ltTest 0 (W - 1) = true ∧ ltTest 5 5 = false := by decide +kernel

theorem test_leq : leaves (.leq 0 0x100 0x140) (two (5) (5)) (fun t => t.ret == .bit true) := by decide +kernel

theorem test_leq_greater : leqTest 5 3 = false := by decide +kernel

theorem test_eq : leaves (.eq 0 0x100 0x140) (two (5) (5)) (fun t => t.ret == .bit true) := by decide +kernel

theorem test_eq_high_bit : eqTest 0 (2 ^ 255) = false := by decide +kernel

theorem test_is_zero : leaves (.isZero 0 0x100) (two (0) (0)) (fun t => t.ret == .bit true) := by decide +kernel

theorem test_is_zero_high_bit : zeroTest dK (2 ^ 255) = false := by decide +kernel

theorem test_is_one : leaves (.isOne 0 0x100) (two (1) (0)) (fun t => t.ret == .bit true) := by decide +kernel

theorem test_is_one_limb : oneTest dK (2 ^ 64 + 1) = false := by decide +kernel

theorem test_is_zero_mod : leaves (.isZeroMod 0 0x100) (two (pK) (0)) (fun t => t.ret == .bit true) := by decide +kernel

theorem test_is_zero_mod_below : zeroModTest dK (pK - 1) = false ∧ zeroModTest dK 0 = true := by decide +kernel

theorem test_mul_mont : leaves (.mulMont 4 0x100 0x140) (two (2) (3)) (fun t => t.readWide .w256 0x100 == 0x2474F869B56A848A42C61E4DC414B7478D39BA47049C9F1364787549CD50EAE7) := by decide +kernel

theorem test_mul_mont_corrects : montResult dR (pR - 1) (pR - 1) = 0x1BBE869330009D577204078A4F77266AAB6FCA8F09DC705F13F75B69FE75C040 := by decide +kernel

theorem test_square_mont : leaves (.squareMont 4 0x100) (two (pN - 1) (0)) (fun t => t.readWide .w256 0x100 == 0x2E67157159E5C639CF63E9CFB74492D9EB2022850278EDF8ED84884A014AFA37) := by decide +kernel

theorem test_square_mont_carries : montSquareResult dS 0xFFFFFFFFFFFFFFFFFFFFFFFFFFFFFFFEBAAEDCE6AF48A03BBFD25E8CD0364140 =
    0xD9E8890D6494EF93897F30C127CFAB5D3BBBD4567FA50C3C80FD22938097C016 := by decide +kernel

theorem test_to_representation : leaves (.toRepresentation 4 0x100) (two (2) (0)) (fun t => t.readWide .w256 0x100 == 0x1C14EF83340FBE5ECCDD46DEF0F28C5814F1D651EB8E167BA6BA871B8B1E1B3A) := by decide +kernel

theorem test_to_integer : leaves (.toInteger 4 0x100) (two (W - 1) (0)) (fun t => t.readWide .w256 0x100 == 0x01FD3901874BD9EFE8EC5BE6CA3CC583AC61480C65F8DC944E9C03CCD7320311) := by decide +kernel

theorem test_to_integer_modulus : toIntegerResult dN pN = 0 := by decide +kernel

theorem test_mul_barret : leaves (.mulBarret 0 0x100 0x140) (two (W - 1) (W - 1)) (fun t => t.readWide .w256 0x100 == 0x1000007A0000E8900) := by decide +kernel

theorem test_mul_barret_corrects : barretResult dK (pK - 1) (pK - 1) = 1 := by decide +kernel

theorem test_square_barret : leaves (.squareBarret 0 0x100) (two (0x5EB0452176688387F59BA79924D8CEA5C33F4584B23BC1D8493CD01609DE8895) (0)) (fun t => t.readWide .w256 0x100 == 0x6A0CB80C3126C8A15EFA6100A902BA7E988C83E9039F3530942D14030755D898) := by decide +kernel

theorem test_barrett_identity : leaves (.toRepresentationBarrett 0 0x100) (two (W - 1) (0)) (fun t => t.readWide .w256 0x100 == W - 1 && t.regCtl == 0 && t.pc == 0) := by decide +kernel

theorem test_barrett_identity_back : leaves (.toIntegerBarrett 0 0x100) (two (5) (0)) (fun t => t.readWide .w256 0x100 == 5 && t.regA == 0x100) := by decide +kernel

/-- The identity reads and writes nothing, so memory that is missing does not stop it. -/
theorem test_barrett_identity_no_access :
    leaves (.toIntegerBarrett 0 0x4000) (configured (fun c => { c with regions := [⟨0, 0x2000, .plain⟩] }) 1 2) (fun t => t.tick == 1) ∧
    faults (exec (.parity .w256 0x4000) (configured (fun c => { c with regions := [⟨0, 0x2000, .plain⟩] }) 1 2)) (.vAccess 0x4000 0x4000) := by decide +kernel

theorem test_inv_mod : leaves (.invMod 0 0x100) (two (3) (0)) (fun t => t.readWide .w256 0x100 == 0xAAAAAAAAAAAAAAAAAAAAAAAAAAAAAAAAAAAAAAAAAAAAAAAAAAAAAAA9FFFFFD75 && t.ret == .bit true) := by decide +kernel

theorem test_inv_mod_zero : leaves (.invMod 0 0x100) (two (0) (0)) (fun t => t.readWide .w256 0x100 == 0 && t.ret == .bit false) := by decide +kernel

/-! ### The 512-bit module (sections 7.2 and 8) -/

theorem test_add_mod512 : leaves (.addMod512 6 0x100 0x200) (two512 (W - 1) (1)) (fun t => t.readWide .w512 0x100 == W) := by decide +kernel

theorem test_add_mod512_wraps : addResult dQ (pQ - 1) 1 = 0 := by decide +kernel

theorem test_sub_mod512 : leaves (.subMod512 6 0x100 0x200) (two512 (0) (1)) (fun t => t.readWide .w512 0x100 == pQ - 1) := by decide +kernel

theorem test_sub_mod512_borrow : subResult dQ W 1 = W - 1 := by decide +kernel

theorem test_double_mod512 : leaves (.doubleMod512 6 0x100) (two512 (pQ - 1) (0)) (fun t => t.readWide .w512 0x100 == pQ - 2) := by decide +kernel

theorem test_double_mod512_half : doubleResult dQ ((pQ + 1) / 2) = 1 := by decide +kernel

theorem test_negate_mod512 : leaves (.negateMod512 6 0x100) (two512 (pQ) (0)) (fun t => t.readWide .w512 0x100 == 0) := by decide +kernel

theorem test_negate_mod512_word : negateResult dQ W = pQ - W := by decide +kernel

theorem test_lt512 : leaves (.lt512 6 0x100 0x200) (two512 (W - 1) (W)) (fun t => t.ret == .bit true) := by decide +kernel

theorem test_leq512 : leaves (.leq512 6 0x100 0x200) (two512 (W) (W)) (fun t => t.ret == .bit true) := by decide +kernel

theorem test_eq512 : leaves (.eq512 6 0x100 0x200) (two512 (1) (W + 1)) (fun t => t.ret == .bit false) := by decide +kernel

theorem test_is_zero512 : leaves (.isZero512 6 0x100) (two512 (W) (0)) (fun t => t.ret == .bit false) := by decide +kernel

theorem test_is_one512 : leaves (.isOne512 6 0x100) (two512 (W + 1) (0)) (fun t => t.ret == .bit false) := by decide +kernel

theorem test_is_zero_mod512 : leaves (.isZeroMod512 6 0x100) (two512 (pQ) (0)) (fun t => t.ret == .bit true) := by decide +kernel

theorem test_is_zero_mod512_double : zeroModTest dQ (2 * pQ) = false := by decide +kernel

theorem test_mul_mont512_corrects : leaves (.mulMont512 6 0x100 0x200) (two512 (2 ^ 200 + 1) (0x0978F7A90DE20768F9FBE67A642501F2BF7966DA2DEF86B0BAD172D34CF0F455D7E90F6B05A5FD0443D2E0EA11BE7542)) (fun t => t.readWide .w512 0x100 == 1) := by decide +kernel

theorem test_mul_mont512 : mont512Result dQ 2 3 = 0x09D2BD316527527637D044F52F29438D00122E471AEF0A03F6805591FF64DB0DDA5C2F7C86A634497E4E68320B61D23F := by decide +kernel

theorem test_square_mont512 : leaves (.squareMont512 6 0x100) (two512 (0x1735B4AFB1318FD55063DAAE54FD961B4E875FCF1FEE3AEFE4F8A219F37FEDDDD979C7BF086900B12381C67759D43E0E) (0)) (fun t => t.readWide .w512 0x100 == oneQ) := by decide +kernel

theorem test_to_representation512 : leaves (.toRepresentation512 6 0x100) (two512 (1) (0)) (fun t => t.readWide .w512 0x100 == oneQ) := by decide +kernel

theorem test_to_integer512 : leaves (.toInteger512 6 0x100) (two512 (W * W - 1) (0)) (fun t => t.readWide .w512 0x100 == 0x2B26374236418B0ADE1E5CAD8B066E1BB662F8A4EC3AC1F3D72BF827E8CAF2E60B7F815B1C7A1F3B49D6EA2536FA413) := by decide +kernel

theorem test_to_integer512_modulus : toInteger512Result dQ pQ = 0 := by decide +kernel

/-! ### Steps -/

theorem test_step_idle : finishes (step State.reset) (fun t => t == State.reset) := by decide +kernel

theorem test_first_instruction_after_reset : finishes (step (State.reset.withFetchWord 32 0x07)) (fun t => t.readWide .w256 0x100 == 0 && t.regCtl == 0 && t.pc == 4 && t.requests == []) := by decide +kernel

/-- The worked example of spec/40_walu_primitives.md rule R100. -/
theorem test_step_add : finishes (step ((two 5 3).withFetchWord 32 0x40)) (fun t => t.readWide .w256 0x100 == 9 && t.regCtl == 0) := by decide +kernel

theorem test_step_operation : finishes (step { two 1 2 with requests := [.op (.addMod 0 0x100 0x140)] }) (fun t => t.readWide .w256 0x100 == 3 && t.requests == []) := by decide +kernel

theorem test_reference_sequence : finishes (refSubMod 0 0x100 0x140 (two 1 2)) (fun t => t.readWide .w256 0x100 == pK - 1) := by decide +kernel

/-! ### Witnesses: states and operands that meet the hypotheses of the obligations -/

/-- An outcome that finishes is a next state. -/
theorem exists_next {o : Out} {p : State → Bool} (h : finishes o p = true) : ∃ t, o = .next t := by
  unfold finishes at h
  split at h
  · exact ⟨_, rfl⟩
  · cases h
  · cases h

theorem two_cfg (A B : Nat) : (two A B).cfg = Config.standard := by simp [two]; rfl
theorem two_busy (A B : Nat) : (two A B).scratchBusy = false := by simp [two]; rfl
theorem two512_cfg (A B : Nat) : (two512 A B).cfg = Config.standard := by simp [two512]; rfl
theorem two512_busy (A B : Nat) : (two512 A B).scratchBusy = false := by simp [two512]; rfl

/-- The checks on operands, as one evaluation over the configuration. -/
def passes (c : Config) (ops : List Operand) : Bool :=
  ops.all Operand.aligned && operandsDisjoint ops && ops.all (Operand.clear c) && ops.all (Operand.accessible c)

theorem legal_of_passes {s : State} {u : Bool} {ops : List Operand} (hc : s.cfg = Config.standard)
    (hb : s.scratchBusy = false) (h : passes Config.standard ops = true) : OpLegal s u ops := by
  simp only [passes, Bool.and_eq_true, List.all_eq_true, Operand.aligned, decide_eq_true_eq] at h
  exact ⟨⟨fun _ => hb, h.1.1.1, h.1.1.2, fun o ho => hc ▸ h.1.2 o ho⟩, fun o ho => hc ▸ h.2 o ho⟩

theorem legal_pair (A B : Nat) : OpLegal (two A B) true [mutOperand .w256 0x100, readOperand .w256 0x140] :=
  legal_of_passes (two_cfg A B) (two_busy A B) (by decide +kernel)
theorem legal_reads (A B : Nat) : OpLegal (two A B) true [readOperand .w256 0x100, readOperand .w256 0x140] :=
  legal_of_passes (two_cfg A B) (two_busy A B) (by decide +kernel)
theorem legal_one (u : Bool) (A B : Nat) : OpLegal (two A B) u [mutOperand .w256 0x100] :=
  legal_of_passes (two_cfg A B) (two_busy A B) (by decide +kernel)
theorem legal_read (u : Bool) (A B : Nat) : OpLegal (two A B) u [readOperand .w256 0x100] :=
  legal_of_passes (two_cfg A B) (two_busy A B) (by decide +kernel)
theorem legal_pair512 (A B : Nat) : OpLegal (two512 A B) true [mutOperand .w512 0x100, readOperand .w512 0x200] :=
  legal_of_passes (two512_cfg A B) (two512_busy A B) (by decide +kernel)
theorem legal_reads512 (A B : Nat) : OpLegal (two512 A B) true [readOperand .w512 0x100, readOperand .w512 0x200] :=
  legal_of_passes (two512_cfg A B) (two512_busy A B) (by decide +kernel)
theorem legal_one512 (u : Bool) (A B : Nat) : OpLegal (two512 A B) u [mutOperand .w512 0x100] :=
  legal_of_passes (two512_cfg A B) (two512_busy A B) (by decide +kernel)
theorem legal_read512 (u : Bool) (A B : Nat) : OpLegal (two512 A B) u [readOperand .w512 0x100] :=
  legal_of_passes (two512_cfg A B) (two512_busy A B) (by decide +kernel)

theorem ok_K : dK.ok = true := by decide +kernel
theorem ok_N : dN.ok = true := by decide +kernel
theorem ok_Q : dQ.ok = true := by decide +kernel
theorem binds_K (A B : Nat) : Binds (two A B).cfg 0 (some .w256) none dK :=
  two_cfg A B ▸ ⟨by decide +kernel, ok_K, by decide, by decide⟩
theorem binds_barrett (A B : Nat) : Binds (two A B).cfg 0 (some .w256) (some .barrett) dK :=
  two_cfg A B ▸ ⟨by decide +kernel, ok_K, by decide, by decide⟩
theorem binds_any (A B : Nat) : Binds (two A B).cfg 0 none none dK :=
  two_cfg A B ▸ ⟨by decide +kernel, ok_K, by decide, by decide⟩
theorem binds_mont (A B : Nat) : Binds (two A B).cfg 4 (some .w256) (some .montgomery) dN :=
  two_cfg A B ▸ ⟨by decide +kernel, ok_N, by decide, by decide⟩
theorem binds_Q (A B : Nat) : Binds (two512 A B).cfg 6 (some .w512) none dQ :=
  two512_cfg A B ▸ ⟨by decide +kernel, ok_Q, by decide, by decide⟩
theorem binds_mont512 (A B : Nat) : Binds (two512 A B).cfg 6 (some .w512) (some .montgomery) dQ :=
  two512_cfg A B ▸ ⟨by decide +kernel, ok_Q, by decide, by decide⟩

/-- A call that passes every check, with the operands at the top of their range. -/
def topCall : State := two (W - 1) (W - 1)
theorem legal_call (A B : Nat) : CallLegal (two A B) := by
  have hA : (two A B).regA = 0x100 := by simp [two]; rfl
  have hB : (two A B).regB = 0x140 := by simp [two]; rfl
  refine ⟨?_, ?_, ?_, ?_, ?_⟩ <;> simp only [hA, hB, two_cfg] <;> decide +kernel

theorem witness_ReservedWordsStop : (6#32).toNat % 8 = 6 ∧ (0xFFFFFFFE#32).toNat % 8 = 6 ∧
    (8#32).getLsbD 3 = true ∧ (0x20#32).getLsbD 5 = true ∧ (0x80#32).getLsbD 7 = true ∧
    (0x80000000#32).getLsbD 31 = true ∧ State.reset.cfg.ctl = ctlTable := by decide +kernel

theorem witness_StepRunsDecodedCall :
    (called 0x100 0x140 0x40).requests = [.call 0x100 0x140 0x40] ∧ (called 0x100 0x140 0x40).cfg.ok = true ∧
    (called 0x100 0x140 0x40).cfg.ctl = ctlTable ∧ reads 0x40 (.waluAdd true) = true ∧ decodeTableWord 32 0x40 = some (.waluAdd true) := by decide +kernel

theorem witness_StepRunsRequestedOperation :
    (let s := { two 1 2 with requests := [.op (.addMod 0 0x100 0x140)] }
     s.requests = [.op (.addMod 0 0x100 0x140)] ∧ s.cfg.ok = true) ∧ State.reset.requests = [] ∧
    (let s := { configured (fun c => { c with scratchBase := 0x2000 }) 1 2 with requests := [.op (.isZero 0 0x100)] }
     s.requests ≠ [] ∧ s.cfg.ok = false) := by decide +kernel

theorem witness_WaluAddResult : CallLegal topCall ∧ (topCall.readWord topCall.regA).toNat = W - 1 ∧
    (topCall.readWord topCall.regB).toNat = W - 1 := ⟨legal_call _ _, by decide +kernel⟩
theorem witness_WaluSubResult : CallLegal (two 0 (W - 1)) ∧
    ((two 0 (W - 1)).readWord (two 0 (W - 1)).regA).toNat = 0 ∧
    ((two 0 (W - 1)).readWord (two 0 (W - 1)).regB).toNat = W - 1 := ⟨legal_call _ _, by decide +kernel⟩
theorem witness_WaluSubNegResult : CallLegal (two (W - 1) 0) ∧
    ((two (W - 1) 0).readWord (two (W - 1) 0).regA).toNat = W - 1 ∧
    ((two (W - 1) 0).readWord (two (W - 1) 0).regB).toNat = 0 := ⟨legal_call _ _, by decide +kernel⟩
theorem witness_WaluMulHalves : CallLegal topCall ∧ (topCall.readWord topCall.regA).toNat = W - 1 ∧
    (topCall.readWord topCall.regB).toNat = W - 1 := witness_WaluAddResult
theorem witness_WaluEqResult : CallLegal topCall ∧
    callViolation (preserving 7 7) = none ∧ (preserving 7 7).cfg.eqPreservesA = true :=
  ⟨legal_call _ _, by decide +kernel⟩
theorem witness_WaluMemCpyResult : CallLegal topCall ∧ (topCall.readWord topCall.regB).toNat = W - 1 :=
  ⟨legal_call _ _, by decide +kernel⟩

theorem witness_CarryChainsAreExact :
    0x100 % 32 = 0 ∧ 0x140 % 32 = 0 ∧ disjointBlocks 0x100 64 0x140 64 = true ∧
    (two (W - 1) 1).cfg.writableBlock 0x100 64 = true ∧ (two (W - 1) 1).cfg.readableBlock 0x140 64 = true ∧
    (two (W - 1) 1).cfg.ctl = ctlTable := by decide +kernel

theorem witness_CallChecksInOrder :
    isPrimitive (.waluEq false) = true ∧
    (let s := { two 5 3 with regA := 0x11F }; s.regA % 32 ≠ 0 ∨ s.regB % 32 ≠ 0) ∧
    (let s := { two 5 3 with regB := 0x100 }; s.regA % 32 = 0 ∧ s.regB % 32 = 0 ∧ s.regA = s.regB) ∧
    (let s := { two 5 3 with regA := 0x20E0 }
     s.regA % 32 = 0 ∧ s.regB % 32 = 0 ∧ s.regA ≠ s.regB ∧ s.cfg.writableBlock s.regA 32 = false) ∧
    callViolation (two 5 3) = none := by decide +kernel

theorem witness_MisalignedOperandsStop :
    (isPrimitive (.waluAdd true) = true ∧ ({ two 5 3 with regA := 0x101 } : State).regA % 32 ≠ 0) ∧
    (fieldBound (two 1 2).cfg (.addMod 0 0x100 0x15F) = true ∧
      (∃ o ∈ operandsOf (two 1 2).cfg (.addMod 0 0x100 0x15F), o.addr % 32 ≠ 0) ∧ (two 1 2).scratchBusy = false) ∧
    (fieldBound busy.cfg (.addMod 0 0x100 0x15F) = true ∧
      (∃ o ∈ operandsOf busy.cfg (.addMod 0 0x100 0x15F), o.addr % 32 ≠ 0)) := by decide +kernel

theorem witness_ReentryStops : borrowsScratch (.addMod 0 0x100 0x140) = true ∧
    fieldBound busy.cfg (.addMod 0 0x100 0x140) = true ∧ busy.scratchBusy = true := by decide +kernel

/-- The last scratch word, the last word of a constants block, and two blocks that share a word. -/
theorem witness_OverlapStops :
    (let i : Instr := .addMod 0 0x1160 0x140
     fieldBound (two 1 2).cfg i = true ∧ (two 1 2).scratchBusy = false ∧
      (∀ o ∈ operandsOf (two 1 2).cfg i, o.addr % 32 = 0) ∧
      ∃ o ∈ operandsOf (two 1 2).cfg i, disjointBlocks o.addr o.bytes (two 1 2).cfg.scratchBase 384 = false) ∧
    (let i : Instr := .doubleMod 0 0x20E0
     fieldBound (two 1 2).cfg i = true ∧ (∀ o ∈ operandsOf (two 1 2).cfg i, o.addr % 32 = 0) ∧
      ∃ o ∈ operandsOf (two 1 2).cfg i, o.written = true ∧
        ∃ d ∈ (two 1 2).cfg.fields, disjointBlocks o.addr o.bytes d.constBase 256 = false) ∧
    (let i : Instr := .addMod512 6 0x100 0x120
     fieldBound (two 1 2).cfg i = true ∧ (∀ o ∈ operandsOf (two 1 2).cfg i, o.addr % 32 = 0) ∧
      operandsOf (two 1 2).cfg i = [mutOperand .w512 0x100, readOperand .w512 0x120] ∧
      disjointBlocks 0x100 64 0x120 64 = false) := by decide +kernel

theorem witness_ParityResult : OpLegal (two 1 0) false [readOperand .w256 0x100] ∧
    OpLegal (two512 W 0) false [readOperand .w512 0x100] ∧ 0x11F % 32 ≠ 0 :=
  ⟨legal_read _ _ _, legal_read512 _ _ _, by decide⟩
theorem witness_HalveResult : OpLegal (two (W - 1) 0) false [mutOperand .w256 0x100] ∧
    (two (W - 1) 0).readWide .w256 0x100 = W - 1 ∧ OpLegal (two512 W 0) false [mutOperand .w512 0x100] ∧
    0x101 % 32 ≠ 0 := ⟨legal_one _ _ _, by decide +kernel, legal_one512 _ _ _, by decide⟩
theorem witness_BeDecodeResult : OpLegal (two 0 0) false [mutOperand .w256 0x100] ∧
    (two 0 0).cfg.readableBlock 0xFFFFFFE0 32 = true ∧ OpLegal (two512 0 0) false [mutOperand .w512 0x100] ∧
    (two512 0 0).cfg.readableBlock 0xE1 64 = true := ⟨legal_one _ _ _, by decide +kernel, legal_one512 _ _ _, by decide +kernel⟩
theorem witness_BeEncodeResult : (OpLegal (two 258 0) false [readOperand .w256 0x100] ∧
    (two 258 0).cfg.writableBlock 0xFFFFFFE0 32 = true) ∧ 2 ^ 256 - 1 < 2 ^ Width.w256.bits ∧
    (List.replicate 64 (0 : Byte)).length = Width.w512.bytes := ⟨⟨legal_read _ _ _, by decide +kernel⟩, by decide +kernel, rfl⟩

theorem encoded_cfg (v : Nat) : (encoded v).cfg = Config.standard := by simp [encoded]; rfl
theorem encoded_busy (v : Nat) : (encoded v).scratchBusy = false := by simp [encoded]; rfl
/-- The largest value accepted and the smallest that is absent. -/
theorem witness_FromBytesResult :
    (∀ v, Binds (encoded v).cfg 0 none none dK ∧ OpLegal (encoded v) true [mutOperand .w256 0x100] ∧
      (encoded v).cfg.readableBlock 0x200 32 = true) ∧
    (pK - 1 = ∑ k ∈ Finset.range 32, ((encoded (pK - 1)).readByte (0x200 + k)).toNat * 2 ^ (8 * (31 - k))) ∧
    pK - 1 < dK.modulus ∧
    (pK = ∑ k ∈ Finset.range 32, ((encoded pK).readByte (0x200 + k)).toNat * 2 ^ (8 * (31 - k))) ∧ dK.modulus ≤ pK :=
  ⟨fun v => ⟨encoded_cfg v ▸ ⟨by decide +kernel, ok_K, by decide, by decide⟩,
      legal_of_passes (encoded_cfg v) (encoded_busy v) (by decide +kernel), by rw [encoded_cfg]; decide +kernel⟩,
    by decide +kernel, by decide, by decide +kernel, by decide⟩
theorem witness_ToBytesResult : Binds (two 1 0).cfg 0 none none dK ∧ OpLegal (two 1 0) false [readOperand .w256 0x100] ∧
    (two 1 0).cfg.writableBlock 0x301 32 = true := ⟨binds_any _ _, legal_read _ _ _, by decide +kernel⟩

/-- The number of an ASCII literal, as the obligation writes it. -/
def literal (lit : List Char) : Nat := 
  ∑ k ∈ Finset.range lit.length, ((lit.getD k '0').toNat - 48) * 10 ^ (lit.length - 1 - k)
theorem literal_large : 2 ^ Width.w256.bits ≤ literal ('1' :: List.replicate 78 '0') := by
  refine le_trans (b := 1 * 10 ^ 78) (by decide +kernel) ?_
  exact Finset.single_le_sum (s := Finset.range 79) (a := 0)
    (f := fun k => ((('1' :: List.replicate 78 '0').getD k '0').toNat - 48) * 10 ^ (79 - 1 - k))
    (fun _ _ => Nat.zero_le _) (Finset.mem_range.2 (by decide))
theorem witness_ParseDecimalResult :
    ((123 = literal ['0', '1', '2', '3'] ∧ ∀ ch ∈ ['0', '1', '2', '3'], 48 ≤ ch.toNat ∧ ch.toNat ≤ 57) ∧
      123 < 2 ^ Width.w256.bits) ∧
    (∃ ch ∈ ['1', 'a'], ch.toNat < 48 ∨ 57 < ch.toNat) ∧ (∃ ch ∈ ['-', '5'], ch.toNat < 48 ∨ 57 < ch.toNat) ∧
    2 ^ Width.w256.bits ≤ literal ('1' :: List.replicate 78 '0') ∧
    (standardPlatform.build standardSources = some Config.standard ∧
      (∃ f, standardSources[6]? = some f) ∧ Config.standard.fields[6]? = some dQ) :=
  ⟨⟨⟨by decide +kernel, by simp⟩, by decide +kernel⟩, ⟨'a', by simp, by decide⟩, ⟨'-', by simp, by decide⟩, literal_large,
    build_standard, ⟨_, rfl⟩, by decide +kernel⟩

theorem witness_ValueOperationsKeepRegisters :
    (isPrimitive (.parity .w256 0x100) = false ∧ borrowsScratch (.parity .w256 0x100) = false) ∧
    (∃ t, exec (.parity .w256 0x100) (two 1 0) = .next t) ∧
    (∃ t, exec (.toIntegerBarrett 0 0x100) (two 1 0) = .next t) :=
  ⟨by decide, exists_next (p := fun _ => true) (by decide +kernel), exists_next (p := fun _ => true) (by decide +kernel)⟩

/-- Sums just below and at `2p`. -/
theorem witness_AddModResult :
    (∀ A B, Binds (two A B).cfg 0 (some .w256) none dK ∧
      OpLegal (two A B) true [mutOperand .w256 0x100, readOperand .w256 0x140]) ∧
    ((two pK (pK - 1)).readWide .w256 0x100 = pK ∧ (two pK (pK - 1)).readWide .w256 0x140 = pK - 1 ∧
      pK + (pK - 1) < 2 * dK.modulus) ∧
    ((two pK pK).readWide .w256 0x100 = pK ∧ (two pK pK).readWide .w256 0x140 = pK ∧ 2 * dK.modulus ≤ pK + pK) :=
  ⟨fun A B => ⟨binds_K A B, legal_pair A B⟩, by decide +kernel, by decide +kernel⟩
theorem witness_SubModResult :
    (∀ A B, Binds (two A B).cfg 0 (some .w256) none dK ∧
      OpLegal (two A B) true [mutOperand .w256 0x100, readOperand .w256 0x140]) ∧
    ((two 0 (pK - 1)).readWide .w256 0x100 = 0 ∧ (two 0 (pK - 1)).readWide .w256 0x140 = pK - 1 ∧
      pK - 1 < dK.modulus) ∧
    (two 0 pK).readWide .w256 0x140 = pK ∧ dK.modulus ≤ pK :=
  ⟨fun A B => ⟨binds_K A B, legal_pair A B⟩, by decide +kernel, by decide +kernel⟩
/-- Values below, at and above `p`. -/
theorem witness_DoubleNegateResults :
    (∀ A B, Binds (two A B).cfg 0 (some .w256) none dK ∧ OpLegal (two A B) true [mutOperand .w256 0x100]) ∧
    ((two (pK - 1) 0).readWide .w256 0x100 = pK - 1 ∧ pK - 1 < dK.modulus) ∧
    ((two pK 0).readWide .w256 0x100 = pK ∧ dK.modulus ≤ pK ∧ pK ≤ dK.modulus) ∧
    ((two (pK + 1) 0).readWide .w256 0x100 = pK + 1 ∧ dK.modulus < pK + 1) :=
  ⟨fun A B => ⟨binds_K A B, legal_one _ A B⟩, by decide +kernel, by decide +kernel, by decide +kernel⟩
theorem witness_CompareResults (A B : Nat) : Binds (two A B).cfg 0 (some .w256) none dK ∧
    OpLegal (two A B) true [readOperand .w256 0x100, readOperand .w256 0x140] := ⟨binds_K A B, legal_reads A B⟩
theorem witness_ZeroOneTestResults (A B : Nat) : Binds (two A B).cfg 0 (some .w256) none dK ∧
    OpLegal (two A B) true [readOperand .w256 0x100] := ⟨binds_K A B, legal_read _ A B⟩

theorem witness_RedcFacts : dN.ok = true ∧ dN.width = .w256 ∧ W * W - 1 < W * W ∧
    (dN.modulus * W - 1 < W * W ∧ dN.modulus * W - 1 < dN.modulus * W) ∧ W - 1 < W ∧
    (dN.modulus ≠ 0 ∧ dN.modulus < W ∧ dN.modulus ∣ dN.modulus) :=
  ⟨ok_N, by decide, by decide +kernel, by decide +kernel, by decide +kernel, by decide +kernel⟩
/-- Products below and at least `p * W`. -/
theorem witness_MulMontResults :
    (∀ A B, Binds (two A B).cfg 4 (some .w256) (some .montgomery) dN ∧
      OpLegal (two A B) true [mutOperand .w256 0x100, readOperand .w256 0x140] ∧
      OpLegal (two A B) true [mutOperand .w256 0x100]) ∧
    ((two (W - 1) pN).readWide .w256 0x100 = W - 1 ∧ (two (W - 1) pN).readWide .w256 0x140 = pN ∧
      (W - 1) * pN < dN.modulus * W ∧ dN.modulus * W ≤ (W - 1) * (W - 1)) ∧
    ((two (W - 1) (pN + 1)).readWide .w256 0x140 = pN + 1 ∧ dN.modulus * W ≤ (W - 1) * (pN + 1)) ∧
    ((two (pN - 1) 0).readWide .w256 0x100 = pN - 1 ∧ (pN - 1) * (pN - 1) < dN.modulus * W) :=
  ⟨fun A B => ⟨binds_mont A B, legal_pair A B, legal_one _ A B⟩, by decide +kernel, by decide +kernel, by decide +kernel⟩
theorem witness_ConversionResults :
    (∀ A B, Binds (two A B).cfg 4 (some .w256) (some .montgomery) dN ∧ OpLegal (two A B) true [mutOperand .w256 0x100]) ∧
    ((two (pN - 1) 0).readWide .w256 0x100 = pN - 1 ∧ pN - 1 < dN.modulus) ∧
    ((two pN 0).readWide .w256 0x100 = pN ∧ dN.modulus ≤ pN) :=
  ⟨fun A B => ⟨binds_mont A B, legal_one _ A B⟩, by decide +kernel, by decide +kernel⟩
theorem witness_ConversionsMutuallyInverse :
    (∀ A B, OpLegal (two A B) true [mutOperand .w256 0x100] ∧
      Binds (two A B).cfg 4 (some .w256) (some .montgomery) dN ∧
      Binds (two A B).cfg 0 (some .w256) (some .barrett) dK) ∧
    (two (pN - 1) 0).readWide .w256 0x100 = pN - 1 ∧ pN - 1 < dN.modulus :=
  ⟨fun A B => ⟨legal_one _ A B, binds_mont A B, binds_barrett A B⟩, by decide +kernel⟩

theorem witness_MulBarretResults :
    (∀ A B, Binds (two A B).cfg 0 (some .w256) (some .barrett) dK ∧
      OpLegal (two A B) true [mutOperand .w256 0x100, readOperand .w256 0x140] ∧
      OpLegal (two A B) true [mutOperand .w256 0x100]) ∧
    (two (W - 1) (W - 1)).readWide .w256 0x100 = W - 1 ∧ (two (W - 1) (W - 1)).readWide .w256 0x140 = W - 1 :=
  ⟨fun A B => ⟨binds_barrett A B, legal_pair A B, legal_one _ A B⟩, by decide +kernel⟩
theorem witness_BarrettReductionFacts : 0 < dK.modulus ∧ dK.modulus < W ∧ W * W - 1 < W * W ∧
    (let c := W - dK.modulus; c * c < W + c + 1 ∧ c * (c + 1) ≤ W) := by decide +kernel
theorem witness_BarrettConversionsAreIdentity (A B : Nat) : Binds (two A B).cfg 0 (some .w256) (some .barrett) dK ∧
    OpPlaced (two A B) true [mutOperand .w256 0x100] ∧ 0x100 < (two A B).cfg.addrLimit :=
  ⟨binds_barrett A B, (legal_one _ A B).toOpPlaced, two_cfg A B ▸ by decide +kernel⟩

/-- Zero, one, the largest value and the modulus. -/
theorem witness_InvModResult :
    (∀ A B, Binds (two A B).cfg 0 (some .w256) none dK ∧ OpLegal (two A B) true [mutOperand .w256 0x100]) ∧
    (two 0 0).readWide .w256 0x100 = 0 ∧
    ((two 1 0).readWide .w256 0x100 = 1 ∧ 1 < dK.modulus ∧ Nat.gcd 1 dK.modulus = 1) ∧
    ((two (pK - 1) 0).readWide .w256 0x100 = pK - 1 ∧ pK - 1 < dK.modulus ∧ Nat.gcd (pK - 1) dK.modulus = 1) ∧
    ((two pK 0).readWide .w256 0x100 = pK ∧ dK.modulus ≤ pK ∧ pK ≠ 0 ∧ Nat.gcd pK dK.modulus ≠ 1) :=
  ⟨fun A B => ⟨binds_K A B, legal_one _ A B⟩, by decide +kernel, by decide +kernel, by decide +kernel, by decide +kernel⟩
theorem witness_InvertInMontgomeryForm : Binds (two 5 0).cfg 4 (some .w256) (some .montgomery) dN ∧
    OpLegal (two 5 0) true [mutOperand .w256 0x100] ∧ (two 5 0).readWide .w256 0x100 = 5 ∧ 5 < dN.modulus ∧
    Nat.gcd 5 dN.modulus = 1 := ⟨binds_mont _ _, legal_one _ _ _, by decide +kernel, by decide +kernel, by decide +kernel⟩

theorem witness_AddSubResults512 :
    (∀ A B, Binds (two512 A B).cfg 6 (some .w512) none dQ ∧
      OpLegal (two512 A B) true [mutOperand .w512 0x100, readOperand .w512 0x200]) ∧
    ((two512 pQ (pQ - 1)).readWide .w512 0x100 = pQ ∧ (two512 pQ (pQ - 1)).readWide .w512 0x200 = pQ - 1 ∧
      pQ + (pQ - 1) < 2 * dQ.modulus ∧ dQ.modulus ≤ pQ) ∧
    ((two512 pQ pQ).readWide .w512 0x200 = pQ ∧ 2 * dQ.modulus ≤ pQ + pQ) ∧
    ((two512 0 (pQ - 1)).readWide .w512 0x100 = 0 ∧ (two512 0 (pQ - 1)).readWide .w512 0x200 = pQ - 1 ∧
      pQ - 1 < dQ.modulus) :=
  ⟨fun A B => ⟨binds_Q A B, legal_pair512 A B⟩, by decide +kernel, by decide +kernel, by decide +kernel⟩
theorem witness_DoubleNegateResults512 :
    (∀ A B, Binds (two512 A B).cfg 6 (some .w512) none dQ ∧ OpLegal (two512 A B) true [mutOperand .w512 0x100]) ∧
    ((two512 (pQ - 1) 0).readWide .w512 0x100 = pQ - 1 ∧ pQ - 1 < dQ.modulus) ∧
    ((two512 pQ 0).readWide .w512 0x100 = pQ ∧ dQ.modulus ≤ pQ ∧ pQ ≤ dQ.modulus) ∧
    ((two512 (pQ + 1) 0).readWide .w512 0x100 = pQ + 1 ∧ dQ.modulus < pQ + 1) :=
  ⟨fun A B => ⟨binds_Q A B, legal_one512 _ A B⟩, by decide +kernel, by decide +kernel, by decide +kernel⟩
theorem witness_CompareResults512 (A B : Nat) : Binds (two512 A B).cfg 6 (some .w512) none dQ ∧
    OpLegal (two512 A B) true [readOperand .w512 0x100, readOperand .w512 0x200] := ⟨binds_Q A B, legal_reads512 A B⟩
theorem witness_ZeroOneTestResults512 (A B : Nat) : Binds (two512 A B).cfg 6 (some .w512) none dQ ∧
    OpLegal (two512 A B) true [readOperand .w512 0x100] := ⟨binds_Q A B, legal_read512 _ A B⟩

/-- `-(p^-1) mod R` of BLS12-381 Fq. -/
abbrev NQ : Nat :=
  0xE5736BD94581DADFD0D7F8727F7E27A0CEB06106FEAAFC9468B316FEE268CF5819ECCA0E8EB2DB4C16EF2EF0C8E30B48286ADB92D9D113E889F3FFFCFFFCFFFD
theorem witness_WordSerialReductionFacts : dQ.ok = true ∧ dQ.width = .w512 ∧ W * W - 1 < W * W ∧
    (pQ < W * W ∧ (W * W - 1) * pQ < dQ.modulus * (W * W)) ∧
    (dQ.modulus * NQ + 1) % (W * W) = 0 ∧ NQ < W * W :=
  ⟨ok_Q, by decide, by decide +kernel, by decide +kernel, by decide +kernel, by decide +kernel⟩
theorem witness_MulMontResults512 :
    (∀ A B, Binds (two512 A B).cfg 6 (some .w512) (some .montgomery) dQ ∧
      OpLegal (two512 A B) true [mutOperand .w512 0x100, readOperand .w512 0x200] ∧
      OpLegal (two512 A B) true [mutOperand .w512 0x100]) ∧
    ((two512 (W * W - 1) pQ).readWide .w512 0x100 = W * W - 1 ∧ (two512 (W * W - 1) pQ).readWide .w512 0x200 = pQ ∧
      (W * W - 1) * pQ < dQ.modulus * (W * W) ∧ dQ.modulus * (W * W) ≤ (W * W - 1) * (W * W - 1)) ∧
    ((two512 (W * W - 1) (pQ + 1)).readWide .w512 0x200 = pQ + 1 ∧
      dQ.modulus * (W * W) ≤ (W * W - 1) * (pQ + 1)) ∧
    ((two512 (pQ - 1) 0).readWide .w512 0x100 = pQ - 1 ∧ (pQ - 1) * (pQ - 1) < dQ.modulus * (W * W)) :=
  ⟨fun A B => ⟨binds_mont512 A B, legal_pair512 A B, legal_one512 _ A B⟩, by decide +kernel, by decide +kernel,
    by decide +kernel⟩
theorem witness_ConversionResults512 :
    (∀ A B, Binds (two512 A B).cfg 6 (some .w512) (some .montgomery) dQ ∧
      OpLegal (two512 A B) true [mutOperand .w512 0x100]) ∧
    ((two512 (pQ - 1) 0).readWide .w512 0x100 = pQ - 1 ∧ pQ - 1 < dQ.modulus) ∧
    ((two512 pQ 0).readWide .w512 0x100 = pQ ∧ dQ.modulus ≤ pQ) :=
  ⟨fun A B => ⟨binds_mont512 A B, legal_one512 _ A B⟩, by decide +kernel, by decide +kernel⟩
theorem witness_NoWideBarrettNorInversion : State.reset.cfg.fields[6]? = some dQ ∧ dQ.ok = true ∧ dQ.width = .w512 :=
  ⟨by decide +kernel, ok_Q, by decide⟩

theorem witness_ConstantsReadAsStated : State.reset.cfg.ok = true ∧ dK ∈ State.reset.cfg.fields ∧
    dQ ∈ State.reset.cfg.fields ∧ (∃ t, exec (.waluAdd false) (two 5 3) = .next t) ∧
    inBlock dK.constBase 256 0x2000 = true ∧ inBlock dK.constBase 256 0x20FF = true :=
  ⟨test_standard_config_ok, by decide +kernel, by decide +kernel,
    exists_next (p := fun _ => true) (by decide +kernel), by decide +kernel⟩
/-- A state with a request: it meets the invariant, and its step answers a next state. -/
theorem witness_StepKeepsInvariant :
    (let s := State.reset.withFetchWord 32 0x40; MachineInv s ∧ ∃ t, step s = .next t) :=
  ⟨⟨by decide +kernel, fun _ h => absurd h (List.not_mem_nil), by decide +kernel, by decide +kernel, by decide +kernel,
      by decide +kernel⟩, exists_next (p := fun _ => true) (by decide +kernel)⟩
theorem witness_WritesStayInWrittenBlocks : (∃ t, exec (.addMod 0 0x100 0x140) (two 1 2) = .next t) ∧
    (∀ b ∈ writtenBlocks (two 1 2) (.addMod 0 0x100 0x140), inBlock b.1 b.2 0xFF = false) ∧
    (∀ b ∈ writtenBlocks (two 1 2) (.addMod 0 0x100 0x140), inBlock b.1 b.2 0x120 = false) :=
  ⟨exists_next (p := fun _ => true) (by decide +kernel), by decide +kernel, by decide +kernel⟩
theorem witness_OnlyWellFormedComplete : ∃ t, exec (.halve .w256 0xFFFFFFE0 true) (two 1 0) = .next t :=
  exists_next (p := fun _ => true) (by decide +kernel)

/-- A descriptor whose modulus 9 is no prime, in a configuration otherwise as at reset. -/
def composite : Descriptor := ⟨.w256, .montgomery, 9, 0x4000⟩
theorem witness_DescriptorChecks :
    (let s := { configured (fun c => { c with fields := [composite] }) 1 2 with requests := [.op (.isZero 0 0x100)] }
     s.requests ≠ [] ∧ composite ∈ s.cfg.fields ∧ composite.ok = false) :=
  by decide +kernel

theorem witness_SequencesCarryOutArithmetic : (two 1 2).cfg.ok = true ∧
    (∃ t, exec (.addMod 0 0x100 0x140) (two 1 2) = .next t) ∧
    (∃ t, exec (.subMod 0 0x100 0x140) (two 1 2) = .next t) ∧
    (∃ t, exec (.doubleMod 0 0x100) (two 1 2) = .next t) ∧
    (∃ t, exec (.negateMod 0 0x100) (two 1 2) = .next t) :=
  ⟨by rw [two_cfg]; exact test_standard_config_ok,
    by unfold exec execAddMod; exact ⟨_, modBinary_of_legal (binds_K 1 2) (legal_pair 1 2) (by decide +kernel)⟩,
    by unfold exec execSubMod; exact ⟨_, modBinary_of_legal (binds_K 1 2) (legal_pair 1 2) (by decide +kernel)⟩,
    by unfold exec execDoubleMod; exact ⟨_, modUnary_of_legal (binds_K 1 2) (legal_one true 1 2) (by decide +kernel)⟩,
    by unfold exec execNegateMod; exact ⟨_, modUnary_of_legal (binds_K 1 2) (legal_one true 1 2) (by decide +kernel)⟩⟩
theorem witness_SequencesCarryOutComparisons : (two 1 2).cfg.ok = true ∧
    (∃ t, exec (.lt 0 0x100 0x140) (two 1 2) = .next t) ∧
    (∃ t, exec (.leq 0 0x100 0x140) (two 1 2) = .next t) ∧
    (∃ t, exec (.eq 0 0x100 0x140) (two 1 2) = .next t) ∧
    (∃ t, exec (.isZero 0 0x100) (two 1 2) = .next t) ∧
    (∃ t, exec (.isOne 0 0x100) (two 1 2) = .next t) ∧
    (∃ t, exec (.isZeroMod 0 0x100) (two 1 2) = .next t) :=
  ⟨by rw [two_cfg]; exact test_standard_config_ok,
    by unfold exec execLt; exact ⟨_, modCompare_of_legal (binds_K 1 2) (legal_reads 1 2)⟩,
    by unfold exec execLeq; exact ⟨_, modCompare_of_legal (binds_K 1 2) (legal_reads 1 2)⟩,
    by unfold exec execEq; exact ⟨_, modCompare_of_legal (binds_K 1 2) (legal_reads 1 2)⟩,
    by unfold exec execIsZero; exact ⟨_, modTest_of_legal (binds_K 1 2) (legal_read true 1 2)⟩,
    by unfold exec execIsOne; exact ⟨_, modTest_of_legal (binds_K 1 2) (legal_read true 1 2)⟩,
    by unfold exec execIsZeroMod; exact ⟨_, modTest_of_legal (binds_K 1 2) (legal_read true 1 2)⟩⟩
theorem witness_SequencesCarryOutMontgomery : (two 1 2).cfg.ok = true ∧
    (∃ t, exec (.mulMont 4 0x100 0x140) (two 1 2) = .next t) ∧
    (∃ t, exec (.squareMont 4 0x100) (two 1 2) = .next t) ∧
    (∃ t, exec (.toRepresentation 4 0x100) (two 1 2) = .next t) ∧
    (∃ t, exec (.toInteger 4 0x100) (two 1 2) = .next t) :=
  ⟨by rw [two_cfg]; exact test_standard_config_ok,
    by unfold exec execMulMont; exact ⟨_, modBinary_of_legal (binds_mont 1 2) (legal_pair 1 2) (by decide +kernel)⟩,
    by unfold exec execSquareMont; exact ⟨_, modUnary_of_legal (binds_mont 1 2) (legal_one true 1 2) (by decide +kernel)⟩,
    by unfold exec execToRepresentation; exact ⟨_, modUnary_of_legal (binds_mont 1 2) (legal_one true 1 2) (by decide +kernel)⟩,
    by unfold exec execToInteger; exact ⟨_, modUnary_of_legal (binds_mont 1 2) (legal_one true 1 2) (by decide +kernel)⟩⟩
theorem witness_SequencesCarryOutBarrett : (two 1 2).cfg.ok = true ∧
    (∃ t, exec (.mulBarret 0 0x100 0x140) (two 1 2) = .next t) ∧
    (∃ t, exec (.squareBarret 0 0x100) (two 1 2) = .next t) :=
  ⟨by rw [two_cfg]; exact test_standard_config_ok,
    by unfold exec execMulBarret; exact ⟨_, modBinary_of_legal (binds_barrett 1 2) (legal_pair 1 2) (by decide +kernel)⟩,
    by unfold exec execSquareBarret; exact ⟨_, modUnary_of_legal (binds_barrett 1 2) (legal_one true 1 2) (by decide +kernel)⟩⟩
theorem witness_SequencesCarryOutWideArithmetic : (two512 1 2).cfg.ok = true ∧
    (∃ t, exec (.addMod512 6 0x100 0x200) (two512 1 2) = .next t) ∧
    (∃ t, exec (.subMod512 6 0x100 0x200) (two512 1 2) = .next t) ∧
    (∃ t, exec (.doubleMod512 6 0x100) (two512 1 2) = .next t) ∧
    (∃ t, exec (.negateMod512 6 0x100) (two512 1 2) = .next t) ∧
    (∃ t, exec (.lt512 6 0x100 0x200) (two512 1 2) = .next t) ∧
    (∃ t, exec (.leq512 6 0x100 0x200) (two512 1 2) = .next t) ∧
    (∃ t, exec (.eq512 6 0x100 0x200) (two512 1 2) = .next t) ∧
    (∃ t, exec (.isZero512 6 0x100) (two512 1 2) = .next t) ∧
    (∃ t, exec (.isOne512 6 0x100) (two512 1 2) = .next t) ∧
    (∃ t, exec (.isZeroMod512 6 0x100) (two512 1 2) = .next t) :=
  ⟨by rw [two512_cfg]; exact test_standard_config_ok,
    by unfold exec execAddMod512; exact ⟨_, modBinary_of_legal (binds_Q 1 2) (legal_pair512 1 2) (by decide +kernel)⟩,
    by unfold exec execSubMod512; exact ⟨_, modBinary_of_legal (binds_Q 1 2) (legal_pair512 1 2) (by decide +kernel)⟩,
    by unfold exec execDoubleMod512; exact ⟨_, modUnary_of_legal (binds_Q 1 2) (legal_one512 true 1 2) (by decide +kernel)⟩,
    by unfold exec execNegateMod512; exact ⟨_, modUnary_of_legal (binds_Q 1 2) (legal_one512 true 1 2) (by decide +kernel)⟩,
    by unfold exec execLt512; exact ⟨_, modCompare_of_legal (binds_Q 1 2) (legal_reads512 1 2)⟩,
    by unfold exec execLeq512; exact ⟨_, modCompare_of_legal (binds_Q 1 2) (legal_reads512 1 2)⟩,
    by unfold exec execEq512; exact ⟨_, modCompare_of_legal (binds_Q 1 2) (legal_reads512 1 2)⟩,
    by unfold exec execIsZero512; exact ⟨_, modTest_of_legal (binds_Q 1 2) (legal_read512 true 1 2)⟩,
    by unfold exec execIsOne512; exact ⟨_, modTest_of_legal (binds_Q 1 2) (legal_read512 true 1 2)⟩,
    by unfold exec execIsZeroMod512; exact ⟨_, modTest_of_legal (binds_Q 1 2) (legal_read512 true 1 2)⟩⟩
theorem witness_SequencesCarryOutWideMontgomery : (two512 1 2).cfg.ok = true ∧
    (∃ t, exec (.mulMont512 6 0x100 0x200) (two512 1 2) = .next t) ∧
    (∃ t, exec (.squareMont512 6 0x100) (two512 1 2) = .next t) ∧
    (∃ t, exec (.toRepresentation512 6 0x100) (two512 1 2) = .next t) ∧
    (∃ t, exec (.toInteger512 6 0x100) (two512 1 2) = .next t) :=
  ⟨by rw [two512_cfg]; exact test_standard_config_ok,
    by unfold exec execMulMont512; exact ⟨_, modBinary_of_legal (binds_mont512 1 2) (legal_pair512 1 2) (by decide +kernel)⟩,
    by unfold exec execSquareMont512; exact ⟨_, modUnary_of_legal (binds_mont512 1 2) (legal_one512 true 1 2) (by decide +kernel)⟩,
    by unfold exec execToRepresentation512; exact ⟨_, modUnary_of_legal (binds_mont512 1 2) (legal_one512 true 1 2) (by decide +kernel)⟩,
    by unfold exec execToInteger512; exact ⟨_, modUnary_of_legal (binds_mont512 1 2) (legal_one512 true 1 2) (by decide +kernel)⟩⟩

end Sys2Proof.Tests
end

section
/-! PROOF. Modulus descriptors and their constants blocks (spec/10_state.md rules R31 and R32): when a descriptor is accepted,
that its reduction constants are the ones named there, and that every state reads the block as stated. -/

namespace Sys2Proof

/-! ### Inverses modulo `W` -/

/-- One lifting doubles the number of low bits in which `x` is an inverse of `p`: `1 - p x'` is `(1 - p x)^2` modulo `W`. -/
theorem liftInverse_dvd {p x m : Nat} (hx : (m : ℤ) ∣ p * x - 1) (hm : m * m ∣ W) :
    ((m * m : Nat) : ℤ) ∣ p * liftInverse p x - 1 := by
  have hlt : p * x % W < W := Nat.mod_lt _ (by simp)
  have hpx : (p * x : ℤ) = W * (p * x / W : Nat) + (p * x % W : Nat) := by
    exact_mod_cast (Nat.div_add_mod (p * x) W).symm
  obtain ⟨q, hq⟩ : ∃ q : Nat, (liftInverse p x : ℤ) = x * (2 + W - (p * x % W : Nat)) - W * q := by
    refine ⟨x * (2 + W - p * x % W) / W, ?_⟩
    have := Nat.div_add_mod (x * (2 + W - p * x % W)) W
    rw [liftInverse, ← Nat.cast_ofNat (R := ℤ) (n := 2), ← Nat.cast_add, ← Nat.cast_sub (by omega)]
    exact eq_sub_of_add_eq' (by exact_mod_cast this)
  have hsq : (p * liftInverse p x - 1 : ℤ) =
      W * (p * x + p * x * (p * x / W : Nat) - p * q) - (p * x - 1) * (p * x - 1) := by
    rw [hq, eq_sub_of_add_eq' hpx.symm]; ring
  have hmW : ((m * m : Nat) : ℤ) ∣ (W : Nat) := Int.natCast_dvd_natCast.2 hm
  rw [hsq]
  exact dvd_sub (hmW.mul_right _) (by rw [Nat.cast_mul]; exact mul_dvd_mul hx hx)

/-- `inverseModW p` is an inverse of an odd `p` modulo `W`: the eight liftings go from one bit to `2^8` bits. -/
theorem dvd_mul_inverseModW_sub_one {p : Nat} (hp : p % 2 = 1) : (W : ℤ) ∣ p * inverseModW p - 1 := by
  have lift {x : Nat} (k : Nat) (hk : 2 ^ k ≤ 128) (hx : ((2 ^ 2 ^ k : Nat) : ℤ) ∣ p * x - 1) :
      ((2 ^ 2 ^ (k + 1) : Nat) : ℤ) ∣ p * liftInverse p x - 1 := by
    have hsq : 2 ^ 2 ^ (k + 1) = 2 ^ 2 ^ k * 2 ^ 2 ^ k := by rw [← pow_add, pow_succ, mul_two]
    rw [hsq]
    exact liftInverse_dvd hx (by rw [← pow_add]; exact pow_dvd_pow 2 (by omega))
  have h0 : ((2 ^ 2 ^ 0 : Nat) : ℤ) ∣ p * (1 : Nat) - 1 := by omega
  have h8 := lift 7 (by decide) (lift 6 (by decide) (lift 5 (by decide) (lift 4 (by decide)
    (lift 3 (by decide) (lift 2 (by decide) (lift 1 (by decide) (lift 0 (by decide) h0)))))))
  exact_mod_cast h8

theorem inverseModW_lt (p : Nat) : inverseModW p < W := Nat.mod_lt _ (by simp)

/-- The model writes the two-word bound as a product of powers it can evaluate. -/
theorem two_pow_511 : 2 ^ 511 = W * 2 ^ 255 := by rw [show 511 = 256 + 255 from rfl, pow_add]

namespace Descriptor

variable {d : Descriptor}

/-! ### When a descriptor is accepted -/

theorem ok_iff : d.ok = true ↔
    d.modulus % 2 = 1 ∧ d.inRange = true ∧ d.kindOk = true ∧ d.modulus.Prime := by
  simp [Descriptor.ok, primeTest_iff, and_assoc]

theorem inRange_iff : d.inRange = true ↔
    (d.width = .w256 → 3 ≤ d.modulus ∧ d.modulus < 2 ^ 256) ∧
    (d.width = .w512 → 2 ^ 256 < d.modulus ∧ d.modulus < 2 ^ 511) := by
  unfold Descriptor.inRange
  cases d.width with
  | w256 => simp [-Nat.reducePow]
  | w512 => simp [-Nat.reducePow, two_pow_511]

theorem kindOk_iff : d.kindOk = true ↔
    (d.kind = .barrett → d.width = .w256 ∧ d.negp * (d.negp + 1) ≤ W) := by
  unfold Descriptor.kindOk
  cases hk : d.kind <;> simp

/-- On one word `NEGP` is `2^256 - p` itself. -/
theorem negp_eq_sub (h0 : 0 < d.modulus) (hlt : d.modulus < W) : d.negp = W - d.modulus := by
  rw [Descriptor.negp, Nat.mod_eq_of_lt hlt, Nat.mod_eq_of_lt (by omega)]

/-- The two-word bound holds of every accepted modulus. -/
theorem modulus_lt_of_inRange (h : d.inRange = true) : d.modulus < W * W := by
  obtain ⟨h256, h512⟩ := inRange_iff.1 h
  cases hw : d.width with
  | w256 => exact (h256 hw).2.trans (lt_mul_self (Nat.one_lt_two_pow (by decide)))
  | w512 =>
    refine (h512 hw).2.trans ?_
    rw [two_pow_511]
    exact Nat.mul_lt_mul_of_pos_left (Nat.pow_lt_pow_right (by decide) (by decide)) (by simp)

/-! ### The reduction constants -/

theorem negp_add_modulus_mod (d : Descriptor) : (d.negp + d.modulus) % W = 0 := by
  have hlt := Nat.mod_lt d.modulus (show 0 < W by simp)
  rw [Descriptor.negp, Nat.mod_add_mod, ← Nat.add_mod_mod, Nat.sub_add_cancel hlt.le, Nat.mod_self]

/-- `p N' = -1 (mod W)` for an odd modulus. -/
theorem modulus_mul_nprime_mod (hp : d.modulus % 2 = 1) : (d.modulus * d.nprime + 1) % W = 0 := by
  have hinv := dvd_mul_inverseModW_sub_one hp
  have hadd : W ∣ d.nprime + inverseModW d.modulus := by
    apply Nat.dvd_of_mod_eq_zero
    rw [Descriptor.nprime, Nat.mod_add_mod, Nat.sub_add_cancel (inverseModW_lt _).le, Nat.mod_self]
  apply Nat.mod_eq_zero_of_dvd
  have hsub : ((d.modulus * d.nprime + 1 : Nat) : ℤ) =
      d.modulus * ((d.nprime + inverseModW d.modulus : Nat) : ℤ) - (d.modulus * inverseModW d.modulus - 1) := by
    push_cast; ring
  rw [← Int.natCast_dvd_natCast, hsub]
  exact dvd_sub ((Int.natCast_dvd_natCast.2 hadd).mul_left _) hinv

/-- Every word of an accepted descriptor's block is a word. -/
theorem constWord_lt (h : d.ok = true) (k : Nat) : d.constWord k < W := by
  have hW : 0 < W := by simp
  obtain ⟨-, hr, -, hprime⟩ := ok_iff.1 h
  have hp := modulus_lt_of_inRange hr
  have hr2 : d.r2 < W * W := (Nat.mod_lt _ hprime.pos).trans hp
  match k with
  | 0 => exact Nat.one_lt_two_pow (by decide)
  | 1 | _ + 8 => exact hW
  | 2 | 4 | 5 | 6 => exact Nat.mod_lt _ hW
  | 3 => exact Nat.div_lt_of_lt_mul hp
  | 7 => exact Nat.div_lt_of_lt_mul hr2

end Descriptor

/-! ### The layout of an accepted configuration -/

theorem pairwiseDisjoint_iff (bs : List (Nat × Nat)) :
    pairwiseDisjoint bs = true ↔ bs.Pairwise (fun b b' => disjointBlocks b.1 b.2 b'.1 b'.2 = true) := by
  induction bs with
  | nil => simp [pairwiseDisjoint]
  | cons b bs ih => simp [pairwiseDisjoint, ih]

namespace Config

variable {c : Config} {d : Descriptor}

theorem descriptor_ok_of_ok (h : c.ok = true) (hd : d ∈ c.fields) : d.ok = true := by
  simp only [Config.ok, Bool.and_eq_true, List.all_eq_true] at h
  exact h.2 d hd

theorem layoutOk_of_ok (h : c.ok = true) : c.layoutOk = true := by
  simp only [Config.ok, Bool.and_eq_true] at h
  exact h.1.2

theorem constBase_aligned (h : c.layoutOk = true) (hd : d ∈ c.fields) : d.constBase % 32 = 0 := by
  simp only [Config.layoutOk, Bool.and_eq_true, List.all_eq_true, decide_eq_true_eq] at h
  exact (h.1.1 d hd).1

/-- The constants blocks of two different descriptors do not meet. -/
theorem constBlocks_disjoint (h : c.layoutOk = true) {d' : Descriptor} (hd : d ∈ c.fields) (hd' : d' ∈ c.fields)
    (hne : d ≠ d') : d.constBase + constBlockBytes ≤ d'.constBase ∨ d'.constBase + constBlockBytes ≤ d.constBase := by
  simp only [Config.layoutOk, Bool.and_eq_true] at h
  have hpw := ((pairwiseDisjoint_iff _).1 h.1.2).of_cons
  simp only [Config.constBlocks, List.pairwise_map, Machine.disjointBlocks_iff] at hpw
  have hsymm : Std.Symm fun e e' : Descriptor => e.constBase + constBlockBytes ≤ e'.constBase ∨
      e'.constBase + constBlockBytes ≤ e.constBase := ⟨fun _ _ => Or.symm⟩
  exact hpw.forall hd hd' hne

/-- An address of a field's constants block belongs to that field. -/
theorem constField?_eq_some (h : c.layoutOk = true) (hd : d ∈ c.fields) {x : Nat}
    (hx : inBlock d.constBase constBlockBytes x = true) : c.constField? x = some d := by
  unfold Config.constField?
  cases hf : c.fields.find? (fun e => inBlock e.constBase constBlockBytes x) with
  | none => exact absurd hx (List.find?_eq_none.1 hf d hd)
  | some e =>
    by_contra hne
    have hdisj := constBlocks_disjoint h hd (List.mem_of_find?_eq_some hf) (fun he => hne (by rw [he]))
    have hxe := List.find?_some hf
    rw [Machine.inBlock_iff] at hx hxe
    omega

theorem constByte?_eq_some (h : c.layoutOk = true) (hd : d ∈ c.fields) {x : Nat}
    (hx : inBlock d.constBase constBlockBytes x = true) : c.constByte? x = some (d.constByte (x - d.constBase)) := by
  rw [Config.constByte?, constField?_eq_some h hd hx]

end Config

namespace Machine

/-! ### What a constants block reads as -/

theorem getElem_leBytes (n v i : Nat) (h : i < (leBytes n v).length) :
    (leBytes n v)[i] = BitVec.ofNat 8 (v / 2 ^ (8 * i)) := by
  induction n generalizing v i with
  | zero => simp [leBytes] at h
  | succ n ih =>
    cases i with
    | zero => simp [leBytes]
    | succ i =>
      simp only [leBytes, List.getElem_cons_succ]
      rw [ih, Nat.div_div_eq_div_mul, Nat.mul_succ, Nat.pow_add, Nat.mul_comm (2 ^ (8 * i))]

/-- A word whose bytes are those of `v` reads as `v`. -/
theorem State.toNat_readWord_of_bytes {s : State} {a v : Nat}
    (h : ∀ i < 32, s.readByte (a + i) = BitVec.ofNat 8 (v / 2 ^ (8 * i))) (hv : v < W) : (s.readWord a).toNat = v := by
  have hbytes : s.readBytes a 32 = leBytes 32 v := by
    refine List.ext_getElem (by simp) fun i hi _ => ?_
    rw [State.getElem_readBytes, getElem_leBytes, h i (by simpa using hi)]
  have h256 : 256 ^ 32 = W := by decide
  rw [State.readWord, State.memRead, hbytes, leValue_leBytes, h256, BitVec.toNat_ofNat, Nat.mod_mod,
    Nat.mod_eq_of_lt hv]

section
variable {s : State} {d : Descriptor}

theorem State.readByte_constBlock (hl : s.cfg.layoutOk = true) (hd : d ∈ s.cfg.fields) {i : Nat}
    (hi : i < constBlockBytes) : s.readByte (d.constBase + i) = d.constByte i := by
  have hx : inBlock d.constBase constBlockBytes (d.constBase + i) = true := (inBlock_iff _ _ _).2 (by omega)
  rw [State.readByte_const s (Config.constByte?_eq_some hl hd hx), Nat.add_sub_cancel_left]

/-- Word `k` of a constants block reads as the descriptor says (spec/10_state.md rule R32). -/
theorem State.readWord_constBlock (hc : s.cfg.ok = true) (hd : d ∈ s.cfg.fields) {k : Nat} (hk : k < 8) :
    (s.readWord (d.constBase + 32 * k)).toNat = d.constWord k := by
  refine State.toNat_readWord_of_bytes (fun i hi => ?_) (Descriptor.constWord_lt (Config.descriptor_ok_of_ok hc hd) k)
  rw [Nat.add_assoc, State.readByte_constBlock (Config.layoutOk_of_ok hc) hd (by unfold constBlockBytes; omega),
    Descriptor.constByte, show (32 * k + i) / 32 = k by omega, show (32 * k + i) % 32 = i by omega]

/-- Two states with one accepted layout read a constants block alike. -/
theorem State.readByte_constBlock_congr {t : State} (hcfg : t.cfg = s.cfg) (hl : s.cfg.layoutOk = true)
    (hd : d ∈ s.cfg.fields) {x : Nat} (hx : inBlock d.constBase constBlockBytes x = true) :
    t.readByte x = s.readByte x := by
  have hbyte := Config.constByte?_eq_some hl hd hx
  rw [State.readByte_const s hbyte, State.readByte_const t (by rw [hcfg]; exact hbyte)]

end

/-! ### No operation changes the configuration -/

section
variable {s t : State}

theorem delegationCall_cfg {prim : Word → Word → PrimResult} (h : delegationCall prim s = .next t) : t.cfg = s.cfg := by
  obtain ⟨-, rfl⟩ := delegationCall_next h
  simp [callResult]

theorem modBinary_cfg {w : Width} {k : Option RedKind} {rng : Descriptor → Nat → Nat → Bool}
    {res : Descriptor → Nat → Nat → Nat} {f dst src : Nat} (h : modBinary w k rng res f dst src s = .next t) :
    t.cfg = s.cfg := by
  obtain ⟨d, -, -, -, rfl⟩ := modBinary_next h
  simp

theorem modUnary_cfg {w : Width} {k : Option RedKind} {rng : Descriptor → Nat → Bool}
    {res : Descriptor → Nat → Nat} {f dst : Nat} (h : modUnary w k rng res f dst s = .next t) : t.cfg = s.cfg := by
  obtain ⟨d, -, -, -, rfl⟩ := modUnary_next h
  simp

theorem modCompare_cfg {w : Width} {test : Nat → Nat → Bool} {f a b : Nat} (h : modCompare w test f a b s = .next t) :
    t.cfg = s.cfg := by
  obtain ⟨d, -, -, rfl⟩ := modCompare_next h
  simp

theorem modTest_cfg {w : Width} {test : Descriptor → Nat → Bool} {f a : Nat} (h : modTest w test f a s = .next t) :
    t.cfg = s.cfg := by
  obtain ⟨d, -, -, rfl⟩ := modTest_next h
  simp

theorem modIdentity_cfg {f dst : Nat} (h : modIdentity f dst s = .next t) : t.cfg = s.cfg := by
  obtain ⟨d, -, -, -, rfl⟩ := modIdentity_next h
  simp

/-- What `inv_mod` can do: answer `ok = 0` for zero, or store the inverse and answer `ok = 1`. -/
theorem execInvMod_next {f dst : Nat} (h : execInvMod f dst s = .next t) :
    ∃ d, Binds s.cfg f (some .w256) none d ∧ OpLegal s true [mutOperand .w256 dst] ∧
      invRange d (s.readWide .w256 dst) = true ∧
      ((s.readWide .w256 dst = 0 ∧ t = s.beginOp.completeOp (.bit false)) ∨
       (s.readWide .w256 dst ≠ 0 ∧ t = (s.beginOp.writeWide .w256 dst
          (inverseMod d.modulus (s.readWide .w256 dst))).completeOp (.bit true))) := by
  obtain ⟨d, hb, hl, h⟩ := moduleOp_next h
  simp only [State.readWide_beginOp] at h
  split at h
  · next hr =>
    refine ⟨d, hb, hl, hr, ?_⟩
    split at h
    · next hz => exact .inl ⟨hz, (Host.Outcome.next.inj h).symm⟩
    · next hz => exact .inr ⟨hz, (Host.Outcome.next.inj h).symm⟩
  · cases h

/-- What `from_bytes` can do: answer that no value is there, or store the value and answer that it is. -/
theorem execFromBytes_next {f dst bytes : Nat} (h : execFromBytes f dst bytes s = .next t) :
    ∃ d, Binds s.cfg f none none d ∧ OpLegal s true [mutOperand d.width dst] ∧
      bytesAccessible s.cfg false bytes d.width.bytes = true ∧
      ((d.modulus ≤ beValue (s.readBytes bytes d.width.bytes) ∧ t = s.beginOp.completeOp (.bit false)) ∨
       (beValue (s.readBytes bytes d.width.bytes) < d.modulus ∧ t = (s.beginOp.writeWide d.width dst
          (beValue (s.readBytes bytes d.width.bytes))).completeOp (.bit true))) := by
  unfold execFromBytes at h
  split at h
  · cases h
  next d hd =>
  split at h
  · exact absurd h (by simp)
  next ho =>
  split at h
  · next ha =>
    refine ⟨d, (bindField_eq_ok_iff ..).1 hd, (opViolation_eq_none_iff ..).1 ho, ha, ?_⟩
    dsimp only at h
    split at h
    · next hp => exact .inl ⟨hp, (Host.Outcome.next.inj h).symm⟩
    · next hp => exact .inr ⟨Nat.lt_of_not_le hp, (Host.Outcome.next.inj h).symm⟩
  · exact absurd h (by simp)

/-- What `parity` can do. -/
theorem execParity_next {n : Width} {a : Nat} (h : execParity n a s = .next t) :
    OpLegal s false [readOperand n a] ∧ t = s.completeReadOnly (.bit ((s.readByte a).getLsbD 0)) := by
  obtain ⟨hl, -, h⟩ := limbOp_next h
  exact ⟨hl, (Host.Outcome.next.inj h).symm⟩

/-- What `halve` can do. -/
theorem execHalve_next {n : Width} {a : Nat} {cin : Bool} (h : execHalve n a cin s = .next t) :
    OpLegal s false [mutOperand n a] ∧
      t = (s.writeWide n a (halveValue n (s.readWide n a) cin)).completeLimbOp .none := by
  obtain ⟨hl, -, h⟩ := limbOp_next h
  exact ⟨hl, (Host.Outcome.next.inj h).symm⟩

/-- What `be_decode` can do. -/
theorem execBeDecode_next {n : Width} {dst bytes : Nat} (h : execBeDecode n dst bytes s = .next t) :
    OpLegal s false [mutOperand n dst] ∧ bytesAccessible s.cfg false bytes n.bytes = true ∧
      t = (s.writeWide n dst (beValue (s.readBytes bytes n.bytes))).completeLimbOp .none := by
  obtain ⟨hl, hb, h⟩ := limbOp_next h
  exact ⟨hl, hb, (Host.Outcome.next.inj h).symm⟩

/-- What `be_encode` can do. -/
theorem execBeEncode_next {n : Width} {bytes src : Nat} (h : execBeEncode n bytes src s = .next t) :
    OpLegal s false [readOperand n src] ∧ bytesAccessible s.cfg true bytes n.bytes = true ∧
      t = (s.writeBytes bytes (beBytes n.bytes (s.readWide n src))).completeLimbOp .none := by
  obtain ⟨hl, hb, h⟩ := limbOp_next h
  exact ⟨hl, hb, (Host.Outcome.next.inj h).symm⟩

/-- What `to_bytes` can do: `be_encode` at the width of its field. -/
theorem execToBytes_next {f bytes src : Nat} (h : execToBytes f bytes src s = .next t) :
    ∃ d, Binds s.cfg f none none d ∧ execBeEncode d.width bytes src s = .next t := by
  unfold execToBytes at h
  split at h
  · cases h
  next d hd => exact ⟨d, (bindField_eq_ok_iff ..).1 hd, h⟩

/-- What `parse_decimal` can do. -/
theorem execParseDecimal_next {n : Width} {lit : List Char} (h : execParseDecimal n lit s = .next t) :
    ∃ v, decimalValue n lit = some v ∧ t = s.returnValue v := by
  unfold execParseDecimal at h
  split at h
  · next v hv => exact ⟨v, hv, (Host.Outcome.next.inj h).symm⟩
  · cases h

theorem execBeEncode_cfg {n : Width} {bytes src : Nat} (h : execBeEncode n bytes src s = .next t) : t.cfg = s.cfg := by
  obtain ⟨-, -, rfl⟩ := execBeEncode_next h
  simp

theorem execInvMod_cfg {f dst : Nat} (h : execInvMod f dst s = .next t) : t.cfg = s.cfg := by
  obtain ⟨d, -, -, -, ⟨-, rfl⟩ | ⟨-, rfl⟩⟩ := execInvMod_next h <;> simp

theorem execFromBytes_cfg {f dst bytes : Nat} (h : execFromBytes f dst bytes s = .next t) : t.cfg = s.cfg := by
  obtain ⟨d, -, -, -, ⟨-, rfl⟩ | ⟨-, rfl⟩⟩ := execFromBytes_next h <;> simp

/-- The configuration is fixed (spec/10_state.md rule R39): an operation that completes leaves it as it was. -/
theorem exec_cfg {i : Instr} (h : exec i s = .next t) : t.cfg = s.cfg := by
  cases i with
  | waluAdd | waluSub | waluSubNeg | waluMulLo | waluMulHi | waluEq | waluMemCpy => exact delegationCall_cfg h
  | reserved => exact absurd h (State.violate_ne_next _ _ _)
  | parity =>
    obtain ⟨-, rfl⟩ := execParity_next h
    simp
  | halve =>
    obtain ⟨-, rfl⟩ := execHalve_next h
    simp
  | beDecode =>
    obtain ⟨-, -, rfl⟩ := execBeDecode_next h
    simp
  | beEncode => exact execBeEncode_cfg h
  | fromBytes => exact execFromBytes_cfg h
  | toBytes =>
    obtain ⟨d, -, h⟩ := execToBytes_next h
    exact execBeEncode_cfg h
  | parseDecimal =>
    obtain ⟨v, -, rfl⟩ := execParseDecimal_next h
    simp
  | toRepresentationBarrett | toIntegerBarrett => exact modIdentity_cfg h
  | invMod => exact execInvMod_cfg h
  | addMod | subMod | mulMont | mulBarret | addMod512 | subMod512 | mulMont512 => exact modBinary_cfg h
  | doubleMod | negateMod | squareMont | toRepresentation | toInteger | squareBarret | doubleMod512 | negateMod512
  | squareMont512 | toRepresentation512 | toInteger512 => exact modUnary_cfg h
  | lt | leq | eq | lt512 | leq512 | eq512 => exact modCompare_cfg h
  | isZero | isOne | isZeroMod | isZero512 | isOne512 | isZeroMod512 => exact modTest_cfg h

/-- A request is refused under a configuration the model does not accept (spec/70_reset_and_hazards.md rule R261). -/
theorem step_of_not_ok (hr : s.requests ≠ []) (hc : s.cfg.ok = false) : step s = .refused .badConfig := by
  unfold step
  split
  · next h => exact absurd h hr
  all_goals simp [hc]

end

/-! ### The obligations -/

/-- Settles O48: the words are those of the block (`State.readWord_constBlock`), and an operation keeps the configuration, which
alone determines them. -/
theorem constantsReadAsStated : Obligations.ConstantsReadAsStated := by
  unfold Obligations.ConstantsReadAsStated
  intro s d hc hd
  have hl := Config.layoutOk_of_ok hc
  obtain ⟨hodd, -, -, -⟩ := Descriptor.ok_iff.1 (Config.descriptor_ok_of_ok hc hd)
  have word {k : Nat} (hk : k < 8) := State.readWord_constBlock hc hd hk
  have h0 : (s.readWord d.constBase).toNat = 1 := word (k := 0) (by decide)
  have h1 : (s.readWord (d.constBase + 32)).toNat = 0 := word (k := 1) (by decide)
  have h2 : (s.readWord (d.constBase + 64)).toNat = d.modulus % W := word (k := 2) (by decide)
  have h3 : (s.readWord (d.constBase + 96)).toNat = d.modulus / W := word (k := 3) (by decide)
  have h4 : (s.readWord (d.constBase + 128)).toNat = d.nprime := word (k := 4) (by decide)
  have h5 : (s.readWord (d.constBase + 160)).toNat = d.negp := word (k := 5) (by decide)
  have h6 : (s.readWord (d.constBase + 192)).toNat = d.r2 % W := word (k := 6) (by decide)
  have h7 : (s.readWord (d.constBase + 224)).toNat = d.r2 / W := word (k := 7) (by decide)
  refine ⟨Config.constBase_aligned hl hd, h0, h1, h2, h3, ?_, ?_, h6, h7, ?_, ?_, ?_, ?_⟩
  · rw [h4]; exact Descriptor.modulus_mul_nprime_mod hodd
  · rw [h5]; exact Descriptor.negp_add_modulus_mod d
  · rw [State.readWide, h0, h1, Nat.mul_zero]
  · rw [State.readWide, h2, Nat.add_assoc, h3, Nat.mod_add_div]
  · rw [State.readWide, h6, Nat.add_assoc, h7, Nat.mod_add_div]; rfl
  · intro i t x hi hx
    exact State.readByte_constBlock_congr (exec_cfg hi) hl hd hx

/-- Settles O54: the checks of `Descriptor.ok` one by one, with `NEGP = 2^256 - p` on one word; and a configuration that holds a
bad descriptor is not accepted, so that `step` refuses the request. -/
theorem descriptorChecks : Obligations.DescriptorChecks := by
  unfold Obligations.DescriptorChecks
  refine ⟨fun d => ?_, fun s d hr hd hbad => ?_⟩
  · rw [Descriptor.ok_iff, Descriptor.inRange_iff, Descriptor.kindOk_iff]
    have hnegp (h256 : d.width = .w256 → 3 ≤ d.modulus ∧ d.modulus < 2 ^ 256) (hw : d.width = .w256) :
        d.negp = 2 ^ 256 - d.modulus := Descriptor.negp_eq_sub (by have := h256 hw; omega) (h256 hw).2
    constructor
    · rintro ⟨hodd, ⟨h256, h512⟩, hkind, hprime⟩
      refine ⟨hodd, hprime, h256, h512, fun hk => ?_⟩
      obtain ⟨hw, hle⟩ := hkind hk
      exact ⟨hw, by rwa [hnegp h256 hw] at hle⟩
    · rintro ⟨hodd, hprime, h256, h512, hkind⟩
      refine ⟨hodd, ⟨h256, h512⟩, fun hk => ?_, hprime⟩
      obtain ⟨hw, hle⟩ := hkind hk
      exact ⟨hw, by rwa [hnegp h256 hw]⟩
  · have hc : s.cfg.ok = false := by
      rw [Bool.eq_false_iff]
      intro hc
      simp [Config.descriptor_ok_of_ok hc hd] at hbad
    exact step_of_not_ok hr hc

end Machine
end Sys2Proof
end

section
/-! PROOFS. The control word (spec/30_encoding.md): what `decode` and `CtlTable.word` answer, for any table, and the decoding of
every word of the opcode map of rule R74. -/

namespace Sys2Proof

/-! ### The decoder and the opcode map -/

/-- When a word decodes: no reserved bit is set and the map has a row for the `op` field. -/
theorem decode_eq_ok_iff {t : CtlTable} {ctl : Ctl} {i : Instr} :
    decode t ctl = .ok i ↔ t.rsvField ctl = 0 ∧
      ∃ r, t.rows.find? (fun r => r.value == t.opField ctl) = some r ∧ r.opcode.instr (t.cinField ctl) = i := by
  unfold decode
  split
  · next hrsv =>
    split
    · next r hr => rw [hr]; simp [hrsv]
    · next hr => rw [hr]; simp
  · next hrsv => exact iff_of_false nofun fun h => hrsv h.1

/-- When an opcode has a word: the map has a row for it, whose value makes the word together with the bit of `cin`. -/
theorem CtlTable.word_eq_some_iff {t : CtlTable} {o : Opcode} {cin : Bool} {ctl : Ctl} :
    t.word o cin = some ctl ↔ ∃ r, t.rows.find? (fun r => r.opcode == o) = some r ∧
      BitVec.ofNat 32 (r.value + if cin then 2 ^ t.cinBit else 0) = ctl := by
  unfold CtlTable.word
  split
  · next r hr => rw [hr]; simp
  · next hr => rw [hr]; simp

/-- Rule R72 on the words of the map: the three fields give back what a word was made of. -/
theorem ctlTable_fields_of_row : ∀ r ∈ ctlTable.rows, ∀ cin : Bool,
    let ctl := BitVec.ofNat 32 (r.value + if cin then 2 ^ ctlTable.cinBit else 0)
    ctlTable.rsvField ctl = 0 ∧ ctlTable.opField ctl = r.value ∧ ctlTable.cinField ctl = cin := by decide

/-- No two rows of the map have the same value, so that looking one up by its value finds it. -/
theorem ctlTable_find_value : ∀ r ∈ ctlTable.rows,
    ctlTable.rows.find? (fun r' => r'.value == r.value) = some r := by decide

/-- Rule R74: the word of an opcode and a carry-in decodes to the operation of that opcode with that carry-in. -/
theorem decode_of_word (o : Opcode) (cin : Bool) {ctl : Ctl} (h : ctlTable.word o cin = some ctl) :
    decode ctlTable ctl = .ok (o.instr cin) := by
  obtain ⟨r, hr, rfl⟩ := CtlTable.word_eq_some_iff.1 h
  have hmem : r ∈ ctlTable.rows := List.mem_of_find?_eq_some hr
  have ho : r.opcode = o := by simpa using List.find?_some hr
  obtain ⟨hrsv, hop, hcin⟩ := ctlTable_fields_of_row r hmem cin
  refine decode_eq_ok_iff.2 ⟨hrsv, r, ?_, ?_⟩
  · rw [hop]; exact ctlTable_find_value r hmem
  · rw [hcin, ho]

namespace Machine

/-! ### The obligations -/

/-- Settles O1: each number of the table of rule R74 is the word of its row's opcode with the carry-in of its column. -/
theorem controlWordsOfTheMap : Obligations.ControlWordsOfTheMap := by
  unfold Obligations.ControlWordsOfTheMap
  exact ⟨decode_of_word .add false rfl, decode_of_word .add true rfl,
    decode_of_word .sub false rfl, decode_of_word .sub true rfl,
    decode_of_word .subAndNegate false rfl, decode_of_word .subAndNegate true rfl,
    decode_of_word .mulLow false rfl, decode_of_word .mulLow true rfl,
    decode_of_word .mulHigh false rfl, decode_of_word .mulHigh true rfl,
    decode_of_word .eq false rfl, decode_of_word .eq true rfl,
    decode_of_word .memCpy false rfl, decode_of_word .memCpy true rfl⟩

end Machine
end Sys2Proof
end

section
/-! PROOFS. The seven primitives (spec/40_walu_primitives.md): what a completed delegation call leaves, whichever primitive it
selects (rule R100), the arithmetic of the primitives (rules R101 to R107), and their control words (rule R74). -/

namespace Sys2Proof.Machine

/-! ### The control word of an opcode -/

/-- A row of the opcode map of rule R74: the word for each carry-in gives the word for every one. -/
theorem ctlTable_word_eq_ite {o : Opcode} {w₀ w₁ : Ctl} (h₀ : ctlTable.word o false = some w₀)
    (h₁ : ctlTable.word o true = some w₁) (cin : Bool) : ctlTable.word o cin = some (if cin then w₁ else w₀) := by
  cases cin with
  | false => exact h₀
  | true => exact h₁

/-! ### What a completed call leaves -/

section
variable {prim : Word → Word → PrimResult} {s : State}

/-- The result word of rule R73 is the flag as a number. -/
theorem State.toNat_regCtl_completeCall (s : State) (f : Bool) : (s.completeCall f).regCtl.toNat = f.toNat := by
  cases f with
  | false => rfl
  | true => rfl

@[simp] theorem State.flag_completeCall (s : State) (f : Bool) : (s.completeCall f).flag = f := by
  simp [State.flag]

theorem State.nextPc_of_lt (h : s.pc + s.cfg.ilen < s.cfg.addrLimit) : s.nextPc = s.pc + s.cfg.ilen := if_pos h

theorem State.nextPc_congr {t : State} (hcfg : t.cfg = s.cfg) (hpc : t.pc = s.pc) (htick : t.tick = s.tick) :
    t.nextPc = s.nextPc := by
  rw [State.nextPc, hcfg, hpc, htick, State.nextPc]

/-- The frame of rule R100 holds of every primitive. -/
theorem callFrame_callResult (prim : Word → Word → PrimResult) (s : State) : CallFrame s (callResult prim s) where
  cfg := by simp [callResult]
  regA := by simp [callResult]
  regB := by simp [callResult]
  upper k hk := by
    have hk0 : k ≠ 0 := by omega
    simp [callResult, hk0]
  pc h := by
    rw [callResult, State.completeCall_pc,
      State.nextPc_congr (State.writeResult_cfg s _) (State.writeResult_pc s _) (State.writeResult_tick s _),
      State.nextPc_of_lt h]
  scratchBusy := by simp [callResult]
  requests := by simp [callResult]
  memory x hx := readByte_callResult_outside prim s x hx

/-- The word at `REG_B` survives a legal call: two distinct aligned words do not meet. -/
theorem readWord_regB_callResult (h : CallLegal s) : (callResult prim s).readWord s.regB = s.readWord s.regB := by
  obtain ⟨hA, hB, hne, -, -⟩ := h
  exact State.readWord_congr fun i hi => readByte_callResult_outside prim s _ (by omega)

theorem toNat_regCtl_callResult (prim : Word → Word → PrimResult) (s : State) :
    (callResult prim s).regCtl.toNat = (prim (s.readWord s.regA) (s.readWord s.regB)).flag.toNat :=
  State.toNat_regCtl_completeCall _ _

theorem flag_callResult (prim : Word → Word → PrimResult) (s : State) :
    (callResult prim s).flag = (prim (s.readWord s.regA) (s.readWord s.regB)).flag :=
  State.flag_completeCall _ _

/-- A primitive that writes no word changes no byte. -/
theorem sameBytes_callResult_of_result_eq_none (h : (prim (s.readWord s.regA) (s.readWord s.regB)).result = none) :
    sameBytes s (callResult prim s) := by
  intro x
  rw [callResult, State.readByte_completeCall, State.writeResult, h]

end

/-! ### The arithmetic of the primitives -/

/-- The carry of rules R101 and R107 is the quotient by `W`: no such sum reaches `2 W`. -/
theorem toNat_carryOut {sum : Nat} (h : sum < 2 * W) : (carryOut sum).toNat = sum / W := by
  rw [carryOut]
  by_cases hW : W ≤ sum
  · rw [decide_eq_true hW, Nat.div_eq_of_lt_le (k := 1) (by omega) (by omega), Bool.toNat_true]
  · rw [decide_eq_false hW, Nat.div_eq_of_lt (by omega), Bool.toNat_false]

/-- A value below `n` reaches `n` by adding one bit only from `n - 1`. -/
theorem le_add_toNat_iff {n B : Nat} {cin : Bool} (h : B < n) : n ≤ B + cin.toNat ↔ B = n - 1 ∧ cin = true := by
  cases cin with
  | false => simp [h]
  | true => simp only [Bool.toNat_true, and_true]; omega

/-- The borrow of rules R102 and R103: an exact difference is negative when more is taken away than there is. -/
theorem borrowOut_sub (A B c : Nat) : borrowOut ((A : Int) - B - c) = decide (A < B + c) :=
  decide_eq_decide.2 (by omega)

/-- The word of an exact difference is its residue modulo `W`. -/
theorem natCast_toNat_ofInt (d : Int) : ((BitVec.ofInt 256 d).toNat : Int) = d % (W : Int) := by
  rw [BitVec.toNat_ofInt, Int.toNat_of_nonneg (Int.emod_nonneg d (by simp))]

/-- The high half of a product of two words is a word, so `MulHigh` cuts nothing off. -/
theorem toNat_ofNat_mul_div (A B : Word) : (BitVec.ofNat 256 (A.toNat * B.toNat / W)).toNat = A.toNat * B.toNat / W := by
  rw [BitVec.toNat_ofNat]
  exact Nat.mod_eq_of_lt (Nat.div_lt_of_lt_mul (Nat.mul_lt_mul'' A.isLt B.isLt))

/-! ### The obligations -/

/-- Settles O7: the sum of two words and a carry-in is below `2 W`; its residue and quotient by `W` are the two results. -/
theorem waluAddResult : Obligations.WaluAddResult := by
  unfold Obligations.WaluAddResult
  intro cin s A B
  refine ⟨ctlTable_word_eq_ite (o := .add) rfl rfl cin, ?_⟩
  rintro hl rfl rfl
  refine ⟨_, delegationCall_of_legal (primAdd cin) hl, callFrame_callResult _ s, readWord_regB_callResult hl, ?_, ?_⟩
  · rw [readWord_callResult_same hl rfl, BitVec.toNat_ofNat]
  · have hA : (s.readWord s.regA).toNat < W := (s.readWord s.regA).isLt
    have hB : (s.readWord s.regB).toNat < W := (s.readWord s.regB).isLt
    have hc := cin.toNat_le
    rw [toNat_regCtl_callResult]
    exact toNat_carryOut (by omega)

/-- Settles O8: the word and the borrow of the exact difference `A - B - cin`. -/
theorem waluSubResult : Obligations.WaluSubResult := by
  unfold Obligations.WaluSubResult
  intro cin s A B
  refine ⟨ctlTable_word_eq_ite (o := .sub) rfl rfl cin, ?_⟩
  rintro hl rfl rfl
  refine ⟨_, delegationCall_of_legal (primSub cin) hl, callFrame_callResult _ s, readWord_regB_callResult hl, ?_, ?_⟩
  · rw [readWord_callResult_same hl rfl, natCast_toNat_ofInt]
  · rw [flag_callResult, primSub, borrowOut_sub]

/-- Settles O9: as for `Sub`, of the exact difference `B - A - cin` (conflict C1). -/
theorem waluSubNegResult : Obligations.WaluSubNegResult := by
  unfold Obligations.WaluSubNegResult
  intro cin s A B
  refine ⟨ctlTable_word_eq_ite (o := .subAndNegate) rfl rfl cin, ?_⟩
  rintro hl rfl rfl
  refine ⟨_, delegationCall_of_legal (primSubNeg cin) hl, callFrame_callResult _ s, readWord_regB_callResult hl, ?_, ?_⟩
  · rw [readWord_callResult_same hl rfl, natCast_toNat_ofInt]
  · rw [flag_callResult, primSubNeg, borrowOut_sub]

/-- Settles O10: the two calls leave the residue and the quotient by `W` of one product, which together are the product. -/
theorem waluMulHalves : Obligations.WaluMulHalves := by
  unfold Obligations.WaluMulHalves
  intro c c' s A B
  refine ⟨ctlTable_word_eq_ite (o := .mulLow) rfl rfl c, ctlTable_word_eq_ite (o := .mulHigh) rfl rfl c', ?_⟩
  rintro hl rfl rfl
  have hlo : ((callResult (primMulLo (mulFlag s)) s).readWord s.regA).toNat =
      (s.readWord s.regA).toNat * (s.readWord s.regB).toNat % W := by
    rw [readWord_callResult_same hl rfl, BitVec.toNat_ofNat]
  have hhi : ((callResult (primMulHi (mulFlag s)) s).readWord s.regA).toNat =
      (s.readWord s.regA).toNat * (s.readWord s.regB).toNat / W := by
    rw [readWord_callResult_same hl rfl, toNat_ofNat_mul_div]
  refine ⟨_, _, delegationCall_of_legal (primMulLo (mulFlag s)) hl, callFrame_callResult _ s, readWord_regB_callResult hl,
    delegationCall_of_legal (primMulHi (mulFlag s)) hl, callFrame_callResult _ s, readWord_regB_callResult hl, hlo, hhi, ?_⟩
  rw [hlo, hhi, Nat.mod_add_div]

/-- Settles O11: with `EQ_PRESERVES_A` the primitive writes no word. -/
theorem waluEqResult : Obligations.WaluEqResult := by
  unfold Obligations.WaluEqResult
  intro cin s
  refine ⟨ctlTable_word_eq_ite (o := .eq) rfl rfl cin, fun hl => ?_⟩
  refine ⟨_, delegationCall_of_legal (primEq s.cfg.eqPreservesA (Config.freeEqWord s.tick)) hl,
    callFrame_callResult _ s, readWord_regB_callResult hl, ?_, fun hp => ?_⟩
  · rw [flag_callResult, primEq, equalFlag]
  · exact sameBytes_callResult_of_result_eq_none (by rw [primEq, if_pos hp])

/-- Settles O12: as for `Add`; `B + cin` reaches `W` only from `B = W - 1` with `cin = 1`. -/
theorem waluMemCpyResult : Obligations.WaluMemCpyResult := by
  unfold Obligations.WaluMemCpyResult
  intro cin s B
  refine ⟨ctlTable_word_eq_ite (o := .memCpy) rfl rfl cin, ?_⟩
  rintro hl rfl
  have hB : (s.readWord s.regB).toNat < W := (s.readWord s.regB).isLt
  refine ⟨_, delegationCall_of_legal (primMemCpy cin) hl, callFrame_callResult _ s, readWord_regB_callResult hl, ?_, ?_, ?_⟩
  · rw [readWord_callResult_same hl rfl, BitVec.toNat_ofNat]
  · have hc := cin.toNat_le
    rw [toNat_regCtl_callResult]
    exact toNat_carryOut (by omega)
  · rw [flag_callResult]
    exact decide_eq_true_iff.trans (le_add_toNat_iff hB)

end Sys2Proof.Machine
end

section
/-! PROOFS. The value operations of the limb datapath (spec/41_wide_value_ops.md rules R122, R123, R125 and R126): how one ends,
the byte and limb arithmetic of each, and their results. -/

namespace Sys2Proof

/-! ### Widths -/

theorem two_pow_eight_mul (k : Nat) : 2 ^ (8 * k) = 256 ^ k := by rw [Nat.pow_mul]

theorem Width.bits_eq_bytes (n : Width) : n.bits = 8 * n.bytes := by
  cases n with
  | w256 => rfl
  | w512 => rfl

/-- A width is a whole number of limbs of eight bytes, two at least. -/
theorem Width.bytes_eq_limbs (n : Width) : n.bytes = 8 * (n.bytes / 8) ∧ 2 ≤ n.bytes / 8 := by
  cases n with
  | w256 => decide
  | w512 => decide

theorem Width.bits_eq_limbs (n : Width) : n.bits = 64 * (n.bytes / 8) := by
  have hbits := n.bits_eq_bytes
  obtain ⟨hbytes, -⟩ := n.bytes_eq_limbs
  omega

theorem Width.two_pow_bits (n : Width) : 2 ^ n.bits = 256 ^ n.bytes := by
  rw [n.bits_eq_bytes, two_pow_eight_mul]

namespace Machine

/-! ### How a value operation ends -/

theorem stopsWith_violate (s : State) (v : Fault) : StopsWith s (s.violate v) v :=
  ⟨fun h => State.violate_fault h v, fun h => State.violate_trust h v⟩

/-- Alignment is the first check of an operation that does not borrow the scratch space (spec/60_exceptions.md rule R249). -/
theorem opViolation_of_not_aligned (s : State) {o : Operand} (h : o.addr % 32 ≠ 0) :
    opViolation s false [o] = some (.vAlign o.addr o.addr) := by
  simp [opViolation, placeViolation, Operand.aligned, firstAddr, lastAddr, h]

/-- A value operation on a misaligned operand stops, whatever its effect would be. -/
theorem limbOp_stopsWith_vAlign {s : State} {o : Operand} (bytesOk : Bool) (x : Nat) (body : State → Out)
    (h : o.addr % 32 ≠ 0) : StopsWith s (limbOp o bytesOk x s body) (.vAlign o.addr o.addr) := by
  rw [limbOp, opViolation_of_not_aligned s h]
  exact stopsWith_violate s _

/-- The scratch words that a value operation leaves unspecified are none of the bytes a frame speaks of. -/
theorem sameOutside_completeLimbOp {s t : State} {a n : Nat} (r : Ret) (hcfg : t.cfg = s.cfg) (h : sameBytesOutside s t a n) :
    sameOutside s (t.completeLimbOp r) a n := fun x hx hs => by
  rw [State.readByte_completeLimbOp t r (by rw [hcfg]; exact hs), h x hx]

section
variable {s : State} {n : Width} {a v : Nat}

/-- The value that a value operation stored is what its operand reads as afterwards: the operand lies in no constants block and
outside the scratch space. -/
theorem readWide_completeLimbOp_writeWide (r : Ret) (hl : OpLegal s false [mutOperand n a]) (hv : v < 2 ^ n.bits) :
    ((s.writeWide n a v).completeLimbOp r).readWide n a = v := by
  have hmem : mutOperand n a ∈ [mutOperand n a] := List.mem_singleton_self _
  rw [State.readWide_congr (t := s.writeWide n a v) fun i hi => State.readByte_completeLimbOp _ r
    (by rw [State.writeWide_cfg]; exact hl.notInScratch hmem hi)]
  exact State.readWide_writeWide_same s n a v (hl.freeBlock hmem rfl) hv

theorem sameOutside_completeLimbOp_writeWide (r : Ret) :
    sameOutside s ((s.writeWide n a v).completeLimbOp r) a n.bytes :=
  sameOutside_completeLimbOp r (State.writeWide_cfg ..) (State.readByte_writeWide_outside s n a v)

theorem limbFrame_completeLimbOp_writeWide (r : Ret) : LimbFrame s ((s.writeWide n a v).completeLimbOp r) where
  cfg := by simp
  scratchBusy := by simp
  requests := by simp

end

section
variable {s : State} {n : Width} {a bytes : Nat}

/-- When `parity` completes. -/
theorem execParity_of_legal (hl : OpLegal s false [readOperand n a]) :
    execParity n a s = .next (s.completeReadOnly (.bit ((s.readByte a).getLsbD 0))) := limbOp_of_legal hl rfl

/-- When `halve` completes. -/
theorem execHalve_of_legal (cin : Bool) (hl : OpLegal s false [mutOperand n a]) :
    execHalve n a cin s = .next ((s.writeWide n a (halveValue n (s.readWide n a) cin)).completeLimbOp .none) :=
  limbOp_of_legal hl rfl

/-- When `be_decode` completes. -/
theorem execBeDecode_of_legal (hl : OpLegal s false [mutOperand n a]) (hb : s.cfg.readableBlock bytes n.bytes = true) :
    execBeDecode n a bytes s =
      .next ((s.writeWide n a (beValue (s.readBytes bytes n.bytes))).completeLimbOp .none) :=
  limbOp_of_legal hl hb

/-- When `be_encode` completes. -/
theorem execBeEncode_of_legal (hl : OpLegal s false [readOperand n a]) (hb : s.cfg.writableBlock bytes n.bytes = true) :
    execBeEncode n bytes a s =
      .next ((s.writeBytes bytes (beBytes n.bytes (s.readWide n a))).completeLimbOp .none) :=
  limbOp_of_legal hl hb

/-- `parity` of a misaligned operand. -/
theorem execParity_stopsWith_vAlign (s : State) (n : Width) (ha : a % 32 ≠ 0) :
    StopsWith s (execParity n a s) (.vAlign a a) := limbOp_stopsWith_vAlign (o := readOperand n a) _ _ _ ha

/-- `halve` of a misaligned operand. -/
theorem execHalve_stopsWith_vAlign (s : State) (n : Width) (cin : Bool) (ha : a % 32 ≠ 0) :
    StopsWith s (execHalve n a cin s) (.vAlign a a) := limbOp_stopsWith_vAlign (o := mutOperand n a) _ _ _ ha

end

/-! ### The lowest byte of a value -/

theorem State.memRead_succ_mod (s : State) (a n : Nat) : s.memRead a (n + 1) % 256 = (s.readByte a).toNat := by
  have hb := (s.readByte a).isLt
  rw [State.memRead, State.readBytes, leValue]
  omega

theorem State.readWord_mod (s : State) (a : Nat) : (s.readWord a).toNat % 256 = (s.readByte a).toNat := by
  rw [State.readWord, BitVec.toNat_ofNat, Nat.mod_mod_of_dvd _ (by decide), State.memRead_succ_mod]

theorem State.readWide_mod (s : State) (n : Width) (a : Nat) : s.readWide n a % 256 = (s.readByte a).toNat := by
  cases n with
  | w256 => exact State.readWord_mod s a
  | w512 =>
    have hW : W = 256 * 2 ^ 248 := by decide
    rw [State.readWide, hW, Nat.mul_assoc, Nat.add_mul_mod_self_left, State.readWord_mod]

/-- Rule R122: bit 0 of the first byte says whether the value is odd. -/
theorem getLsbD_zero_readByte (s : State) (n : Width) (a : Nat) :
    (s.readByte a).getLsbD 0 = decide (s.readWide n a % 2 = 1) := by
  have hmod : s.readWide n a % 2 = (s.readByte a).toNat % 2 := by rw [← State.readWide_mod s n a]; omega
  rw [hmod, BitVec.getLsbD, Nat.testBit_zero]

/-! ### Halving -/

theorem halveValue_lt {n : Width} {v : Nat} (cin : Bool) (hv : v < 2 ^ n.bits) : halveValue n v cin < 2 ^ n.bits := by
  have hc : cin.toNat * 2 ^ n.bits ≤ 1 * 2 ^ n.bits := Nat.mul_le_mul_right _ cin.toNat_le
  rw [halveValue]
  omega

/-- From bit `m` on, halving halves what stands there, with the carry-in above it. -/
theorem halveValue_div {n : Width} (v : Nat) (cin : Bool) {m : Nat} (hm : m ≤ n.bits) :
    halveValue n v cin / 2 ^ m = (cin.toNat * 2 ^ (n.bits - m) + v / 2 ^ m) / 2 := by
  have hsplit : cin.toNat * 2 ^ n.bits = 2 ^ m * (cin.toNat * 2 ^ (n.bits - m)) := by
    rw [Nat.mul_left_comm, ← Nat.pow_add, Nat.add_sub_cancel' hm]
  rw [halveValue, Nat.div_div_eq_div_mul, Nat.mul_comm 2, ← Nat.div_div_eq_div_mul, hsplit,
    Nat.mul_add_div (Nat.two_pow_pos m)]

/-- Every limb but the top one takes the low bit of the next. -/
theorem halveValue_limb {n : Width} (v : Nat) (cin : Bool) {i : Nat} (hi : i + 1 < n.bytes / 8) :
    halveValue n v cin / 2 ^ (64 * i) % 2 ^ 64 =
      v / 2 ^ (64 * i) % 2 ^ 64 / 2 + 2 ^ 63 * (v / 2 ^ (64 * (i + 1)) % 2) := by
  have hbits := n.bits_eq_limbs
  have hnext : v / 2 ^ (64 * (i + 1)) = v / 2 ^ (64 * i) / 2 ^ 64 := by
    rw [Nat.mul_succ, Nat.pow_add, Nat.div_div_eq_div_mul]
  have hcarry : cin.toNat * 2 ^ (n.bits - 64 * i) = 2 ^ 128 * (cin.toNat * 2 ^ (n.bits - 64 * i - 128)) := by
    rw [Nat.mul_left_comm, ← Nat.pow_add, Nat.add_sub_cancel' (by omega)]
  rw [halveValue_div v cin (by omega), hnext, hcarry]
  omega

/-- The top limb takes the carry-in. -/
theorem halveValue_top {n : Width} (v : Nat) (cin : Bool) :
    halveValue n v cin / 2 ^ (n.bits - 64) = v / 2 ^ (n.bits - 64) / 2 + 2 ^ 63 * cin.toNat := by
  have hbits := n.bits_eq_limbs
  obtain ⟨-, hlimbs⟩ := n.bytes_eq_limbs
  rw [halveValue_div v cin (Nat.sub_le ..), Nat.sub_sub_self (by omega)]
  omega

/-! ### Big-endian strings -/

theorem leValue_append (xs ys : List Byte) : leValue (xs ++ ys) = leValue xs + 256 ^ xs.length * leValue ys := by
  induction xs with
  | nil => simp [leValue]
  | cons x xs ih =>
    rw [List.cons_append, leValue, leValue, ih, List.length_cons, Nat.pow_succ]
    ring

theorem beValue_append (xs ys : List Byte) : beValue (xs ++ ys) = beValue xs * 256 ^ ys.length + beValue ys := by
  rw [beValue, List.reverse_append, leValue_append, List.length_reverse, Nat.add_comm, Nat.mul_comm, beValue, beValue]

theorem beValue_lt (bs : List Byte) : beValue bs < 256 ^ bs.length := by
  simpa [beValue] using leValue_lt bs.reverse

theorem beValue_cons (b : Byte) (bs : List Byte) : beValue (b :: bs) = b.toNat * 256 ^ bs.length + beValue bs :=
  beValue_append [b] bs

/-- The value of a string between two others, as limbs are cut out of the whole: those before it lie above, those after below. -/
theorem beValue_middle (xs ys zs : List Byte) :
    beValue (xs ++ ys ++ zs) / 256 ^ zs.length % 256 ^ ys.length = beValue ys := by
  rw [beValue_append, Nat.mul_comm, Nat.mul_add_div (by simp), Nat.div_eq_of_lt (beValue_lt zs), Nat.add_zero,
    beValue_append, Nat.mul_add_mod_self_right, Nat.mod_eq_of_lt (beValue_lt ys)]

theorem State.readBytes_add (s : State) (a m n : Nat) : s.readBytes a (m + n) = s.readBytes a m ++ s.readBytes (a + m) n := by
  induction m generalizing a with
  | zero => simp [State.readBytes]
  | succ m ih =>
    rw [Nat.succ_add, State.readBytes, State.readBytes, ih, List.cons_append, Nat.add_assoc, Nat.add_comm 1 m]

/-- The big-endian reading of a string, as the sum of rule R125. -/
theorem beValue_readBytes (s : State) (a n : Nat) :
    beValue (s.readBytes a n) = ∑ k ∈ Finset.range n, (s.readByte (a + k)).toNat * 2 ^ (8 * (n - 1 - k)) := by
  induction n generalizing a with
  | zero => rfl
  | succ n ih =>
    rw [State.readBytes, beValue_cons, ih, Finset.sum_range_succ', State.length_readBytes, Nat.add_comm,
      Nat.add_sub_cancel, Nat.sub_zero, Nat.add_zero, two_pow_eight_mul]
    congr 1
    refine Finset.sum_congr rfl fun k _ => ?_
    rw [Nat.add_right_comm, Nat.add_assoc a k 1, Nat.sub_sub, Nat.add_comm 1 k]

/-- Rule R125: limb `m - 1 - g` of a string of `m` limbs is the reading of its group `g` of eight bytes. -/
theorem beValue_readBytes_limb (s : State) (a : Nat) {m g : Nat} (hg : g < m) :
    beValue (s.readBytes a (8 * m)) / 2 ^ (64 * (m - 1 - g)) % 2 ^ 64 = beValue (s.readBytes (a + 8 * g) 8) := by
  have hlen : 8 * m = 8 * g + 8 + 8 * (m - 1 - g) := by omega
  have hcut := beValue_middle (s.readBytes a (8 * g)) (s.readBytes (a + 8 * g) 8)
    (s.readBytes (a + (8 * g + 8)) (8 * (m - 1 - g)))
  rw [← State.readBytes_add, ← State.readBytes_add, ← hlen, State.length_readBytes, State.length_readBytes,
    ← two_pow_eight_mul, ← two_pow_eight_mul, ← Nat.mul_assoc] at hcut
  exact hcut

/-- Rule R126: byte `k` of an encoding is taken from the bits `8 (n - 1 - k) + 7` to `8 (n - 1 - k)`. -/
theorem toNat_getElem_beBytes (n v k : Nat) (h : k < (beBytes n v).length) :
    (beBytes n v)[k].toNat = v / 2 ^ (8 * (n - 1 - k)) % 256 := by
  simp only [beBytes, List.getElem_reverse, getElem_leBytes, length_leBytes, BitVec.toNat_ofNat]

/-! ### The obligations -/

/-- Settles O18: nothing is written, and the bit returned is bit 0 of the first byte. -/
theorem parityResult : Obligations.ParityResult := by
  unfold Obligations.ParityResult
  intro s n a
  refine ⟨fun hl => ?_, execParity_stopsWith_vAlign s n⟩
  refine ⟨_, execParity_of_legal hl, ?_, State.readByte_completeReadOnly s _, ⟨rfl, rfl, rfl⟩⟩
  rw [State.completeReadOnly_ret, getLsbD_zero_readByte s n a]

/-- Settles O19: the value stored is `halveValue`, whose limbs are those of the rule. -/
theorem halveResult : Obligations.HalveResult := by
  unfold Obligations.HalveResult
  intro s n a cin v
  refine ⟨?_, execHalve_stopsWith_vAlign s n cin⟩
  rintro hl rfl
  have hlt := halveValue_lt cin (s.readWide_lt n a)
  exact ⟨_, _, execHalve_of_legal cin hl, readWide_completeLimbOp_writeWide .none hl hlt, rfl, rfl,
    fun i hi => halveValue_limb _ cin hi, halveValue_top _ cin, sameOutside_completeLimbOp_writeWide .none,
    limbFrame_completeLimbOp_writeWide .none⟩

/-- Settles O20: the value stored is that of the whole string, whose limbs are the values of its groups of eight bytes. -/
theorem beDecodeResult : Obligations.BeDecodeResult := by
  unfold Obligations.BeDecodeResult
  intro s n dst bytes hl hb
  have hlt : beValue (s.readBytes bytes n.bytes) < 2 ^ n.bits := by
    simpa [n.two_pow_bits] using beValue_lt (s.readBytes bytes n.bytes)
  have hval := readWide_completeLimbOp_writeWide .none hl hlt
  obtain ⟨hlimbs, -⟩ := n.bytes_eq_limbs
  refine ⟨_, execBeDecode_of_legal hl hb, ?_, fun g hg => ?_, rfl, sameOutside_completeLimbOp_writeWide .none,
    limbFrame_completeLimbOp_writeWide .none⟩
  · rw [hval, beValue_readBytes]
  · have hlimb := beValue_readBytes_limb s bytes hg
    rw [← hlimbs] at hlimb
    rw [hval, hlimb, beValue_readBytes]

/-- Settles O21: the string written is `beBytes` of the value read, and `beValue` and `beBytes` are inverse. -/
theorem beEncodeResult : Obligations.BeEncodeResult := by
  unfold Obligations.BeEncodeResult
  refine ⟨fun s n bytes src hl hb => ?_, fun n v hv => ?_, fun n bs hbs => ?_⟩
  · have hfree := Config.freeBlock_of_writableBlock hb
    refine ⟨_, execBeEncode_of_legal hl hb, fun k hk hs => ?_, rfl, ?_, ⟨by simp, by simp, by simp⟩⟩
    · have hlen : (beBytes n.bytes (s.readWide n src)).length = n.bytes := length_beBytes _ _
      rw [State.readByte_completeLimbOp _ _ (by simpa using hs),
        State.readByte_writeBytes_inside s bytes _ k (by rwa [hlen]) (by rwa [hlen]), toNat_getElem_beBytes]
    · refine sameOutside_completeLimbOp .none (State.writeBytes_cfg ..) fun x hx => ?_
      exact State.readByte_writeBytes_outside s bytes _ x (by rwa [length_beBytes])
  · rw [beValue_beBytes, ← n.two_pow_bits, Nat.mod_eq_of_lt hv]
  · rw [← hbs, beBytes_beValue]

end Machine
end Sys2Proof
end

section
/-! PROOFS. The modular operations whose results are arithmetic on the stored integers (spec/42_modular_256.md rules R142 to
R151): what a completed macro-operation leaves, for either width, when a range refuses it, the arithmetic of the results, and
the results of the 256-bit module. -/

namespace Sys2Proof.Machine

/-! ### The bound descriptor -/

section
variable {c : Config} {f : Nat} {w : Width} {k : Option RedKind} {d : Descriptor}

theorem Binds.width_eq (h : Binds c f (some w) k d) : d.width = w := by
  obtain ⟨-, -, hw | hw, -⟩ := h
  · cases hw
  · exact (Option.some.inj hw).symm

theorem Binds.modulus_pos (h : Binds c f (some w) k d) : 0 < d.modulus := by
  obtain ⟨-, -, -, hprime⟩ := Descriptor.ok_iff.1 h.ok
  exact hprime.pos

/-- A bound modulus fits the operands of its width, and so does every value below it (spec/10_state.md rule R31). -/
theorem Binds.modulus_lt (h : Binds c f (some w) k d) : d.modulus < 2 ^ w.bits := by
  have hwidth := h.width_eq
  obtain ⟨-, hrange, -, -⟩ := Descriptor.ok_iff.1 h.ok
  obtain ⟨h256, -⟩ := Descriptor.inRange_iff.1 hrange
  cases w with
  | w256 => exact (h256 hwidth).2
  | w512 =>
    have hbits : Width.w512.bits = 256 + 256 := rfl
    rw [hbits, Nat.pow_add]
    exact Descriptor.modulus_lt_of_inRange hrange

end

/-! ### What a completed macro-operation leaves -/

section
variable {s t : State} {w : Width} {ops : List Operand} {dst src v : Nat}

theorem opFrame_completeOp (r : Ret) (hcfg : t.cfg = s.cfg) (hreq : t.requests = s.requests) :
    OpFrame s (t.completeOp r) where
  cfg := hcfg
  scratchBusy := rfl
  requests := hreq

/-- A macro-operation that only reads leaves every byte but those of the scratch space. -/
theorem returns_completeOp (s : State) (b : Bool) : Returns s (s.beginOp.completeOp (.bit b)) b where
  ret := rfl
  memory x hx := (State.readByte_completeOp s.beginOp _ hx).trans (State.readByte_beginOp s x)
  frame := opFrame_completeOp _ rfl rfl

/-- The value that a macro-operation writes at a legal operand is what the operand reads as afterwards: it lies in no constants
block and outside the scratch space. -/
theorem stores_completeOp_writeWide (hl : OpLegal s true ops) (hmem : mutOperand w dst ∈ ops) (hv : v < 2 ^ w.bits) :
    Stores s ((s.beginOp.writeWide w dst v).completeOp .none) w dst v where
  value := by
    rw [State.readWide_congr (t := s.beginOp.writeWide w dst v) fun i hi => State.readByte_completeOp _ _
      (by rw [State.writeWide_cfg]; exact hl.notInScratch hmem hi)]
    exact State.readWide_writeWide_same _ w dst v (hl.freeBlock hmem rfl) hv
  ret := rfl
  memory x hx hs := by
    rw [State.readByte_completeOp _ _ (by rw [State.writeWide_cfg]; exact hs),
      State.readByte_writeWide_outside _ _ _ _ _ hx, State.readByte_beginOp]
  frame := opFrame_completeOp _ (by simp) (by simp)

/-- The read operand of a legal pair does not meet the written one (spec/60_exceptions.md rule R247). -/
theorem OpLegal.disjoint_pair (hl : OpLegal s true [mutOperand w dst, readOperand w src]) :
    dst + w.bytes ≤ src ∨ src + w.bytes ≤ dst := by
  have hdisj := (pairwiseDisjoint_iff _).1 hl.disjoint
  simp only [List.map_cons, List.map_nil, List.pairwise_pair] at hdisj
  exact (disjointBlocks_iff ..).1 hdisj

/-- What a macro-operation stores at `dst` leaves the value at `src` as it was. -/
theorem Stores.readWide_src (h : Stores s t w dst v) (hl : OpLegal s true [mutOperand w dst, readOperand w src]) :
    t.readWide w src = s.readWide w src := by
  have hdisj := hl.disjoint_pair
  have hsrc : readOperand w src ∈ [mutOperand w dst, readOperand w src] := by simp
  exact State.readWide_congr fun i hi => h.memory _ (by omega) (hl.notInScratch hsrc hi)

end

/-! ### How a modular operation ends -/

section
variable {s : State} {w : Width} {k : Option RedKind} {f dst src a b : Nat} {d : Descriptor}

section
variable {rng : Descriptor → Nat → Nat → Bool} {res : Descriptor → Nat → Nat → Nat}

/-- In its range a two-operand operation stores its result and leaves `src` as it was. -/
theorem modBinary_stores (hb : Binds s.cfg f (some w) k d) (hl : OpLegal s true [mutOperand w dst, readOperand w src])
    (hr : rng d (s.readWide w dst) (s.readWide w src) = true)
    (hv : res d (s.readWide w dst) (s.readWide w src) < d.modulus) :
    ∃ t, modBinary w k rng res f dst src s = .next t ∧
      Stores s t w dst (res d (s.readWide w dst) (s.readWide w src)) ∧ t.readWide w src = s.readWide w src := by
  have hstores := stores_completeOp_writeWide hl List.mem_cons_self (hv.trans hb.modulus_lt)
  exact ⟨_, modBinary_of_legal hb hl hr, hstores, hstores.readWide_src hl⟩

/-- Outside its range a two-operand operation is refused (spec/60_exceptions.md rule R244). -/
theorem modBinary_refused (hb : Binds s.cfg f (some w) k d) (hl : OpLegal s true [mutOperand w dst, readOperand w src])
    (hr : rng d (s.readWide w dst) (s.readWide w src) = false) :
    modBinary w k rng res f dst src s = .refused .vRange := by
  rw [modBinary, moduleOp_of_legal _ hb hl]
  simp [hr]

end

section
variable {rng : Descriptor → Nat → Bool} {res : Descriptor → Nat → Nat}

/-- In its range a one-operand operation stores its result. -/
theorem modUnary_stores (hb : Binds s.cfg f (some w) k d) (hl : OpLegal s true [mutOperand w dst])
    (hr : rng d (s.readWide w dst) = true) (hv : res d (s.readWide w dst) < d.modulus) :
    ∃ t, modUnary w k rng res f dst s = .next t ∧ Stores s t w dst (res d (s.readWide w dst)) :=
  ⟨_, modUnary_of_legal hb hl hr, stores_completeOp_writeWide hl List.mem_cons_self (hv.trans hb.modulus_lt)⟩

/-- Outside its range a one-operand operation is refused (spec/60_exceptions.md rule R244). -/
theorem modUnary_refused (hb : Binds s.cfg f (some w) k d) (hl : OpLegal s true [mutOperand w dst])
    (hr : rng d (s.readWide w dst) = false) : modUnary w k rng res f dst s = .refused .vRange := by
  rw [modUnary, moduleOp_of_legal _ hb hl]
  simp [hr]

end

/-- A comparison returns its test of the two stored integers. -/
theorem modCompare_returns {test : Nat → Nat → Bool} (hb : Binds s.cfg f (some w) none d)
    (hl : OpLegal s true [readOperand w a, readOperand w b]) :
    ∃ t, modCompare w test f a b s = .next t ∧ Returns s t (test (s.readWide w a) (s.readWide w b)) :=
  ⟨_, modCompare_of_legal hb hl, returns_completeOp s _⟩

/-- A test of one value returns what it says of the stored integer. -/
theorem modTest_returns {test : Descriptor → Nat → Bool} (hb : Binds s.cfg f (some w) none d)
    (hl : OpLegal s true [readOperand w a]) :
    ∃ t, modTest w test f a s = .next t ∧ Returns s t (test d (s.readWide w a)) :=
  ⟨_, modTest_of_legal hb hl, returns_completeOp s _⟩

end

/-! ### The arithmetic of the results -/

section
variable {d : Descriptor} {a b : Nat}

/-- Rule R143: the two cases of a difference of canonical values are its residue. -/
theorem subResult_eq_mod (ha : a < d.modulus) (hb : b < d.modulus) :
    subResult d a b = (a + d.modulus - b) % d.modulus := by
  unfold subResult
  split
  next hle =>
    have hshift : a + d.modulus - b = a - b + d.modulus := by omega
    rw [hshift, Nat.add_mod_right, Nat.mod_eq_of_lt (by omega)]
  next hlt => rw [Nat.mod_eq_of_lt (by omega)]

/-- Rule R145: `p - x` is reduced but for `x = 0`, where it is `p`; at `x = p` it is 0 already. -/
theorem negateResult_eq_mod (ha : a ≤ d.modulus) : negateResult d a = (d.modulus - a) % d.modulus := by
  unfold negateResult
  split
  next h =>
    obtain rfl | rfl := h
    · rw [Nat.sub_zero, Nat.mod_self]
    · rw [Nat.sub_self, Nat.zero_mod]
  next h =>
    rw [not_or] at h
    rw [Nat.mod_eq_of_lt (by omega)]

end

/-! ### The obligations -/

/-- Settles O26: in its range `add_mod` stores a residue, which fits one word. -/
theorem addModResult : Obligations.AddModResult := by
  unfold Obligations.AddModResult
  rintro s f dst src _ _ d hb hl rfl rfl
  refine ⟨fun hlt => ?_, fun hge => ?_⟩
  · exact modBinary_stores hb hl (decide_eq_true hlt) (Nat.mod_lt _ hb.modulus_pos)
  · exact modBinary_refused hb hl (decide_eq_false (Nat.not_lt.2 hge))

/-- Settles O27: for canonical operands the two cases of `subResult` are the residue of the statement. -/
theorem subModResult : Obligations.SubModResult := by
  unfold Obligations.SubModResult
  rintro s f dst src _ _ d hb hl rfl rfl
  refine ⟨fun hA hB => ?_, fun hge => ?_⟩
  · have hres := subResult_eq_mod hA hB
    rw [← hres]
    exact modBinary_stores hb hl (decide_eq_true ⟨hA, hB⟩) (hres ▸ Nat.mod_lt _ hb.modulus_pos)
  · exact modBinary_refused hb hl (decide_eq_false (by omega))

/-- Settles O28: doubling stores a residue, and so does each case of `negateResult`. -/
theorem doubleNegateResults : Obligations.DoubleNegateResults := by
  unfold Obligations.DoubleNegateResults
  rintro s f dst _ d hb hl rfl
  refine ⟨fun hlt => ?_, fun hge => ?_, fun hle => ?_, fun hgt => ?_⟩
  · exact modUnary_stores hb hl (decide_eq_true hlt) (Nat.mod_lt _ hb.modulus_pos)
  · exact modUnary_refused hb hl (decide_eq_false (Nat.not_lt.2 hge))
  · have hres := negateResult_eq_mod hle
    rw [← hres]
    exact modUnary_stores hb hl (decide_eq_true hle) (hres ▸ Nat.mod_lt _ hb.modulus_pos)
  · exact modUnary_refused hb hl (decide_eq_false (Nat.not_le.2 hgt))

/-- Settles O29: each comparison returns its test of the two stored integers, and only reads. -/
theorem compareResults : Obligations.CompareResults := by
  unfold Obligations.CompareResults
  intro s f a b d hb hl
  exact ⟨modCompare_returns (test := ltTest) hb hl, modCompare_returns (test := leqTest) hb hl,
    modCompare_returns (test := eqTest) hb hl⟩

/-- Settles O30: each test returns what it says of the stored integer, and only reads. -/
theorem zeroOneTestResults : Obligations.ZeroOneTestResults := by
  unfold Obligations.ZeroOneTestResults
  intro s f a d hb hl
  exact ⟨modTest_returns (test := zeroTest) hb hl, modTest_returns (test := oneTest) hb hl,
    modTest_returns (test := zeroModTest) hb hl⟩

end Sys2Proof.Machine
end

section
/-! PROOFS. 256-bit Montgomery multiplication and form conversion (spec/43_montgomery_256.md): the definition of `REDC` and its
bounds, its value after one correction, and the results of the operations that rest on it. -/

namespace Sys2Proof.Machine

/-! ### `REDC` -/

section
variable {d : Descriptor} {T n x y : Nat}

theorem coprime_W_of_odd {p : Nat} (hodd : p % 2 = 1) : Nat.Coprime p W :=
  (Nat.odd_iff.2 hodd).coprime_two_right.pow_right 256

/-- The division in `REDC` is exact: `T + m p` is `T (1 + p N')` modulo `W`. -/
theorem W_dvd_add_redcMultiplier_mul (hodd : d.modulus % 2 = 1) (T : Nat) :
    W ∣ T + redcMultiplier d T * d.modulus := by
  have hm : redcMultiplier d T ≡ T * d.nprime [MOD W] :=
    (Nat.mod_modEq _ _).trans ((Nat.mod_modEq T W).mul_right _)
  have hnprime : d.modulus * d.nprime + 1 ≡ 0 [MOD W] := Descriptor.modulus_mul_nprime_mod hodd
  rw [← Nat.modEq_zero_iff_dvd]
  calc T + redcMultiplier d T * d.modulus ≡ T + T * d.nprime * d.modulus [MOD W] := (hm.mul_right _).add_left T
    _ = T * (d.modulus * d.nprime + 1) := by ring
    _ ≡ T * 0 [MOD W] := hnprime.mul_left T

theorem redc_mul_W (hodd : d.modulus % 2 = 1) (T : Nat) :
    redc d T * W = T + redcMultiplier d T * d.modulus :=
  Nat.div_mul_cancel (W_dvd_add_redcMultiplier_mul hodd T)

theorem redc_mul_W_mod (hodd : d.modulus % 2 = 1) (T : Nat) : redc d T * W % d.modulus = T % d.modulus := by
  rw [redc_mul_W hodd, Nat.add_mul_mod_self_right]

theorem redc_mul_W_lt (hodd : d.modulus % 2 = 1) (T : Nat) : redc d T * W < T + d.modulus * W := by
  have hm : redcMultiplier d T < W := Nat.mod_lt _ (by simp)
  rw [redc_mul_W hodd, Nat.mul_comm d.modulus]
  exact Nat.add_lt_add_left (Nat.mul_lt_mul_of_pos_right hm (by omega)) T

/-- Each bound of rule R160 on `REDC` is this one, for `n = W`, `n = p` and `n = 1`. -/
theorem redc_lt_add_modulus (hodd : d.modulus % 2 = 1) (hT : T ≤ n * W) : redc d T < n + d.modulus := by
  apply Nat.lt_of_mul_lt_mul_right (a := W)
  calc redc d T * W < T + d.modulus * W := redc_mul_W_lt hodd T
    _ ≤ n * W + d.modulus * W := Nat.add_le_add_right hT _
    _ = (n + d.modulus) * W := (Nat.add_mul ..).symm

theorem redc_lt_two_mul_modulus (hodd : d.modulus % 2 = 1) (hT : T < d.modulus * W) : redc d T < 2 * d.modulus := by
  rw [Nat.two_mul]
  exact redc_lt_add_modulus hodd hT.le

theorem redc_le_modulus (hodd : d.modulus % 2 = 1) (hT : T < W) : redc d T ≤ d.modulus := by
  rw [← Nat.lt_one_add_iff]
  exact redc_lt_add_modulus hodd (by rw [Nat.one_mul]; exact hT.le)

theorem redc_zero (d : Descriptor) : redc d 0 = 0 := by simp [redc, redcMultiplier]

theorem redc_pos (hodd : d.modulus % 2 = 1) (hT : T ≠ 0) : 0 < redc d T := by
  apply Nat.pos_of_mul_pos_right (b := W)
  rw [redc_mul_W hodd]
  omega

/-- `p` divides `REDC(T)` with `T`, because `W` is invertible modulo `p`. -/
theorem modulus_dvd_redc_iff (hodd : d.modulus % 2 = 1) : d.modulus ∣ redc d T ↔ d.modulus ∣ T := by
  rw [← (coprime_W_of_odd hodd).dvd_mul_right, Nat.dvd_iff_mod_eq_zero, redc_mul_W_mod hodd,
    ← Nat.dvd_iff_mod_eq_zero]

theorem redc_eq_modulus_iff (hodd : d.modulus % 2 = 1) (hT : T < W) :
    redc d T = d.modulus ↔ T ≠ 0 ∧ d.modulus ∣ T := by
  constructor
  · intro h
    refine ⟨?_, (modulus_dvd_redc_iff hodd).1 h.symm.dvd⟩
    rintro rfl
    rw [redc_zero] at h
    omega
  · rintro ⟨h0, hdvd⟩
    exact (redc_le_modulus hodd hT).antisymm
      (Nat.le_of_dvd (redc_pos hodd h0) ((modulus_dvd_redc_iff hodd).2 hdvd))

/-! ### The Montgomery product -/

theorem correctOnce_mod (d : Descriptor) (t : Nat) : correctOnce d t % d.modulus = t % d.modulus := by
  unfold correctOnce
  split
  next hle => exact (Nat.mod_eq_sub_mod hle).symm
  next => rfl

theorem correctOnce_lt {t : Nat} (ht : t < 2 * d.modulus) : correctOnce d t < d.modulus := by
  unfold correctOnce
  split <;> omega

/-- The Montgomery product is `a * b * W^-1` modulo `p`, for any two factors. -/
theorem montResult_mul_W_mod (hodd : d.modulus % 2 = 1) (a b : Nat) :
    montResult d a b * W % d.modulus = a * b % d.modulus := by
  rw [montResult, Nat.mul_mod, correctOnce_mod, ← Nat.mul_mod, redc_mul_W_mod hodd]

theorem montResult_lt {a b : Nat} (hodd : d.modulus % 2 = 1) (hab : a * b < d.modulus * W) :
    montResult d a b < d.modulus :=
  correctOnce_lt (redc_lt_two_mul_modulus hodd hab)

theorem radix_eq_W (hw : d.width = .w256) : d.radix = W := by rw [Descriptor.radix, hw]; rfl

theorem montRange_eq (hw : d.width = .w256) (a b : Nat) : montRange d a b = decide (a * b < d.modulus * W) := by
  rw [montRange, radix_eq_W hw]

theorem toRepresentationResult_eq (hw : d.width = .w256) (x : Nat) :
    toRepresentationResult d x = x * W % d.modulus := by
  rw [toRepresentationResult, radix_eq_W hw]

/-- Rule R166 accepts every word: a word times 1 is always in the range of the Montgomery product. -/
theorem toIntegerResult_lt (hodd : d.modulus % 2 = 1) (hx : x < W) : toIntegerResult d x < d.modulus := by
  refine montResult_lt hodd ?_
  rw [Nat.mul_one]
  exact hx.trans_le (Nat.le_mul_of_pos_left W (by omega))

theorem toIntegerResult_mul_W_mod (hodd : d.modulus % 2 = 1) (x : Nat) :
    toIntegerResult d x * W % d.modulus = x % d.modulus := by
  rw [toIntegerResult, montResult_mul_W_mod hodd, Nat.mul_one]

/-- A canonical value is determined by its Montgomery form. -/
theorem eq_of_mul_W_mod_eq (hodd : d.modulus % 2 = 1) (hx : x < d.modulus) (hy : y < d.modulus)
    (h : x * W % d.modulus = y * W % d.modulus) : x = y :=
  (Nat.ModEq.cancel_right_of_coprime (coprime_W_of_odd hodd) h).eq_of_lt_of_lt hx hy

theorem toIntegerResult_of_mul_W_mod (hodd : d.modulus % 2 = 1) (hp : d.modulus < W) (hx : x < d.modulus) :
    toIntegerResult d (x * W % d.modulus) = x := by
  have hform : x * W % d.modulus < d.modulus := Nat.mod_lt _ (by omega)
  refine eq_of_mul_W_mod_eq hodd (toIntegerResult_lt hodd (hform.trans hp)) hx ?_
  rw [toIntegerResult_mul_W_mod hodd, Nat.mod_mod]

end

/-! ### From one operation to the next -/

section
variable {s t : State} {f dst src : Nat} {w : Width} {u : Bool} {ops : List Operand} {d : Descriptor}

theorem Binds.modulus_odd {c : Config} {o : Option Width} {k : Option RedKind} (h : Binds c f o k d) :
    d.modulus % 2 = 1 := by
  obtain ⟨hodd, -, -, -⟩ := Descriptor.ok_iff.1 h.ok
  exact hodd

/-- Operands that are legal before a macro-operation are legal after it. -/
theorem OpLegal.of_opFrame (hl : OpLegal s u ops) (hf : OpFrame s t) : OpLegal t u ops where
  notBusy _ := hf.scratchBusy
  aligned := hl.aligned
  disjoint := hl.disjoint
  clear := hf.cfg.symm ▸ hl.clear
  accessible := hf.cfg.symm ▸ hl.accessible

theorem OpLegal.addr_lt (hl : OpLegal s u ops) (hmem : mutOperand w dst ∈ ops) : dst < s.cfg.addrLimit := by
  have hpos : 0 < w.bytes := by cases w <;> decide
  exact Config.lt_of_writable ((Config.writableBlock_iff ..).1 (hl.accessible _ hmem) 0 hpos)

/-! ### How a Montgomery operation ends -/

/-- Rule R161: in its range `mul_mont` stores the Montgomery product and leaves `src`. -/
theorem mulMont_stores (hb : Binds s.cfg f (some .w256) (some .montgomery) d)
    (hl : OpLegal s true [mutOperand .w256 dst, readOperand .w256 src])
    (hlt : s.readWide .w256 dst * s.readWide .w256 src < d.modulus * W) :
    ∃ t, exec (.mulMont f dst src) s = .next t ∧
      Stores s t .w256 dst (montResult d (s.readWide .w256 dst) (s.readWide .w256 src)) ∧
      t.readWide .w256 src = s.readWide .w256 src :=
  modBinary_stores hb hl ((montRange_eq hb.width_eq ..).trans (decide_eq_true hlt)) (montResult_lt hb.modulus_odd hlt)

/-- Rule R162: in its range `square_mont` stores the Montgomery product of the value with itself. -/
theorem squareMont_stores (hb : Binds s.cfg f (some .w256) (some .montgomery) d)
    (hl : OpLegal s true [mutOperand .w256 dst])
    (hlt : s.readWide .w256 dst * s.readWide .w256 dst < d.modulus * W) :
    ∃ t, exec (.squareMont f dst) s = .next t ∧
      Stores s t .w256 dst (montResult d (s.readWide .w256 dst) (s.readWide .w256 dst)) :=
  modUnary_stores hb hl ((montRange_eq hb.width_eq ..).trans (decide_eq_true hlt)) (montResult_lt hb.modulus_odd hlt)

/-- Rule R165: a canonical value is replaced by its Montgomery form. -/
theorem toRepresentation_stores (hb : Binds s.cfg f (some .w256) (some .montgomery) d)
    (hl : OpLegal s true [mutOperand .w256 dst]) (hlt : s.readWide .w256 dst < d.modulus) :
    ∃ t, exec (.toRepresentation f dst) s = .next t ∧
      Stores s t .w256 dst (s.readWide .w256 dst * W % d.modulus) := by
  have hres := toRepresentationResult_eq hb.width_eq (s.readWide .w256 dst)
  rw [← hres]
  exact modUnary_stores hb hl (decide_eq_true hlt) (hres ▸ Nat.mod_lt _ hb.modulus_pos)

/-- Rule R166: every word is in the range of `to_integer`. -/
theorem toInteger_stores (hb : Binds s.cfg f (some .w256) (some .montgomery) d)
    (hl : OpLegal s true [mutOperand .w256 dst]) :
    ∃ t, exec (.toInteger f dst) s = .next t ∧
      Stores s t .w256 dst (toIntegerResult d (s.readWide .w256 dst)) :=
  modUnary_stores hb hl rfl (toIntegerResult_lt hb.modulus_odd (s.readWide_lt .w256 dst))

/-- Rule R179: a conversion of a Barrett field completes and leaves the stored value. -/
theorem modIdentity_keeps (hb : Binds s.cfg f (some .w256) (some .barrett) d)
    (hl : OpLegal s true [mutOperand .w256 dst]) :
    ∃ t, modIdentity f dst s = .next t ∧ t.readWide .w256 dst = s.readWide .w256 dst :=
  ⟨_, modIdentity_of_placed hb hl.toOpPlaced (hl.addr_lt List.mem_cons_self),
    State.readWide_congr fun _ _ => State.readByte_completeReadOnly ..⟩

end

/-! ### The obligations -/

/-- Settles O31: `p N' = -1 (mod W)` makes the division exact, and the bounds follow from `m < W`. -/
theorem redcFacts : Obligations.RedcFacts := by
  unfold Obligations.RedcFacts
  intro d T m hok _ hT hm
  obtain ⟨hodd, -, -, -⟩ := Descriptor.ok_iff.1 hok
  have hexact : (T + m * d.modulus) % W = 0 := by
    rw [hm]
    exact Nat.mod_eq_zero_of_dvd (W_dvd_add_redcMultiplier_mul hodd T)
  exact ⟨Descriptor.modulus_mul_nprime_mod hodd, by rw [hm, redc, redcMultiplier], hexact, redc_mul_W_mod hodd T,
    redc_mul_W_lt hodd T, redc_lt_add_modulus hodd hT.le, redc_lt_two_mul_modulus hodd,
    fun hlt => ⟨redc_le_modulus hodd hlt, redc_eq_modulus_iff hodd hlt⟩⟩

/-- Settles O32: in the range `REDC` stays below `2p`, so one correction makes it canonical. -/
theorem mulMontResults : Obligations.MulMontResults := by
  unfold Obligations.MulMontResults
  rintro s f dst _ d hb rfl
  have hodd := hb.modulus_odd
  have hrange := montRange_eq hb.width_eq
  refine ⟨?_, fun hl => ⟨fun hlt => ?_, fun hge => ?_⟩⟩
  · rintro src _ hl rfl
    refine ⟨fun hlt => ?_, fun hge => ?_⟩
    · obtain ⟨t, hexec, hstores, hsrc⟩ := mulMont_stores hb hl hlt
      exact ⟨t, _, hexec, hstores, hsrc, rfl, montResult_lt hodd hlt, montResult_mul_W_mod hodd _ _⟩
    · exact modBinary_refused hb hl ((hrange ..).trans (decide_eq_false (Nat.not_lt.2 hge)))
  · obtain ⟨t, hexec, hstores⟩ := squareMont_stores hb hl hlt
    exact ⟨t, _, hexec, hstores, montResult_lt hodd hlt, montResult_mul_W_mod hodd _ _⟩
  · exact modUnary_refused hb hl ((hrange ..).trans (decide_eq_false (Nat.not_lt.2 hge)))

/-- Settles O33: the Montgomery form is a residue, and the Montgomery product with 1 is canonical for every word. -/
theorem conversionResults : Obligations.ConversionResults := by
  unfold Obligations.ConversionResults
  rintro s f dst _ d hb hl rfl
  have hodd := hb.modulus_odd
  refine ⟨toRepresentation_stores hb hl, fun hge => ?_, ?_⟩
  · exact modUnary_refused hb hl (decide_eq_false (Nat.not_lt.2 hge))
  · obtain ⟨t, hexec, hstores⟩ := toInteger_stores hb hl
    exact ⟨t, _, hexec, hstores, toIntegerResult_lt hodd (s.readWide_lt .w256 dst), toIntegerResult_mul_W_mod hodd _⟩

/-- Settles O34: the second conversion meets the operands the first one left, and `W` cancels modulo `p`. -/
theorem conversionsMutuallyInverse : Obligations.ConversionsMutuallyInverse := by
  unfold Obligations.ConversionsMutuallyInverse
  rintro s f dst _ d hl rfl
  refine ⟨fun hb hx => ?_, fun hb => ⟨modIdentity_keeps hb hl, modIdentity_keeps hb hl⟩⟩
  have hodd := hb.modulus_odd
  constructor
  · obtain ⟨t, hexec, hst⟩ := toRepresentation_stores hb hl hx
    obtain ⟨u, hexec', hu⟩ := toInteger_stores (hst.frame.cfg.symm ▸ hb) (hl.of_opFrame hst.frame)
    refine ⟨t, u, hexec, hexec', hu.value.trans ?_⟩
    rw [hst.value, toIntegerResult_of_mul_W_mod hodd hb.modulus_lt hx]
  · obtain ⟨t, hexec, hst⟩ := toInteger_stores hb hl
    have hlt := toIntegerResult_lt hodd (s.readWide_lt .w256 dst)
    obtain ⟨u, hexec', hu⟩ :=
      toRepresentation_stores (hst.frame.cfg.symm ▸ hb) (hl.of_opFrame hst.frame) (hst.value.symm ▸ hlt)
    refine ⟨t, u, hexec, hexec', hu.value.trans ?_⟩
    rw [hst.value, toIntegerResult_mul_W_mod hodd, Nat.mod_eq_of_lt hx]

end Sys2Proof.Machine
end

section
/-! PROOFS. 256-bit Barrett multiplication (spec/44_barrett_256.md): what one fold by `c = W - p` keeps and how far it shrinks
its argument, the three facts of `BRED`, and the results of the operations that rest on it. -/

namespace Sys2Proof.Machine

/-! ### One fold -/

section
variable {d : Descriptor} {T V n r : Nat}

theorem negp_add_modulus (h0 : 0 < d.modulus) (hlt : d.modulus < W) : d.negp + d.modulus = W := by
  rw [Descriptor.negp_eq_sub h0 hlt, Nat.sub_add_cancel hlt.le]

/-- A fold takes the high half times `p` away, because `H * W = H * c + H * p`. -/
theorem foldOnce_add_mul_modulus (hc : d.negp + d.modulus = W) (V : Nat) :
    foldOnce d V + V / W * d.modulus = V := by
  rw [foldOnce, Nat.add_right_comm, ← Nat.mul_add, hc, Nat.div_add_mod']

theorem foldOnce_mod (hc : d.negp + d.modulus = W) (V : Nat) : foldOnce d V % d.modulus = V % d.modulus := by
  rw [← Nat.add_mul_mod_self_right (foldOnce d V) (V / W), foldOnce_add_mul_modulus hc]

/-- How far a fold shrinks a value that stays `r` below `W * (n + 1)`: a high half of `n` leaves a low half at most `W - r`,
and a smaller one takes at least `c` off the product. -/
theorem foldOnce_add_le (hr : 0 < r) (hrc : r ≤ d.negp + 1) (hV : V + r ≤ W * (n + 1)) :
    foldOnce d V + r ≤ n * d.negp + W := by
  have hdiv : V / W * W + V % W = V := Nat.div_add_mod' V W
  have hlow : V % W < W := Nat.mod_lt _ (by simp)
  have hhigh : V / W ≤ n :=
    Nat.lt_succ_iff.1 (Nat.div_lt_of_lt_mul ((Nat.lt_add_of_pos_right hr).trans_le hV))
  rw [Nat.mul_comm, Nat.succ_mul] at hV
  rw [foldOnce]
  obtain heq | hlt := hhigh.eq_or_lt
  · rw [heq] at hdiv ⊢
    omega
  · have hmul : (V / W + 1) * d.negp ≤ n * d.negp := Nat.mul_le_mul_right _ hlt
    rw [Nat.succ_mul] at hmul
    omega

/-! ### `BRED` -/

/-- The bound of rule R175 on `V1`, with what is left below it. -/
theorem foldOnce_add_negp_le (hT : T < W * W) : foldOnce d T + (d.negp + 1) ≤ W * (d.negp + 1) := by
  have hfold : foldOnce d T + 1 ≤ (W - 1) * d.negp + W :=
    foldOnce_add_le Nat.one_pos (Nat.le_add_left ..) hT
  have hmul : (W - 1) * d.negp + d.negp = W * d.negp := by
    rw [← Nat.add_one_mul, Nat.sub_add_cancel (Nat.one_le_two_pow : 1 ≤ W)]
  rw [Nat.mul_succ]
  omega

/-- The bound of rule R175 on `V2`. -/
theorem foldOnce_foldOnce_add_le (hT : T < W * W) :
    foldOnce d (foldOnce d T) + (d.negp + 1) ≤ d.negp * d.negp + W :=
  foldOnce_add_le (Nat.succ_pos _) (Nat.le_refl _) (foldOnce_add_negp_le hT)

theorem bred_mod (hc : d.negp + d.modulus = W) (T : Nat) : bred d T % d.modulus = T % d.modulus := by
  rw [bred, correctOnce_mod, foldOnce_mod hc, foldOnce_mod hc]

/-- Rule R177: with `c * (c + 1) <= W` two folds end below `2p`, where one correction is enough. -/
theorem bred_lt (hc : d.negp + d.modulus = W) (hle : d.negp * (d.negp + 1) ≤ W) (hT : T < W * W) :
    bred d T < d.modulus := by
  have hfold := foldOnce_foldOnce_add_le (d := d) hT
  rw [Nat.mul_succ] at hle
  exact correctOnce_lt (by omega)

theorem bred_eq_mod (hc : d.negp + d.modulus = W) (hle : d.negp * (d.negp + 1) ≤ W) (hT : T < W * W) :
    bred d T = T % d.modulus := by
  rw [← bred_mod hc, Nat.mod_eq_of_lt (bred_lt hc hle hT)]

end

/-! ### The Barrett product of two words -/

section
variable {s : State} {c : Config} {f a b : Nat} {d : Descriptor}

/-- Under the descriptor a Barrett operation is bound to, `BRED` of a product of two words is canonical (rule R177). -/
theorem Binds.bred_mul (hb : Binds c f (some .w256) (some .barrett) d) (ha : a < W) (hb' : b < W) :
    bred d (a * b) = a * b % d.modulus := by
  obtain ⟨-, -, hkindOk, -⟩ := Descriptor.ok_iff.1 hb.ok
  have hkind : d.kind = .barrett := by simpa [eq_comm] using hb.kind
  obtain ⟨-, hle⟩ := Descriptor.kindOk_iff.1 hkindOk hkind
  exact bred_eq_mod (negp_add_modulus hb.modulus_pos hb.modulus_lt) hle (Nat.mul_lt_mul'' ha hb')

end

/-! ### The obligations -/

/-- Settles O35: every pair of words is in range, and `BRED` of their product is the residue stored. -/
theorem mulBarretResults : Obligations.MulBarretResults := by
  unfold Obligations.MulBarretResults
  rintro s f dst _ d hb rfl
  have hdst : s.readWide .w256 dst < W := s.readWide_lt .w256 dst
  have hlt (T : Nat) : T % d.modulus < d.modulus := Nat.mod_lt T hb.modulus_pos
  constructor
  · rintro src _ hl rfl
    have hbred := hb.bred_mul hdst (s.readWide_lt .w256 src)
    obtain ⟨t, hexec, hstores, hsrc⟩ :=
      modBinary_stores (rng := anyPair) (res := barretResult) hb hl rfl (hbred.trans_lt (hlt _))
    exact ⟨t, hexec, hbred ▸ hstores, hsrc, hbred⟩
  · intro hl
    have hbred := hb.bred_mul hdst hdst
    obtain ⟨t, hexec, hstores⟩ :=
      modUnary_stores (rng := anyValue) (res := barretSquareResult) hb hl rfl (hbred.trans_lt (hlt _))
    exact ⟨t, hexec, hbred ▸ hstores, hbred⟩

/-- Settles O36: each fold keeps the residue, and the bounds are those of the first fold and of the second. -/
theorem barrettReductionFacts : Obligations.BarrettReductionFacts := by
  unfold Obligations.BarrettReductionFacts
  intro d T c V1 V2 h0 hlt hT hneg hV1 hV2
  have hc := negp_add_modulus h0 hlt
  obtain rfl : c = d.negp := hneg.trans (Descriptor.negp_eq_sub h0 hlt).symm
  obtain rfl : V1 = foldOnce d T := hV1
  obtain rfl : V2 = foldOnce d (foldOnce d T) := hV2
  have hfirst := foldOnce_add_negp_le (d := d) hT
  have hsecond := foldOnce_foldOnce_add_le (d := d) hT
  have hbound : foldOnce d T < W * (d.negp + 1) := by omega
  refine ⟨rfl, foldOnce_mod hc T, ?_, bred_mod hc T, hbound, ?_, ?_, fun hsmall => ?_, fun hle => bred_lt hc hle hT⟩
  · rw [foldOnce_mod hc, foldOnce_mod hc]
  · exact Nat.lt_succ_iff.1 (Nat.div_lt_of_lt_mul hbound)
  · omega
  · have htwo : foldOnce d (foldOnce d T) < W * 2 := by omega
    exact ⟨by omega, Nat.lt_succ_iff.1 (Nat.div_lt_of_lt_mul htwo)⟩

end Sys2Proof.Machine
end

section
/-! PROOFS. 256-bit modular inversion (spec/45_inversion_256.md): Euclid's algorithm on cofactors finds the inverse within its
fuel, what a completed `inv_mod` leaves, and inversion in Montgomery form. -/

namespace Sys2Proof.Machine

/-! ### Euclid's algorithm on cofactors -/

section
variable {p x r0 r1 t0 t1 fuel : Nat}

/-- One division keeps the cofactors modulo `p`: the new one belongs to the remainder. -/
theorem mul_cofactor_step_modEq (hp : 0 < p) (h0 : x * t0 ≡ r0 [MOD p]) (h1 : x * t1 ≡ r1 [MOD p]) :
    x * ((t0 + (p - r0 / r1 * t1 % p)) % p) ≡ r0 % r1 [MOD p] := by
  have hlt : r0 / r1 * t1 % p < p := Nat.mod_lt _ hp
  refine ((Nat.mod_modEq _ p).mul_left x).trans (Nat.ModEq.add_right_cancel (h1.mul_right (r0 / r1)) ?_)
  calc x * (t0 + (p - r0 / r1 * t1 % p)) + x * t1 * (r0 / r1)
      = x * (t0 + (p - r0 / r1 * t1 % p) + r0 / r1 * t1) := by ring
    _ ≡ x * (t0 + (p - r0 / r1 * t1 % p) + r0 / r1 * t1 % p) [MOD p] :=
        ((Nat.mod_modEq _ p).symm.add_left _).mul_left x
    _ = x * t0 + p * x := by rw [Nat.add_assoc, Nat.sub_add_cancel hlt.le, Nat.mul_add, Nat.mul_comm p]
    _ ≡ x * t0 [MOD p] := Nat.add_mul_mod_self_left ..
    _ ≡ r0 [MOD p] := h0
    _ = r0 % r1 + r1 * (r0 / r1) := (Nat.mod_add_div r0 r1).symm

/-- A division at least halves the product of the two remainders. -/
theorem mul_mod_lt_two_pow (h1 : 0 < r1) (hle : r1 ≤ r0) (hfuel : r0 * r1 < 2 ^ (fuel + 1)) :
    r1 * (r0 % r1) < 2 ^ fuel := by
  have hrem : r0 % r1 < r1 := Nat.mod_lt r0 h1
  have hquot : r1 * 1 ≤ r1 * (r0 / r1) := Nat.mul_le_mul_left r1 (Nat.div_pos hle h1)
  have htwo : 2 * (r0 % r1) ≤ r0 := by have := Nat.div_add_mod r0 r1; omega
  have hhalf : 2 * (r1 * (r0 % r1)) ≤ r0 * r1 := by
    rw [Nat.mul_left_comm, Nat.mul_comm r0]
    exact Nat.mul_le_mul_left r1 htwo
  rw [Nat.pow_succ] at hfuel
  omega

/-- With enough fuel for the divisions the algorithm ends with a cofactor of the greatest common divisor. -/
theorem mul_euclidCofactor_modEq_gcd (hp : 0 < p) (hle : r1 ≤ r0) (hfuel : r0 * r1 < 2 ^ fuel)
    (h0 : x * t0 ≡ r0 [MOD p]) (h1 : x * t1 ≡ r1 [MOD p]) :
    x * euclidCofactor p fuel r0 r1 t0 t1 ≡ Nat.gcd r0 r1 [MOD p] := by
  induction fuel generalizing r0 r1 t0 t1 with
  | zero =>
    obtain rfl : r1 = 0 := by
      have hzero : r0 * r1 = 0 := Nat.lt_one_iff.1 hfuel
      obtain h | h := Nat.mul_eq_zero.1 hzero
      · omega
      · exact h
    rwa [euclidCofactor, Nat.gcd_zero_right]
  | succ fuel ih =>
    rw [euclidCofactor]
    split
    next hz => rwa [hz, Nat.gcd_zero_right]
    next hnz =>
      have hpos : 0 < r1 := Nat.pos_of_ne_zero hnz
      rw [Nat.gcd_comm, Nat.gcd_rec, Nat.gcd_comm]
      exact ih (Nat.mod_lt _ hpos).le (mul_mod_lt_two_pow hpos hle hfuel) h1 (mul_cofactor_step_modEq hp h0 h1)

theorem euclidCofactor_lt (h0 : t0 < p) (h1 : t1 < p) : euclidCofactor p fuel r0 r1 t0 t1 < p := by
  induction fuel generalizing r0 r1 t0 t1 with
  | zero => exact h0
  | succ fuel ih =>
    rw [euclidCofactor]
    split
    next => exact h0
    next => exact ih h1 (Nat.mod_lt _ (by omega))

/-! ### The inverse -/

theorem inverseMod_lt (hp : 1 < p) (x : Nat) : inverseMod p x < p := euclidCofactor_lt (by omega) hp

theorem mul_lt_two_pow {a b m n : Nat} (hmn : m + m ≤ n) (ha : a < 2 ^ m) (hb : b < 2 ^ m) : a * b < 2 ^ n :=
  calc a * b < 2 ^ m * 2 ^ m := Nat.mul_lt_mul'' ha hb
    _ = 2 ^ (m + m) := (Nat.pow_add ..).symm
    _ ≤ 2 ^ n := Nat.pow_le_pow_right Nat.two_pos hmn

/-- The fuel is enough for every modulus of one word. -/
theorem mul_inverseMod_mod (hp : 1 < p) (hpW : p < W) (hx : x < p) (hgcd : Nat.gcd x p = 1) :
    x * inverseMod p x % p = 1 := by
  have hfuel : p * x < 2 ^ euclidFuel := mul_lt_two_pow (m := 256) (by decide) hpW (hx.trans hpW)
  have h0 : x * 0 ≡ p [MOD p] := (Nat.modEq_zero_iff_dvd.2 (Nat.dvd_refl p)).symm
  have hinv : x * inverseMod p x ≡ Nat.gcd p x [MOD p] :=
    mul_euclidCofactor_modEq_gcd (by omega) hx.le hfuel h0 (by rw [Nat.mul_one])
  rw [Nat.gcd_comm, hgcd] at hinv
  rw [hinv, Nat.mod_eq_of_lt hp]

theorem inverseMod_pos (hp : 1 < p) (hpW : p < W) (hx : x < p) (hgcd : Nat.gcd x p = 1) : 0 < inverseMod p x := by
  refine Nat.pos_of_ne_zero fun hzero => ?_
  have hinv := mul_inverseMod_mod hp hpW hx hgcd
  rw [hzero, Nat.mul_zero, Nat.zero_mod] at hinv
  cases hinv

end

/-! ### How `inv_mod` ends -/

section
variable {s t : State} {f dst : Nat} {d : Descriptor}

theorem Binds.one_lt_modulus {c : Config} {w : Option Width} {k : Option RedKind} (h : Binds c f w k d) :
    1 < d.modulus := by
  obtain ⟨-, -, -, hprime⟩ := Descriptor.ok_iff.1 h.ok
  exact hprime.one_lt

/-- A field of one kind may be bound by an operation that asks for none. -/
theorem Binds.anyKind {c : Config} {w : Option Width} {k : Option RedKind} (h : Binds c f w k d) :
    Binds c f w none d where
  found := h.found
  ok := h.ok
  width := h.width
  kind := .inl rfl

/-- What `inv_mod` stores, answers and leaves for an invertible operand (rule R185). -/
structure Inverts (s t : State) (dst v : Nat) : Prop where
  value : t.readWide .w256 dst = v
  ret : t.ret = .bit true
  memory : sameOutside s t dst 32
  frame : OpFrame s t

/-- What is returned does not touch memory: the bytes are those of an operation that returns nothing. -/
theorem State.readByte_completeOp_ret (s : State) (r r' : Ret) (x : Nat) :
    (s.completeOp r).readByte x = (s.completeOp r').readByte x := rfl

/-- The answer of `inv_mod` when its descriptor is bound and its operand is legal: the three cases of rule R185. -/
theorem exec_invMod_of_legal (hb : Binds s.cfg f (some .w256) none d) (hl : OpLegal s true [mutOperand .w256 dst]) :
    exec (.invMod f dst) s =
      if invRange d (s.readWide .w256 dst) then
        if s.readWide .w256 dst = 0 then .next (s.beginOp.completeOp (.bit false))
        else .next ((s.beginOp.writeWide .w256 dst (inverseMod d.modulus (s.readWide .w256 dst))).completeOp (.bit true))
      else .refused .vRange := by
  change execInvMod f dst s = _
  rw [execInvMod, moduleOp_of_legal _ hb hl]
  simp only [State.readWide_beginOp]

/-- Rule R185 for zero: `ok = 0`, and nothing is written. -/
theorem invMod_returns_of_zero (hb : Binds s.cfg f (some .w256) none d) (hl : OpLegal s true [mutOperand .w256 dst])
    (hz : s.readWide .w256 dst = 0) : ∃ t, exec (.invMod f dst) s = .next t ∧ Returns s t false := by
  have hrange : invRange d (s.readWide .w256 dst) = true := decide_eq_true ⟨hz ▸ hb.modulus_pos, .inl hz⟩
  refine ⟨_, ?_, returns_completeOp s false⟩
  rw [exec_invMod_of_legal hb hl, if_pos hrange, if_pos hz]

/-- Rule R185 for an invertible operand: `ok = 1`, and the inverse is stored. -/
theorem invMod_inverts (hb : Binds s.cfg f (some .w256) none d) (hl : OpLegal s true [mutOperand .w256 dst])
    (hz : s.readWide .w256 dst ≠ 0) (hlt : s.readWide .w256 dst < d.modulus)
    (hgcd : Nat.gcd (s.readWide .w256 dst) d.modulus = 1) :
    ∃ t, exec (.invMod f dst) s = .next t ∧ Inverts s t dst (inverseMod d.modulus (s.readWide .w256 dst)) := by
  have hv := (inverseMod_lt hb.one_lt_modulus (s.readWide .w256 dst)).trans hb.modulus_lt
  have hstores := stores_completeOp_writeWide hl List.mem_cons_self hv
  have hrange : invRange d (s.readWide .w256 dst) = true := decide_eq_true ⟨hlt, .inr hgcd⟩
  refine ⟨_, by rw [exec_invMod_of_legal hb hl, if_pos hrange, if_neg hz], ?_⟩
  exact {
    value := (State.readWide_congr fun _ _ => State.readByte_completeOp_ret ..).trans hstores.value
    ret := rfl
    memory x hx hs := (State.readByte_completeOp_ret ..).trans (hstores.memory x hx hs)
    frame := opFrame_completeOp _ (by simp) (by simp) }

/-- Outside its range `inv_mod` is refused (spec/60_exceptions.md rule R244). -/
theorem invMod_refused (hb : Binds s.cfg f (some .w256) none d) (hl : OpLegal s true [mutOperand .w256 dst])
    (hr : invRange d (s.readWide .w256 dst) = false) : exec (.invMod f dst) s = .refused .vRange := by
  rw [exec_invMod_of_legal hb hl, hr, if_neg Bool.false_ne_true]

end

/-! ### Inversion in Montgomery form -/

section
variable {d : Descriptor} {a y z : Nat}

/-- The plain integer of an invertible Montgomery form is invertible. -/
theorem gcd_toIntegerResult (hodd : d.modulus % 2 = 1) (hgcd : Nat.gcd a d.modulus = 1) :
    Nat.gcd (toIntegerResult d a) d.modulus = 1 := by
  have hmul : toIntegerResult d a * W ≡ a [MOD d.modulus] := toIntegerResult_mul_W_mod hodd a
  exact Nat.Coprime.coprime_mul_right (hmul.gcd_eq.trans hgcd)

/-- Rule R188: the Montgomery forms of `y` and of its inverse `z` multiply to `R * R`. -/
theorem mul_form_of_inverse_mod (ha : y * W ≡ a [MOD d.modulus]) (hz : y * z ≡ 1 [MOD d.modulus]) :
    a * (z * W % d.modulus) ≡ W * W [MOD d.modulus] :=
  calc a * (z * W % d.modulus) ≡ y * W * (z * W) [MOD d.modulus] := ha.symm.mul (Nat.mod_modEq _ _)
    _ = y * z * (W * W) := by ring
    _ ≡ 1 * (W * W) [MOD d.modulus] := hz.mul_right _
    _ = W * W := Nat.one_mul _

theorem ne_zero_of_gcd_eq_one (hp : 1 < d.modulus) (hgcd : Nat.gcd y d.modulus = 1) : y ≠ 0 := by
  rintro rfl
  rw [Nat.gcd_zero_left] at hgcd
  omega

end

/-! ### The obligations -/

/-- Settles O38: Euclid's algorithm finds the inverse of an invertible operand, and `invRange` refuses what is neither that nor
zero. -/
theorem invModResult : Obligations.InvModResult := by
  unfold Obligations.InvModResult
  rintro s f dst _ d hb hl rfl
  refine ⟨invMod_returns_of_zero hb hl, fun hpos hlt hgcd => ?_, fun hbad => ?_⟩
  · have hp := hb.one_lt_modulus
    obtain ⟨t, hexec, ht⟩ := invMod_inverts hb hl hpos.ne' hlt hgcd
    exact ⟨t, _, hexec, ht.value, inverseMod_pos hp hb.modulus_lt hlt hgcd, inverseMod_lt hp _,
      mul_inverseMod_mod hp hb.modulus_lt hlt hgcd, ht.ret, ht.memory, ht.frame⟩
  · have hout : ¬ (s.readWide .w256 dst < d.modulus ∧
        (s.readWide .w256 dst = 0 ∨ Nat.gcd (s.readWide .w256 dst) d.modulus = 1)) := by
      have hp := hb.modulus_pos
      omega
    exact invMod_refused hb hl (decide_eq_false hout)

/-- Settles O39: each operation meets the operand the one before it left; the plain integer of `a` is invertible because `a` is. -/
theorem invertInMontgomeryForm : Obligations.InvertInMontgomeryForm := by
  unfold Obligations.InvertInMontgomeryForm
  rintro s f dst _ d hb hl rfl - hgcd
  have hodd := hb.modulus_odd
  have hp := hb.one_lt_modulus
  have hlt := toIntegerResult_lt hodd (s.readWide_lt .w256 dst)
  have hgcd' := gcd_toIntegerResult hodd hgcd
  obtain ⟨t, hexecT, ht⟩ := toInteger_stores hb hl
  have hbT := ht.frame.cfg.symm ▸ hb
  have hlT := hl.of_opFrame ht.frame
  obtain ⟨u, hexecU, hu⟩ := invMod_inverts hbT.anyKind hlT (ht.value.symm ▸ ne_zero_of_gcd_eq_one hp hgcd')
    (ht.value.symm ▸ hlt) (ht.value.symm ▸ hgcd')
  rw [ht.value] at hu
  obtain ⟨v, hexecV, hv⟩ := toRepresentation_stores (hu.frame.cfg.symm ▸ hbT) (hlT.of_opFrame hu.frame)
    (hu.value.symm ▸ inverseMod_lt hp _)
  have hinv : toIntegerResult d (s.readWide .w256 dst) * inverseMod d.modulus (toIntegerResult d (s.readWide .w256 dst)) ≡
      1 [MOD d.modulus] := (mul_inverseMod_mod hp hb.modulus_lt hlt hgcd').trans (Nat.mod_eq_of_lt hp).symm
  refine ⟨t, u, v, hexecT, hexecU, hu.ret, hexecV, hv.value ▸ Nat.mod_lt _ hb.modulus_pos, ?_⟩
  rw [hv.value, hu.value]
  exact mul_form_of_inverse_mod (toIntegerResult_mul_W_mod hodd _) hinv

end Sys2Proof.Machine
end

section
/-! PROOFS. The 512-bit modular operations (spec/46_modular_512.md rules R203 to R212): every operation that stores a value
stores a residue of the modulus, which fits the two words at `dst`; the comparisons and tests speak of the stored integers. -/

namespace Sys2Proof.Machine

/-! ### A result that is a residue -/

section
variable {s : State} {w : Width} {k : Option RedKind} {f dst src n : Nat} {d : Descriptor}

/-- A residue of the bound modulus is a value that fits the operand, so in its range the operation stores it. -/
theorem modBinary_stores_residue {rng : Descriptor → Nat → Nat → Bool} {res : Descriptor → Nat → Nat → Nat}
    (hb : Binds s.cfg f (some w) k d) (hl : OpLegal s true [mutOperand w dst, readOperand w src])
    (hr : rng d (s.readWide w dst) (s.readWide w src) = true)
    (hres : res d (s.readWide w dst) (s.readWide w src) = n % d.modulus) :
    ∃ t, modBinary w k rng res f dst src s = .next t ∧ Stores s t w dst (n % d.modulus) ∧
      t.readWide w src = s.readWide w src := by
  have hlt : res d (s.readWide w dst) (s.readWide w src) < d.modulus := hres ▸ Nat.mod_lt n hb.modulus_pos
  rw [← hres]
  exact modBinary_stores hb hl hr hlt

/-- The same of a one-operand operation. -/
theorem modUnary_stores_residue {rng : Descriptor → Nat → Bool} {res : Descriptor → Nat → Nat}
    (hb : Binds s.cfg f (some w) k d) (hl : OpLegal s true [mutOperand w dst])
    (hr : rng d (s.readWide w dst) = true) (hres : res d (s.readWide w dst) = n % d.modulus) :
    ∃ t, modUnary w k rng res f dst s = .next t ∧ Stores s t w dst (n % d.modulus) := by
  have hlt : res d (s.readWide w dst) < d.modulus := hres ▸ Nat.mod_lt n hb.modulus_pos
  rw [← hres]
  exact modUnary_stores hb hl hr hlt

end

/-! ### The obligations -/

/-- Settles O40: the sum is reduced by definition, and for canonical operands the two cases of `subResult` are a residue. -/
theorem addSubResults512 : Obligations.AddSubResults512 := by
  unfold Obligations.AddSubResults512
  rintro s f dst src _ _ d hb hl rfl rfl
  refine ⟨fun hlt => ?_, fun hge => ?_, fun hA hB => ?_, fun hge => ?_⟩
  · exact modBinary_stores_residue hb hl (decide_eq_true hlt) rfl
  · exact modBinary_refused hb hl (decide_eq_false (Nat.not_lt.2 hge))
  · exact modBinary_stores_residue hb hl (decide_eq_true ⟨hA, hB⟩) (subResult_eq_mod hA hB)
  · exact modBinary_refused hb hl (decide_eq_false (by omega))

/-- Settles O41: the double is reduced by definition, and each case of `negateResult` is a residue; `p` itself is in range only
for `negate_mod512`. -/
theorem doubleNegateResults512 : Obligations.DoubleNegateResults512 := by
  unfold Obligations.DoubleNegateResults512
  rintro s f dst _ d hb hl rfl
  refine ⟨fun hlt => ?_, fun hge => ?_, fun hle => ?_, fun hgt => ?_⟩
  · exact modUnary_stores_residue hb hl (decide_eq_true hlt) rfl
  · exact modUnary_refused hb hl (decide_eq_false (Nat.not_lt.2 hge))
  · exact modUnary_stores_residue hb hl (decide_eq_true hle) (negateResult_eq_mod hle)
  · exact modUnary_refused hb hl (decide_eq_false (Nat.not_le.2 hgt))

/-- Settles O42: a comparison only reads, and its test is of the two 512-bit integers, not of their halves. -/
theorem compareResults512 : Obligations.CompareResults512 := by
  unfold Obligations.CompareResults512
  intro s f a b d hb hl
  refine ⟨?lt, ?leq, ?eq⟩
  case lt => exact modCompare_returns (test := ltTest) hb hl
  case leq => exact modCompare_returns (test := leqTest) hb hl
  case eq => exact modCompare_returns (test := eqTest) hb hl

/-- Settles O43: a test only reads; `is_zero_mod512` is the one that looks at the bound modulus. -/
theorem zeroOneTestResults512 : Obligations.ZeroOneTestResults512 := by
  unfold Obligations.ZeroOneTestResults512
  intro s f a d hb hl
  refine ⟨?zero, ?one, ?zeroMod⟩
  case zero => exact modTest_returns (test := zeroTest) hb hl
  case one => exact modTest_returns (test := oneTest) hb hl
  case zeroMod => exact modTest_returns (test := zeroModTest) hb hl

end Sys2Proof.Machine
end

section
/-! PROOFS. 512-bit Montgomery multiplication and form conversion (spec/47_montgomery_512.md): the two one-word passes of `MM512`
are one Montgomery reduction with radix `R = W * W`, and what one correction and the conversions make of it. -/

namespace Sys2Proof.Machine

/-! ### `MM512` as a one-step reduction -/

theorem two_pow_bits_w512 : 2 ^ Width.w512.bits = W * W := by
  have hbits : Width.w512.bits = 256 + 256 := rfl
  rw [hbits, Nat.pow_add]

theorem coprime_W_mul_W_of_odd {p : Nat} (hodd : p % 2 = 1) : Nat.Coprime p (W * W) :=
  (coprime_W_of_odd hodd).mul_right (coprime_W_of_odd hodd)

/-- The multipliers of the two passes of `MM512`, as the low and the high word of one multiplier. -/
def mm512Multiplier (d : Descriptor) (a b : Nat) : Nat :=
  redcMultiplier d (0 + a * (b % W)) + W * redcMultiplier d (redc512Pass d a (b % W) 0 + a * (b / W))

section
variable {d : Descriptor} {a b n x y : Nat}

theorem redcMultiplier_lt (d : Descriptor) (T : Nat) : redcMultiplier d T < W := Nat.mod_lt _ (by simp)

theorem mm512Multiplier_lt (d : Descriptor) (a b : Nat) : mm512Multiplier d a b < W * W :=
  Nat.add_mul_lt_mul_of_lt_of_lt (redcMultiplier_lt d _) (redcMultiplier_lt d _)

theorem redc512Pass_mul_W (hodd : d.modulus % 2 = 1) (a bi T : Nat) :
    redc512Pass d a bi T * W = T + a * bi + redcMultiplier d (T + a * bi) * d.modulus :=
  redc_mul_W hodd (T + a * bi)

/-- Fact (a) of rule R220: both divisions are exact, so `MM512` divides `a b + M p` by `W * W` exactly. -/
theorem mm512_mul_radix (hodd : d.modulus % 2 = 1) (a b : Nat) :
    mm512 d a b * (W * W) = a * b + mm512Multiplier d a b * d.modulus := by
  have hlow := redc512Pass_mul_W hodd a (b % W) 0
  have hhigh := redc512Pass_mul_W hodd a (b / W) (redc512Pass d a (b % W) 0)
  rw [mm512, mm512Multiplier]
  generalize redc512Pass d a (b % W) 0 = T at hlow hhigh ⊢
  generalize redcMultiplier d (0 + a * (b % W)) = m₀ at hlow ⊢
  generalize redcMultiplier d (T + a * (b / W)) = m₁ at hhigh ⊢
  calc redc512Pass d a (b / W) T * (W * W) = redc512Pass d a (b / W) T * W * W := (Nat.mul_assoc ..).symm
    _ = (T + a * (b / W) + m₁ * d.modulus) * W := by rw [hhigh]
    _ = T * W + (a * (b / W) + m₁ * d.modulus) * W := by ring
    _ = 0 + a * (b % W) + m₀ * d.modulus + (a * (b / W) + m₁ * d.modulus) * W := by rw [hlow]
    _ = a * (b % W + W * (b / W)) + (m₀ + W * m₁) * d.modulus := by ring
    _ = a * b + (m₀ + W * m₁) * d.modulus := by rw [Nat.mod_add_div]

/-- The word-serial multiplier is the one-step multiplier: `p N = -1` leaves only one value below `W * W` for which `a b + M p`
is a multiple of it. -/
theorem mm512Multiplier_eq {N : Nat} (hodd : d.modulus % 2 = 1) (hN : (d.modulus * N + 1) % (W * W) = 0) (a b : Nat) :
    mm512Multiplier d a b = a * b % (W * W) * N % (W * W) := by
  have hexact := mm512_mul_radix hodd a b
  have hlt := mm512Multiplier_lt d a b
  generalize mm512Multiplier d a b = M at hexact hlt ⊢
  have hinv : d.modulus * N + 1 ≡ 0 [MOD W * W] := hN
  have hadd : M + M * d.modulus * N ≡ a * b * N + M * d.modulus * N [MOD W * W] :=
    calc M + M * d.modulus * N = M * (d.modulus * N + 1) := by ring
      _ ≡ M * 0 [MOD W * W] := hinv.mul_left M
      _ ≡ mm512 d a b * N * (W * W) [MOD W * W] := (Nat.mul_mod_left ..).symm
      _ = mm512 d a b * (W * W) * N := by ring
      _ = a * b * N + M * d.modulus * N := by rw [hexact, Nat.add_mul]
  have hM : M ≡ a * b % (W * W) * N [MOD W * W] :=
    (Nat.ModEq.add_right_cancel' _ hadd).trans ((Nat.mod_modEq (a * b) (W * W)).symm.mul_right N)
  rw [← hM, Nat.mod_eq_of_lt hlt]

/-- Fact (b) of rule R220. -/
theorem mm512_mul_radix_mod (hodd : d.modulus % 2 = 1) (a b : Nat) :
    mm512 d a b * (W * W) % d.modulus = a * b % d.modulus := by
  rw [mm512_mul_radix hodd, Nat.add_mul_mod_self_right]

theorem mm512_mul_radix_lt (hodd : d.modulus % 2 = 1) (a b : Nat) :
    mm512 d a b * (W * W) < a * b + d.modulus * (W * W) := by
  have hp : 0 < d.modulus := by omega
  rw [mm512_mul_radix hodd, Nat.mul_comm d.modulus]
  exact Nat.add_lt_add_left (Nat.mul_lt_mul_of_pos_right (mm512Multiplier_lt d a b) hp) _

/-- Each bound of fact (c) of rule R220 is this one, for `n = p` and `n = W * W`. -/
theorem mm512_lt_add_modulus (hodd : d.modulus % 2 = 1) (hab : a * b ≤ n * (W * W)) : mm512 d a b < n + d.modulus := by
  apply Nat.lt_of_mul_lt_mul_right (a := W * W)
  calc mm512 d a b * (W * W) < a * b + d.modulus * (W * W) := mm512_mul_radix_lt hodd a b
    _ ≤ n * (W * W) + d.modulus * (W * W) := Nat.add_le_add_right hab _
    _ = (n + d.modulus) * (W * W) := (Nat.add_mul ..).symm

theorem mm512_lt_two_mul_modulus (hodd : d.modulus % 2 = 1) (hab : a * b < d.modulus * (W * W)) :
    mm512 d a b < 2 * d.modulus := by
  rw [Nat.two_mul]
  exact mm512_lt_add_modulus hodd hab.le

/-! ### The corrected product and the conversions -/

theorem mont512Result_mul_radix_mod (hodd : d.modulus % 2 = 1) (a b : Nat) :
    mont512Result d a b * (W * W) % d.modulus = a * b % d.modulus := by
  rw [mont512Result, Nat.mul_mod, correctOnce_mod, ← Nat.mul_mod, mm512_mul_radix_mod hodd]

theorem mont512Result_lt (hodd : d.modulus % 2 = 1) (hab : a * b < d.modulus * (W * W)) :
    mont512Result d a b < d.modulus :=
  correctOnce_lt (mm512_lt_two_mul_modulus hodd hab)

theorem radix_eq_W_mul_W (hw : d.width = .w512) : d.radix = W * W := by
  rw [Descriptor.radix, hw, two_pow_bits_w512]

theorem montRange_eq_w512 (hw : d.width = .w512) (a b : Nat) :
    montRange d a b = decide (a * b < d.modulus * (W * W)) := by
  rw [montRange, radix_eq_W_mul_W hw]

theorem toRepresentationResult_eq_w512 (hw : d.width = .w512) (x : Nat) :
    toRepresentationResult d x = x * (W * W) % d.modulus := by
  rw [toRepresentationResult, radix_eq_W_mul_W hw]

/-- Rule R226 accepts every value: a value of two words times 1 is always in the range of the Montgomery product. -/
theorem toInteger512Result_lt (hodd : d.modulus % 2 = 1) (hx : x < W * W) : toInteger512Result d x < d.modulus := by
  refine mont512Result_lt hodd ?_
  rw [Nat.mul_one]
  exact hx.trans_le (Nat.le_mul_of_pos_left _ (by omega))

theorem toInteger512Result_mul_radix_mod (hodd : d.modulus % 2 = 1) (x : Nat) :
    toInteger512Result d x * (W * W) % d.modulus = x % d.modulus := by
  rw [toInteger512Result, mont512Result_mul_radix_mod hodd, Nat.mul_one]

/-- The integer of the Montgomery form of `x` is `x`, because `W * W` cancels modulo `p`. -/
theorem toInteger512Result_of_mul_radix_mod (hodd : d.modulus % 2 = 1) (hp : d.modulus < W * W) (hx : x < d.modulus) :
    toInteger512Result d (x * (W * W) % d.modulus) = x := by
  have hform : x * (W * W) % d.modulus < W * W := (Nat.mod_lt _ (by omega)).trans hp
  have hmod : toInteger512Result d (x * (W * W) % d.modulus) * (W * W) ≡ x * (W * W) [MOD d.modulus] := by
    rw [Nat.ModEq, toInteger512Result_mul_radix_mod hodd, Nat.mod_mod]
  exact (hmod.cancel_right_of_coprime (coprime_W_mul_W_of_odd hodd)).eq_of_lt_of_lt
    (toInteger512Result_lt hodd hform) hx

end

/-! ### How a 512-bit Montgomery operation ends -/

section
variable {s : State} {f dst src : Nat} {d : Descriptor}

/-- Rule R222: in its range `mul_mont512` stores the Montgomery product and leaves `src`. -/
theorem mulMont512_stores (hb : Binds s.cfg f (some .w512) (some .montgomery) d)
    (hl : OpLegal s true [mutOperand .w512 dst, readOperand .w512 src])
    (hlt : s.readWide .w512 dst * s.readWide .w512 src < d.modulus * (W * W)) :
    ∃ t, exec (.mulMont512 f dst src) s = .next t ∧
      Stores s t .w512 dst (mont512Result d (s.readWide .w512 dst) (s.readWide .w512 src)) ∧
      t.readWide .w512 src = s.readWide .w512 src :=
  modBinary_stores hb hl ((montRange_eq_w512 hb.width_eq ..).trans (decide_eq_true hlt))
    (mont512Result_lt hb.modulus_odd hlt)

/-- Rule R223: in its range `square_mont512` stores the Montgomery product of the value with itself. -/
theorem squareMont512_stores (hb : Binds s.cfg f (some .w512) (some .montgomery) d)
    (hl : OpLegal s true [mutOperand .w512 dst])
    (hlt : s.readWide .w512 dst * s.readWide .w512 dst < d.modulus * (W * W)) :
    ∃ t, exec (.squareMont512 f dst) s = .next t ∧
      Stores s t .w512 dst (mont512Result d (s.readWide .w512 dst) (s.readWide .w512 dst)) :=
  modUnary_stores hb hl ((montRange_eq_w512 hb.width_eq ..).trans (decide_eq_true hlt))
    (mont512Result_lt hb.modulus_odd hlt)

/-- Rule R225: a canonical value is replaced by its Montgomery form. -/
theorem toRepresentation512_stores (hb : Binds s.cfg f (some .w512) (some .montgomery) d)
    (hl : OpLegal s true [mutOperand .w512 dst]) (hlt : s.readWide .w512 dst < d.modulus) :
    ∃ t, exec (.toRepresentation512 f dst) s = .next t ∧
      Stores s t .w512 dst (s.readWide .w512 dst * (W * W) % d.modulus) :=
  modUnary_stores_residue hb hl (decide_eq_true hlt) (toRepresentationResult_eq_w512 hb.width_eq _)

/-- Rule R226: every 512-bit value is in the range of `to_integer512`, and the result is canonical. -/
theorem toInteger512_stores (hb : Binds s.cfg f (some .w512) (some .montgomery) d)
    (hl : OpLegal s true [mutOperand .w512 dst]) :
    ∃ t, exec (.toInteger512 f dst) s = .next t ∧
      Stores s t .w512 dst (toInteger512Result d (s.readWide .w512 dst)) ∧
      toInteger512Result d (s.readWide .w512 dst) < d.modulus := by
  have hlt : toInteger512Result d (s.readWide .w512 dst) < d.modulus :=
    toInteger512Result_lt hb.modulus_odd (two_pow_bits_w512 ▸ s.readWide_lt .w512 dst)
  obtain ⟨t, hexec, hstores⟩ := modUnary_stores (rng := anyValue) hb hl rfl hlt
  exact ⟨t, hexec, hstores, hlt⟩

/-- Rules R225 and R226: `to_integer512` after `to_representation512` gives a canonical value back. -/
theorem toInteger512_after_toRepresentation512 (hb : Binds s.cfg f (some .w512) (some .montgomery) d)
    (hl : OpLegal s true [mutOperand .w512 dst]) (hx : s.readWide .w512 dst < d.modulus) :
    ∃ t u, exec (.toRepresentation512 f dst) s = .next t ∧ exec (.toInteger512 f dst) t = .next u ∧
      u.readWide .w512 dst = s.readWide .w512 dst := by
  obtain ⟨t, hrep, hst⟩ := toRepresentation512_stores hb hl hx
  obtain ⟨u, hint, hu, -⟩ := toInteger512_stores (hst.frame.cfg.symm ▸ hb) (hl.of_opFrame hst.frame)
  refine ⟨t, u, hrep, hint, hu.value.trans ?_⟩
  rw [hst.value, toInteger512Result_of_mul_radix_mod hb.modulus_odd (two_pow_bits_w512 ▸ hb.modulus_lt) hx]

/-- Rules R225 and R226: `to_representation512` after `to_integer512` gives a canonical value back. -/
theorem toRepresentation512_after_toInteger512 (hb : Binds s.cfg f (some .w512) (some .montgomery) d)
    (hl : OpLegal s true [mutOperand .w512 dst]) (hx : s.readWide .w512 dst < d.modulus) :
    ∃ t u, exec (.toInteger512 f dst) s = .next t ∧ exec (.toRepresentation512 f dst) t = .next u ∧
      u.readWide .w512 dst = s.readWide .w512 dst := by
  obtain ⟨t, hint, hst, hlt⟩ := toInteger512_stores hb hl
  obtain ⟨u, hrep, hu⟩ :=
    toRepresentation512_stores (hst.frame.cfg.symm ▸ hb) (hl.of_opFrame hst.frame) (hst.value.symm ▸ hlt)
  refine ⟨t, u, hint, hrep, hu.value.trans ?_⟩
  rw [hst.value, toInteger512Result_mul_radix_mod hb.modulus_odd, Nat.mod_eq_of_lt hx]

end

/-! ### The obligations -/

/-- Settles O44: the multipliers of the two passes are the words of the one-step multiplier, and the bounds follow from
`M < W * W`. -/
theorem wordSerialReductionFacts : Obligations.WordSerialReductionFacts := by
  unfold Obligations.WordSerialReductionFacts
  intro d a b hok _ ha hb
  obtain ⟨hodd, -, -, -⟩ := Descriptor.ok_iff.1 hok
  refine ⟨?_, mm512_mul_radix_mod hodd a b, mm512_mul_radix_lt hodd a b, mm512_lt_two_mul_modulus hodd,
    mm512_lt_add_modulus hodd (Nat.mul_le_mul ha.le hb.le)⟩
  intro N M _ hN hM
  have hexact : a * b + M * d.modulus = mm512 d a b * (W * W) := by
    rw [hM, ← mm512Multiplier_eq hodd hN, mm512_mul_radix hodd]
  rw [hexact]
  exact ⟨(Nat.mul_div_cancel _ (by simp)).symm, Nat.mul_mod_left ..⟩

/-- Settles O45: in the range `MM512` stays below `2p`, so one correction makes it canonical. -/
theorem mulMontResults512 : Obligations.MulMontResults512 := by
  unfold Obligations.MulMontResults512
  rintro s f dst _ d hb rfl
  have hodd := hb.modulus_odd
  have hrange := montRange_eq_w512 hb.width_eq
  refine ⟨?mul, fun hl => ⟨fun hlt => ?square, fun hge => ?squareRefused⟩⟩
  case mul =>
    rintro src _ hl rfl
    refine ⟨fun hlt => ?_, fun hge => ?_⟩
    · obtain ⟨t, hexec, hstores, hsrc⟩ := mulMont512_stores hb hl hlt
      exact ⟨t, _, hexec, hstores, hsrc, rfl, mont512Result_lt hodd hlt, mont512Result_mul_radix_mod hodd _ _⟩
    · exact modBinary_refused hb hl ((hrange ..).trans (decide_eq_false (Nat.not_lt.2 hge)))
  case square =>
    obtain ⟨t, hexec, hstores⟩ := squareMont512_stores hb hl hlt
    exact ⟨t, _, hexec, hstores, mont512Result_lt hodd hlt, mont512Result_mul_radix_mod hodd _ _⟩
  case squareRefused => exact modUnary_refused hb hl ((hrange ..).trans (decide_eq_false (Nat.not_lt.2 hge)))

/-- Settles O46: the Montgomery form is a residue, the Montgomery product with 1 is canonical for every value, and the second
conversion meets the operand the first one left. -/
theorem conversionResults512 : Obligations.ConversionResults512 := by
  unfold Obligations.ConversionResults512
  rintro s f dst _ d hb hl rfl
  refine ⟨toRepresentation512_stores hb hl, fun hge => ?refused, ?toInteger,
    toInteger512_after_toRepresentation512 hb hl, toRepresentation512_after_toInteger512 hb hl⟩
  case refused => exact modUnary_refused hb hl (decide_eq_false (Nat.not_lt.2 hge))
  case toInteger =>
    obtain ⟨t, hexec, hstores, hlt⟩ := toInteger512_stores hb hl
    exact ⟨t, _, hexec, hstores, hlt, toInteger512Result_mul_radix_mod hb.modulus_odd _⟩

end Sys2Proof.Machine
end

section
/-! PROOFS. The violations (spec/60_exceptions.md): how an operation stops at the first check it fails. A delegation call checks
its control word (rule R241), then its addresses (rules R242, R243 and R245, in the order of rule R249); every other operation
that is bound to its field checks the place of its operands before it reads anything. -/

namespace Sys2Proof

/-! ### The reserved control words -/

/-- The reserved bits of rule R70: `rsv` keeps those of a word and clears the others. -/
theorem getLsbD_rsvField_ctlTable (ctl : Ctl) {k : Nat} (hk : k < 32) :
    (ctlTable.rsvField ctl).getLsbD k = (ctl.getLsbD k && decide (3 ≤ k ∧ k ≠ 6)) := by
  have hmask : ∀ k < 32, (~~~(BitVec.ofNat 32 (2 ^ ctlTable.opBits - 1) |||
      BitVec.ofNat 32 (2 ^ ctlTable.cinBit))).getLsbD k = decide (3 ≤ k ∧ k ≠ 6) := by decide
  rw [CtlTable.rsvField, BitVec.getLsbD_and, hmask k hk]

theorem getLsbD_of_rsvField_eq_zero {ctl : Ctl} (h : ctlTable.rsvField ctl = 0) {k : Nat} (hk : 3 ≤ k) (hk6 : k ≠ 6) :
    ctl.getLsbD k = false := by
  by_cases hlt : k < 32
  · have hbit := getLsbD_rsvField_ctlTable ctl hlt
    simpa [h, hk, hk6] using hbit.symm
  · exact BitVec.getLsbD_of_ge _ _ (Nat.le_of_not_lt hlt)

/-- A word with no reserved bit is made of its two fields: it is below 128, and each of those words is. -/
theorem eq_ofNat_fields_of_rsvField_eq_zero {ctl : Ctl} (h : ctlTable.rsvField ctl = 0) :
    BitVec.ofNat 32 (ctlTable.opField ctl + if ctlTable.cinField ctl then 2 ^ ctlTable.cinBit else 0) = ctl := by
  have hlt : ctl.toNat < 2 ^ 7 := Nat.lt_pow_two_of_testBit _ fun k hk => by
    rw [BitVec.testBit_toNat]
    exact getLsbD_of_rsvField_eq_zero h (by omega) (by omega)
  have hsmall : ∀ n < 2 ^ 7, ctlTable.rsvField (BitVec.ofNat 32 n) = 0 →
      BitVec.ofNat 32 (ctlTable.opField (BitVec.ofNat 32 n) +
        if ctlTable.cinField (BitVec.ofNat 32 n) then 2 ^ ctlTable.cinBit else 0) = BitVec.ofNat 32 n := by decide
  have hctl := hsmall ctl.toNat hlt
  rw [BitVec.ofNat_toNat, BitVec.setWidth_eq] at hctl
  exact hctl h

/-- No two rows of the map have the same opcode, so that looking one up by its opcode finds it. -/
theorem ctlTable_find_opcode : ∀ r ∈ ctlTable.rows,
    ctlTable.rows.find? (fun r' => r'.opcode == r.opcode) = some r := by decide

theorem encode_opcode_instr (t : CtlTable) (o : Opcode) (cin : Bool) : encode t (o.instr cin) = t.word o cin := by
  cases o with
  | add | sub | subAndNegate | mulLow | mulHigh | eq | reserved6 | memCpy => rfl

/-- Rule R72: an operation read from a word has that word; the decoder drops no bit. -/
theorem encode_of_decode {ctl : Ctl} {i : Instr} (h : decode ctlTable ctl = .ok i) : encode ctlTable i = some ctl := by
  obtain ⟨hrsv, r, hr, rfl⟩ := decode_eq_ok_iff.1 h
  have hvalue : r.value = ctlTable.opField ctl := by simpa using List.find?_some hr
  rw [encode_opcode_instr, CtlTable.word_eq_some_iff]
  refine ⟨r, ctlTable_find_opcode r (List.mem_of_find?_eq_some hr), ?_⟩
  rw [hvalue]
  exact eq_ofNat_fields_of_rsvField_eq_zero hrsv

/-- Rule R76 (a): the value 6 of the `op` field selects the reserved opcode. -/
theorem decode_eq_reserved {ctl : Ctl} {i : Instr} (h : decode ctlTable ctl = .ok i) (hop : ctl.toNat % 8 = 6) :
    i = .reserved (ctlTable.cinField ctl) := by
  obtain ⟨-, r, hr, rfl⟩ := decode_eq_ok_iff.1 h
  have hrow : ∀ r ∈ ctlTable.rows, r.value = 6 → r.opcode = .reserved6 := by decide
  have hvalue : r.value = ctlTable.opField ctl := by simpa using List.find?_some hr
  rw [hrow r (List.mem_of_find?_eq_some hr) (hvalue.trans hop)]
  rfl

namespace Machine

section
variable {s : State} {v : Fault}

/-- The reserved opcode stops with the word it has in the table of the configuration. -/
theorem exec_reserved_of_encode {cin : Bool} {ctl : Ctl} (h : encode s.cfg.ctl (.reserved cin) = some ctl) :
    exec (.reserved cin) s = s.violate (.vReserved ctl) := by
  change execReserved cin s = _
  rw [execReserved, h, Option.getD_some]

/-- A call that the decoder rejects, or reads as the reserved opcode, is `V_RESERVED` of its own control word. -/
theorem delegate_eq_violate {ctl : Ctl} (hcfg : s.cfg.ctl = ctlTable)
    (h : ∀ i, decode ctlTable ctl = .ok i → ∃ cin, i = .reserved cin) :
    delegate ctl s = s.violate (.vReserved ctl) := by
  rw [delegate, hcfg]
  cases hd : decode ctlTable ctl with
  | error _ => rfl
  | ok i =>
    obtain ⟨cin, rfl⟩ := h i hd
    exact exec_reserved_of_encode (hcfg ▸ encode_of_decode hd)

/-! ### The checks of a delegation call -/

theorem callViolation_of_misaligned (h : s.regA % 32 ≠ 0 ∨ s.regB % 32 ≠ 0) :
    callViolation s = some (.vAlign s.regA s.regB) := if_pos h

theorem callViolation_of_aliased (hA : s.regA % 32 = 0) (hB : s.regB % 32 = 0) (heq : s.regA = s.regB) :
    callViolation s = some (.vAlias s.regA) := by
  rw [callViolation, if_neg (by omega), if_pos heq]

theorem callViolation_of_inaccessible (hA : s.regA % 32 = 0) (hB : s.regB % 32 = 0) (hne : s.regA ≠ s.regB)
    (hacc : s.cfg.writableBlock s.regA 32 = false ∨ s.cfg.readableBlock s.regB 32 = false) :
    callViolation s = some (.vAccess s.regA s.regB) := by
  have hno : callAccessible s.cfg s.regA s.regB = false := Bool.and_eq_false_iff.2 hacc
  rw [callViolation, if_neg (by omega), if_neg hne, if_neg (by simp [hno])]

theorem delegationCall_stopsWith (prim : Word → Word → PrimResult) (h : callViolation s = some v) :
    StopsWith s (delegationCall prim s) v := by
  rw [delegationCall, h]
  exact stopsWith_violate s v

/-- A primitive is a delegation call: the seven differ only in what they compute of the two words. -/
theorem exec_primitive {i : Instr} (h : isPrimitive i = true) (s : State) :
    ∃ prim, exec i s = delegationCall prim s := by
  cases i with
  | waluAdd | waluSub | waluSubNeg | waluMulLo | waluMulHi | waluEq | waluMemCpy => exact ⟨_, rfl⟩
  | _ => cases h

theorem exec_primitive_stopsWith {i : Instr} (hi : isPrimitive i = true) (h : callViolation s = some v) :
    StopsWith s (exec i s) v := by
  obtain ⟨prim, hexec⟩ := exec_primitive hi s
  rw [hexec]
  exact delegationCall_stopsWith prim h

theorem exec_primitive_of_legal {i : Instr} (hi : isPrimitive i = true) (hl : CallLegal s) :
    ∃ t, exec i s = .next t ∧ CallFrame s t := by
  obtain ⟨prim, hexec⟩ := exec_primitive hi s
  exact ⟨_, hexec.trans (delegationCall_of_legal prim hl), callFrame_callResult prim s⟩

/-! ### The checks of the place of the operands -/

theorem binds_of_wfField {c : Config} {f : Nat} {w : Width} {k : Option RedKind} (h : c.wfField f w k = true) :
    ∃ d, Binds c f (some w) k d := by
  unfold Config.wfField at h
  split at h
  · cases h
  next d hd =>
  simp only [Bool.and_eq_true, Bool.or_eq_true, beq_iff_eq] at h
  obtain ⟨⟨hok, hw⟩, hk⟩ := h
  exact ⟨d, hd, hok, .inr (by rw [hw]), hk⟩

theorem binds_of_wfAnyField {c : Config} {f : Nat} (h : c.wfAnyField f = true) :
    ∃ d, Binds c f none none d ∧ c.widthOf f = d.width := by
  unfold Config.wfAnyField at h
  split at h
  · cases h
  next d hd => exact ⟨d, ⟨hd, h, .inl rfl, .inl rfl⟩, by rw [Config.widthOf, hd]⟩

section
variable {u : Bool} {ops : List Operand}

theorem opViolation_of_placeViolation (h : placeViolation s u ops = some v) : opViolation s u ops = some v := by
  rw [opViolation, h]

/-- Alignment is checked next after the scratch space (rule R249). -/
theorem placeViolation_of_misaligned (hbusy : u = true → s.scratchBusy = false) (h : ∃ o ∈ ops, o.addr % 32 ≠ 0) :
    placeViolation s u ops = some (.vAlign (firstAddr ops) (lastAddr ops)) := by
  have hfree : (u && s.scratchBusy) = false := by simpa using hbusy
  have hall : ops.all Operand.aligned = false := by simpa [Operand.aligned] using h
  simp [placeViolation, hfree, hall]

/-- Whatever else is wrong, an operation with a misaligned operand fails a check. -/
theorem exists_placeViolation_of_misaligned (s : State) (u : Bool) (h : ∃ o ∈ ops, o.addr % 32 ≠ 0) :
    ∃ v, placeViolation s u ops = some v := by
  obtain ⟨o, ho, hne⟩ := h
  exact Option.ne_none_iff_exists'.1 fun hnone => hne (((placeViolation_eq_none_iff ..).1 hnone).aligned o ho)

end

section
variable {f dst bytes src a b : Nat}

theorem moduleOp_stopsWith {w : Width} {k : Option RedKind} {ops : List Operand} {body : Descriptor → State → Out}
    (hf : s.cfg.wfField f w k = true) (h : placeViolation s true ops = some v) :
    StopsWith s (moduleOp w k f ops s body) v := by
  obtain ⟨d, hb⟩ := binds_of_wfField hf
  unfold moduleOp
  rw [(bindField_eq_ok_iff ..).2 hb]; dsimp only
  rw [opViolation_of_placeViolation h]
  exact stopsWith_violate s v

theorem modBinary_stopsWith {w : Width} {k : Option RedKind} {rng : Descriptor → Nat → Nat → Bool}
    {res : Descriptor → Nat → Nat → Nat} (hf : s.cfg.wfField f w k = true)
    (h : placeViolation s true [mutOperand w dst, readOperand w src] = some v) :
    StopsWith s (modBinary w k rng res f dst src s) v := moduleOp_stopsWith hf h

theorem modUnary_stopsWith {w : Width} {k : Option RedKind} {rng : Descriptor → Nat → Bool}
    {res : Descriptor → Nat → Nat} (hf : s.cfg.wfField f w k = true)
    (h : placeViolation s true [mutOperand w dst] = some v) :
    StopsWith s (modUnary w k rng res f dst s) v := moduleOp_stopsWith hf h

theorem modCompare_stopsWith {w : Width} {test : Nat → Nat → Bool} (hf : s.cfg.wfField f w none = true)
    (h : placeViolation s true [readOperand w a, readOperand w b] = some v) :
    StopsWith s (modCompare w test f a b s) v := moduleOp_stopsWith hf h

theorem modTest_stopsWith {w : Width} {test : Descriptor → Nat → Bool} (hf : s.cfg.wfField f w none = true)
    (h : placeViolation s true [readOperand w a] = some v) :
    StopsWith s (modTest w test f a s) v := moduleOp_stopsWith hf h

theorem execInvMod_stopsWith (hf : s.cfg.wfField f .w256 none = true)
    (h : placeViolation s true [mutOperand .w256 dst] = some v) :
    StopsWith s (execInvMod f dst s) v := moduleOp_stopsWith hf h

theorem modIdentity_stopsWith (hf : s.cfg.wfField f .w256 (some .barrett) = true)
    (h : placeViolation s true [mutOperand .w256 dst] = some v) : StopsWith s (modIdentity f dst s) v := by
  obtain ⟨d, hb⟩ := binds_of_wfField hf
  unfold modIdentity
  rw [(bindField_eq_ok_iff ..).2 hb]; dsimp only
  rw [h]
  exact stopsWith_violate s v

theorem limbOp_stopsWith {o : Operand} {bytesOk : Bool} {x : Nat} {body : State → Out}
    (h : placeViolation s false [o] = some v) : StopsWith s (limbOp o bytesOk x s body) v := by
  rw [limbOp, opViolation_of_placeViolation h]
  exact stopsWith_violate s v

theorem execFromBytes_stopsWith (hf : s.cfg.wfAnyField f = true)
    (h : placeViolation s true [mutOperand (s.cfg.widthOf f) dst] = some v) :
    StopsWith s (execFromBytes f dst bytes s) v := by
  obtain ⟨d, hb, hw⟩ := binds_of_wfAnyField hf
  rw [hw] at h
  unfold execFromBytes
  rw [(bindField_eq_ok_iff ..).2 hb]; dsimp only
  rw [opViolation_of_placeViolation h]
  exact stopsWith_violate s v

theorem execToBytes_stopsWith (hf : s.cfg.wfAnyField f = true)
    (h : placeViolation s false [readOperand (s.cfg.widthOf f) src] = some v) :
    StopsWith s (execToBytes f bytes src s) v := by
  obtain ⟨d, hb, hw⟩ := binds_of_wfAnyField hf
  rw [hw] at h
  unfold execToBytes
  rw [(bindField_eq_ok_iff ..).2 hb]
  exact limbOp_stopsWith h

end

/-- An operation that names no operand fails no check of their place. -/
theorem placeViolation_nil (s : State) : placeViolation s false [] = none := rfl

/-- Every operation makes the checks of rule R140 on the operands it names: bound to its field, it stops with the first
violation they find. -/
theorem exec_stopsWith_of_placeViolation {i : Instr} (hf : fieldBound s.cfg i = true)
    (h : placeViolation s (borrowsScratch i) (operandsOf s.cfg i) = some v) : StopsWith s (exec i s) v := by
  cases i with
  | waluAdd | waluSub | waluSubNeg | waluMulLo | waluMulHi | waluEq | waluMemCpy | reserved | parseDecimal =>
    exact absurd ((placeViolation_nil s).symm.trans h) nofun
  | parity | halve | beDecode | beEncode => apply limbOp_stopsWith h
  | fromBytes => exact execFromBytes_stopsWith hf h
  | toBytes => exact execToBytes_stopsWith hf h
  | toRepresentationBarrett | toIntegerBarrett => exact modIdentity_stopsWith hf h
  | invMod => exact execInvMod_stopsWith hf h
  | addMod | subMod | mulMont | mulBarret | addMod512 | subMod512 | mulMont512 => exact modBinary_stopsWith hf h
  | doubleMod | negateMod | squareMont | toRepresentation | toInteger | squareBarret | doubleMod512 | negateMod512
  | squareMont512 | toRepresentation512 | toInteger512 => exact modUnary_stopsWith hf h
  | lt | leq | eq | lt512 | leq512 | eq512 => exact modCompare_stopsWith hf h
  | isZero | isOne | isZeroMod | isZero512 | isOne512 | isZeroMod512 => exact modTest_stopsWith hf h

end

/-! ### The obligations -/

/-- Settles O4: a word with a reserved bit does not decode, and a word with `op = 6` decodes to the reserved opcode, whose word
it is. -/
theorem reservedWordsStop : Obligations.ReservedWordsStop := by
  unfold Obligations.ReservedWordsStop
  refine ⟨fun s ctl hcfg hreserved => ?call, fun s cin hcfg => ?opcode⟩
  case call =>
    rw [delegate_eq_violate hcfg fun i hd => ?_]
    · exact stopsWith_violate s _
    · rcases hreserved with hop | ⟨k, hk, hbit⟩
      · exact ⟨_, decode_eq_reserved hd hop⟩
      · have hclear := getLsbD_of_rsvField_eq_zero (decode_eq_ok_iff.1 hd).1 (k := k) (by omega) (by omega)
        exact absurd hbit (by simp [hclear])
  case opcode =>
    have hword : encode s.cfg.ctl (.reserved cin) = some (if cin then 0x46#32 else 0x06#32) := by
      rw [hcfg]
      exact ctlTable_word_eq_ite (o := .reserved6) rfl rfl cin
    rw [exec_reserved_of_encode hword]
    exact stopsWith_violate s _

/-- Settles O14: the seven primitives are delegation calls, and `callViolation` makes the checks in the order of rule R249. -/
theorem callChecksInOrder : Obligations.CallChecksInOrder := by
  unfold Obligations.CallChecksInOrder
  intro i s hi
  exact ⟨fun h => exec_primitive_stopsWith hi (callViolation_of_misaligned h),
    fun hA hB heq => exec_primitive_stopsWith hi (callViolation_of_aliased hA hB heq),
    fun hA hB hne hacc => exec_primitive_stopsWith hi (callViolation_of_inaccessible hA hB hne hacc),
    exec_primitive_of_legal hi⟩

/-- Settles O15: a misaligned operand fails the check of alignment, unless the scratch space is borrowed already, which is
checked before it. -/
theorem misalignedOperandsStop : Obligations.MisalignedOperandsStop := by
  unfold Obligations.MisalignedOperandsStop
  refine fun i s => ⟨fun hi h => exec_primitive_stopsWith hi (callViolation_of_misaligned h), ?align, ?any⟩
  case align =>
    exact fun hf h hbusy => ⟨_, _, exec_stopsWith_of_placeViolation hf (placeViolation_of_misaligned hbusy h)⟩
  case any =>
    intro hf h
    obtain ⟨v, hv⟩ := exists_placeViolation_of_misaligned s (borrowsScratch i) h
    exact ⟨v, exec_stopsWith_of_placeViolation hf hv⟩

end Machine
end Sys2Proof
end

section
/-! PROOFS. The decoder as the inverse of the encoder (spec/30_encoding.md rules R70 to R76), and one step of the engine
(spec/10_state.md rules R20, R39 and R40): which operation it runs, and the state it starts from after reset. -/

namespace Sys2Proof

/-! ### The encoder is the inverse of the decoder -/

/-- Only the operations of the opcode map have a control word (rule R81). -/
theorem exists_opcode_of_encode {t : CtlTable} {i : Instr} {ctl : Ctl} (h : encode t i = some ctl) :
    ∃ (o : Opcode) (cin : Bool), i = o.instr cin ∧ t.word o cin = some ctl := by
  cases i with
  | waluAdd cin => exact ⟨.add, cin, rfl, h⟩
  | waluSub cin => exact ⟨.sub, cin, rfl, h⟩
  | waluSubNeg cin => exact ⟨.subAndNegate, cin, rfl, h⟩
  | waluMulLo cin => exact ⟨.mulLow, cin, rfl, h⟩
  | waluMulHi cin => exact ⟨.mulHigh, cin, rfl, h⟩
  | waluEq cin => exact ⟨.eq, cin, rfl, h⟩
  | reserved cin => exact ⟨.reserved6, cin, rfl, h⟩
  | waluMemCpy cin => exact ⟨.memCpy, cin, rfl, h⟩
  | _ => cases h

theorem decode_of_encode {ctl : Ctl} {i : Instr} (h : encode ctlTable i = some ctl) : decode ctlTable ctl = .ok i := by
  obtain ⟨o, cin, rfl, hword⟩ := exists_opcode_of_encode h
  exact decode_of_word o cin hword

/-! ### The words that decode to a primitive -/

/-- A word whose reserved bits are all clear, as rule R70 lists them. -/
theorem rsvField_eq_zero_iff (ctl : Ctl) : ctlTable.rsvField ctl = 0 ↔
    ∀ k, (3 ≤ k ∧ k ≤ 5) ∨ (7 ≤ k ∧ k ≤ 31) → ctl.getLsbD k = false := by
  constructor
  · exact fun h k hk => getLsbD_of_rsvField_eq_zero h (by omega) (by omega)
  · intro h
    refine BitVec.eq_of_getLsbD_eq fun k hk => ?_
    rw [getLsbD_rsvField_ctlTable ctl hk]
    by_cases hr : 3 ≤ k ∧ k ≠ 6
    · simp [h k (by omega)]
    · simp [decide_eq_false hr]

/-- Every value of the `op` field has a row in the map, and all but 6 select a primitive. -/
theorem ctlTable_row_of_op : ∀ op < 8, ∃ r, ctlTable.rows.find? (fun r => r.value == op) = some r ∧
    ∀ cin, Machine.isPrimitive (r.opcode.instr cin) = true ↔ op ≠ 6 := by decide

theorem opField_ctlTable_lt (ctl : Ctl) : ctlTable.opField ctl < 8 := Nat.mod_lt _ (by decide)

namespace Machine

/-! ### The obligations on the control word -/

/-- Settles O2: a decoded word is the word of what was read (`encode_of_decode`), and the word of an operation reads as it. -/
theorem decodeEncodeAgree : Obligations.DecodeEncodeAgree := by
  unfold Obligations.DecodeEncodeAgree
  exact fun ctl i => ⟨encode_of_decode, decode_of_encode⟩

/-- Settles O3: with its reserved bits clear a word decodes to the row of its `op` field, which is a primitive but for 6. -/
theorem decodeAcceptsExactly : Obligations.DecodeAcceptsExactly := by
  unfold Obligations.DecodeAcceptsExactly
  intro ctl
  obtain ⟨r, hr, hprim⟩ := ctlTable_row_of_op _ (opField_ctlTable_lt ctl)
  rw [← rsvField_eq_zero_iff]
  constructor
  · rintro ⟨i, hi, hp⟩
    obtain ⟨hrsv, r', hr', rfl⟩ := decode_eq_ok_iff.1 hi
    obtain rfl : r = r' := Option.some.inj (hr.symm.trans hr')
    exact ⟨hrsv, (hprim _).1 hp⟩
  · rintro ⟨hrsv, hop⟩
    exact ⟨_, decode_eq_ok_iff.2 ⟨hrsv, r, hr, rfl⟩, (hprim _).2 hop⟩

/-! ### One step -/

section
variable {s : State} {i : Instr} {rest : List Request}

/-- A control word selects a primitive or the reserved opcode, which are well formed in every configuration. -/
theorem wf_of_decode {t : CtlTable} {ctl : Ctl} (c : Config) (h : decode t ctl = .ok i) : i.wf c = true := by
  obtain ⟨-, r, -, rfl⟩ := decode_eq_ok_iff.1 h
  cases r.opcode with
  | add | sub | subAndNegate | mulLow | mulHigh | eq | reserved6 | memCpy => rfl

theorem step_of_call {a b : Nat} {ctl : Ctl} (hr : s.requests = .call a b ctl :: rest) (hc : s.cfg.ok = true)
    (hd : decode s.cfg.ctl ctl = .ok i) : step s = exec i (s.popRequest.setRegs a b ctl) := by
  have hd' : decode (s.popRequest.setRegs a b ctl).cfg.ctl ctl = .ok i := hd
  rw [step, hr]
  simp only [hc, if_true]
  rw [delegate, hd']

theorem step_of_op (hr : s.requests = .op i :: rest) (hc : s.cfg.ok = true) : step s = exec i s.popRequest := by
  rw [step, hr]
  simp only [hc, if_true]

theorem step_of_nil (hr : s.requests = []) : step s = .next s := by rw [step, hr]

theorem popRequest_of_cons {r : Request} (hr : s.requests = r :: rest) : s.popRequest = { s with requests := rest } := by
  rw [State.popRequest, hr, List.tail_cons]

/-- A word of the opcode table read back is a decoded word. -/
theorem decode_of_decodeTableWord {nbits w : Nat} (h : decodeTableWord nbits w = some i) :
    decode ctlTable (BitVec.ofNat 32 (w % 2 ^ nbits)) = .ok i := by
  unfold decodeTableWord at h
  split at h
  next j hj => rw [hj, Option.some.inj h]
  next => cases h

end

/-! ### The configuration at reset -/

theorem reset_cfg_ok : State.reset.cfg.ok = true := by decide +kernel

/-! ### The obligations on a step -/

/-- Settles O5: the oldest request is taken and its registers written before the decoded operation runs; the request that
`withFetchWord` put in front is the one taken. -/
theorem stepRunsDecodedCall : Obligations.StepRunsDecodedCall := by
  unfold Obligations.StepRunsDecodedCall
  refine ⟨fun s a b ctl rest i hr hc hd => ⟨wf_of_decode _ hd, ?_⟩, fun s nbits w i hc hctl hd => ?_⟩
  · rw [step_of_call hr hc hd, popRequest_of_cons hr]
    rfl
  · have hword : decode (s.withFetchWord nbits w).cfg.ctl (BitVec.ofNat 32 (w % 2 ^ nbits)) = .ok i :=
      hctl ▸ decode_of_decodeTableWord hd
    exact step_of_call (s := s.withFetchWord nbits w) rfl hc hword

/-- Settles O6: the three cases of `step` on its requests. -/
theorem stepRunsRequestedOperation : Obligations.StepRunsRequestedOperation := by
  unfold Obligations.StepRunsRequestedOperation
  refine ⟨fun s i rest hr hc => ?_, fun s hr => step_of_nil hr, fun s hr hc => step_of_not_ok hr hc⟩
  rw [step_of_op hr hc, popRequest_of_cons hr]

/-- Settles O49: the configuration at reset is accepted, so its constants blocks read as their descriptors say. -/
theorem resetState : Obligations.ResetState := by
  unfold Obligations.ResetState
  exact ⟨rfl, rfl, fun d hd k hk => State.readWord_constBlock reset_cfg_ok hd hk⟩

/-- Settles O50: memory is empty, and the registers and `pc` of the reset state are below `2^32`. -/
theorem resetMeetsInvariant : Obligations.ResetMeetsInvariant := by
  unfold Obligations.ResetMeetsInvariant
  have haddr : State.reset.cfg.addrLimit = 4294967296 := by decide +kernel
  refine ⟨⟨rfl, nofun, ?_, ?_, ?_, rfl⟩, reset_cfg_ok⟩
  all_goals rw [haddr]; simp [State.reset]

end Machine
end Sys2Proof
end

section
/-! PROOFS. What a completed operation does, said once for all operations (`Effect`), and what follows for every state: the
invariant (spec/10_state.md), the frame in memory and registers, and that only well-formed operations complete. -/

namespace Sys2Proof.Machine

/-! ### The effects of the operations -/

/-- What the operation `i` can do to `s` when it completes: the seven kinds of effect, each with the checks that came before it. -/
inductive Effect (s : State) (i : Instr) : State → Prop where
  /-- a delegation call -/
  | call (prim : Word → Word → PrimResult) (hi : isPrimitive i = true) (hl : CallLegal s)
      (hw : writesRegA s.cfg i = false → ∀ A B, (prim A B).result = none) : Effect s i (callResult prim s)
  /-- a macro-operation that only reads -/
  | opRead (r : Ret) (hb : borrowsScratch i = true) (hk : keepsScratch i = false) : Effect s i (s.beginOp.completeOp r)
  /-- a macro-operation that stores a value at one of its operands -/
  | opWrite (r : Ret) (w : Width) (dst v : Nat) (hb : borrowsScratch i = true) (hk : keepsScratch i = false)
      (hl : OpLegal s true (operandsOf s.cfg i)) (hmem : mutOperand w dst ∈ operandsOf s.cfg i) :
      Effect s i ((s.beginOp.writeWide w dst v).completeOp r)
  /-- a value operation that stores a value at its operand -/
  | limbWrite (w : Width) (dst v : Nat) (hk : keepsScratch i = false) (hl : OpLegal s false (operandsOf s.cfg i))
      (hmem : mutOperand w dst ∈ operandsOf s.cfg i) : Effect s i ((s.writeWide w dst v).completeLimbOp .none)
  /-- a value operation that writes a byte string -/
  | limbString (bytes : Nat) (bs : List Byte) (hk : keepsScratch i = false)
      (hacc : s.cfg.writableBlock bytes bs.length = true) (hmem : (bytes, bs.length) ∈ writtenString s.cfg i) :
      Effect s i ((s.writeBytes bytes bs).completeLimbOp .none)
  /-- an operation that writes no memory -/
  | readOnly (r : Ret) : Effect s i (s.completeReadOnly r)
  /-- the evaluation of a literal -/
  | value (v : Nat) : Effect s i (s.returnValue v)

section
variable {s t : State} {i : Instr}

theorem effect_of_delegationCall {prim : Word → Word → PrimResult} (h : delegationCall prim s = .next t)
    (hi : isPrimitive i = true) (hw : writesRegA s.cfg i = false → ∀ A B, (prim A B).result = none) : Effect s i t := by
  obtain ⟨hl, rfl⟩ := delegationCall_next h
  exact .call prim hi hl hw

section
variable {w : Width} {k : Option RedKind} {f dst src a b : Nat}

theorem effect_of_modBinary {rng : Descriptor → Nat → Nat → Bool} {res : Descriptor → Nat → Nat → Nat}
    (h : modBinary w k rng res f dst src s = .next t) (hb : borrowsScratch i = true) (hk : keepsScratch i = false)
    (hops : operandsOf s.cfg i = [mutOperand w dst, readOperand w src]) : Effect s i t := by
  obtain ⟨d, -, hl, -, rfl⟩ := modBinary_next h
  exact .opWrite _ w dst _ hb hk (hops ▸ hl) (by simp [hops])

theorem effect_of_modUnary {rng : Descriptor → Nat → Bool} {res : Descriptor → Nat → Nat}
    (h : modUnary w k rng res f dst s = .next t) (hb : borrowsScratch i = true) (hk : keepsScratch i = false)
    (hops : operandsOf s.cfg i = [mutOperand w dst]) : Effect s i t := by
  obtain ⟨d, -, hl, -, rfl⟩ := modUnary_next h
  exact .opWrite _ w dst _ hb hk (hops ▸ hl) (by simp [hops])

theorem effect_of_modCompare {test : Nat → Nat → Bool} (h : modCompare w test f a b s = .next t)
    (hb : borrowsScratch i = true) (hk : keepsScratch i = false) : Effect s i t := by
  obtain ⟨d, -, -, rfl⟩ := modCompare_next h
  exact .opRead _ hb hk

theorem effect_of_modTest {test : Descriptor → Nat → Bool} (h : modTest w test f a s = .next t)
    (hb : borrowsScratch i = true) (hk : keepsScratch i = false) : Effect s i t := by
  obtain ⟨d, -, -, rfl⟩ := modTest_next h
  exact .opRead _ hb hk

theorem effect_of_modIdentity (h : modIdentity f dst s = .next t) : Effect s i t := by
  obtain ⟨d, -, -, -, rfl⟩ := modIdentity_next h
  exact .readOnly _

theorem effect_of_execInvMod (h : execInvMod f dst s = .next t) : Effect s (.invMod f dst) t := by
  obtain ⟨d, -, hl, -, ⟨-, rfl⟩ | ⟨-, rfl⟩⟩ := execInvMod_next h
  · exact .opRead _ rfl rfl
  · exact .opWrite _ .w256 dst _ rfl rfl hl List.mem_cons_self

/-- The width of a bound field. -/
theorem Binds.widthOf_eq {c : Config} {d : Descriptor} {n : Option Width} (hb : Binds c f n k d) : c.widthOf f = d.width := by
  rw [Config.widthOf, hb.found]

theorem effect_of_execFromBytes {bytes : Nat} (h : execFromBytes f dst bytes s = .next t) :
    Effect s (.fromBytes f dst bytes) t := by
  obtain ⟨d, hb, hl, -, ⟨-, rfl⟩ | ⟨-, rfl⟩⟩ := execFromBytes_next h
  · exact .opRead _ rfl rfl
  · have hops : operandsOf s.cfg (.fromBytes f dst bytes) = [mutOperand d.width dst] := by
      rw [operandsOf, hb.widthOf_eq]
    exact .opWrite _ d.width dst _ rfl rfl (hops ▸ hl) (by simp [hops])

theorem effect_of_execBeEncode {n : Width} {bytes : Nat} (h : execBeEncode n bytes src s = .next t)
    (hk : keepsScratch i = false) (hmem : (bytes, n.bytes) ∈ writtenString s.cfg i) : Effect s i t := by
  obtain ⟨-, hacc, rfl⟩ := execBeEncode_next h
  exact .limbString bytes _ hk (by rwa [length_beBytes]) (by rwa [length_beBytes])

end

/-- Every operation that completes has one of the effects. -/
theorem exec_effect (h : exec i s = .next t) : Effect s i t := by
  cases i with
  | waluAdd | waluSub | waluSubNeg | waluMulLo | waluMulHi | waluMemCpy => exact effect_of_delegationCall h rfl nofun
  | waluEq cin =>
    refine effect_of_delegationCall h rfl fun hw A B => ?_
    have hp : s.cfg.eqPreservesA = true := by simpa [writesRegA] using hw
    rw [primEq, if_pos hp]
  | reserved => exact absurd h (State.violate_ne_next _ _ _)
  | parity =>
    obtain ⟨-, rfl⟩ := execParity_next h
    exact .readOnly _
  | halve n a =>
    obtain ⟨hl, rfl⟩ := execHalve_next h
    exact .limbWrite n a _ rfl hl List.mem_cons_self
  | beDecode n dst =>
    obtain ⟨hl, -, rfl⟩ := execBeDecode_next h
    exact .limbWrite n dst _ rfl hl List.mem_cons_self
  | beEncode => exact effect_of_execBeEncode h rfl List.mem_cons_self
  | fromBytes => exact effect_of_execFromBytes h
  | toBytes f bytes src =>
    obtain ⟨d, hb, h⟩ := execToBytes_next h
    exact effect_of_execBeEncode h rfl (by simp [writtenString, hb.widthOf_eq])
  | parseDecimal =>
    obtain ⟨v, -, rfl⟩ := execParseDecimal_next h
    exact .value v
  | toRepresentationBarrett | toIntegerBarrett => exact effect_of_modIdentity h
  | invMod => exact effect_of_execInvMod h
  | addMod | subMod | mulMont | mulBarret | addMod512 | subMod512 | mulMont512 => exact effect_of_modBinary h rfl rfl rfl
  | doubleMod | negateMod | squareMont | toRepresentation | toInteger | squareBarret | doubleMod512 | negateMod512
  | squareMont512 | toRepresentation512 | toInteger512 => exact effect_of_modUnary h rfl rfl rfl
  | lt | leq | eq | lt512 | leq512 | eq512 => exact effect_of_modCompare h rfl rfl
  | isZero | isOne | isZeroMod | isZero512 | isOne512 | isZeroMod512 => exact effect_of_modTest h rfl rfl

/-! ### The form of operand memory -/

/-- The part of the invariant that speaks of operand memory. -/
structure MemInv (s : State) : Prop where
  canonical : Memory.wf s.mem = true
  placed : ∀ c ∈ s.mem, c.1 < s.cfg.addrLimit ∧ s.cfg.constByte? c.1 = none ∧ s.cfg.inScratch c.1 = false

theorem MemInv.of_eq (h : MemInv s) (hm : t.mem = s.mem) (hc : t.cfg = s.cfg) : MemInv t where
  canonical := hm ▸ h.canonical
  placed := by rw [hm, hc]; exact h.placed

/-- A write to writable memory lists no address but one of operand memory. -/
theorem MemInv.writeByte (h : MemInv s) {x : Nat} (b : Byte) (hx : s.cfg.writable x = true) : MemInv (s.writeByte x b) := by
  unfold State.writeByte
  split
  next => exact h.of_eq rfl rfl
  next hs =>
    refine ⟨Memory.wf_set _ _ _ h.canonical, fun c hc => ?_⟩
    rcases Memory.mem_set _ _ _ c hc with hc | rfl
    · exact h.placed c hc
    · exact ⟨Config.lt_of_writable hx, Config.free_of_writable hx, by simpa using hs⟩

theorem MemInv.writeBytes (h : MemInv s) {a : Nat} (bs : List Byte) (ha : s.cfg.writableBlock a bs.length = true) :
    MemInv (s.writeBytes a bs) := by
  induction bs generalizing s a with
  | nil => exact h
  | cons b bs ih =>
    rw [List.length_cons, Config.writableBlock, Bool.and_eq_true] at ha
    obtain ⟨hfst, hrest⟩ := ha
    exact ih (h.writeByte b hfst) (by rwa [State.writeByte_cfg])

theorem MemInv.writeWord (h : MemInv s) {a : Nat} (w : Word) (ha : s.cfg.writableBlock a 32 = true) :
    MemInv (s.writeWord a w) := h.writeBytes _ (by rwa [length_leBytes])

theorem MemInv.writeWide (h : MemInv s) {n : Width} {a : Nat} (v : Nat) (ha : s.cfg.writableBlock a n.bytes = true) :
    MemInv (s.writeWide n a v) := by
  cases n with
  | w256 => exact h.writeWord _ ha
  | w512 =>
    have hbytes := (Config.writableBlock_iff ..).1 ha
    refine MemInv.writeWord (h.writeWord _ ?_) _ ?_ <;> rw [Config.writableBlock_iff]
    · exact fun j hj => hbytes j (by simp only [Width.bytes]; omega)
    · intro j hj
      rw [State.writeWord_cfg, Nat.add_assoc]
      exact hbytes (32 + j) (by simp only [Width.bytes]; omega)

theorem MemInv.callResult (h : MemInv s) (prim : Word → Word → PrimResult) (hl : CallLegal s) :
    MemInv (callResult prim s) := by
  refine MemInv.of_eq (s := s.writeResult _) ?_ rfl rfl
  unfold State.writeResult
  split
  · exact h.writeWord _ hl.writableA
  · exact h

/-- An operand that passed the checks and is written lies in writable memory. -/
theorem OpLegal.writableBlock {u : Bool} {ops : List Operand} {w : Width} {dst : Nat} (hl : OpLegal s u ops)
    (hmem : mutOperand w dst ∈ ops) : s.cfg.writableBlock dst w.bytes = true := hl.accessible _ hmem

/-! ### The invariant -/

theorem MachineInv.memInv (h : MachineInv s) : MemInv s := ⟨h.memCanonical, h.memPlaced⟩

/-- An update that leaves the registers, `pc` and `scratch_busy` keeps the invariant where it keeps that of memory. -/
theorem MachineInv.of_memInv (h : MachineInv s) (hm : MemInv t) (hcfg : t.cfg = s.cfg) (hA : t.regA = s.regA)
    (hB : t.regB = s.regB) (hpc : t.pc = s.pc) (hbusy : t.scratchBusy = s.scratchBusy) : MachineInv t where
  memCanonical := hm.canonical
  memPlaced := hm.placed
  regAWidth := by rw [hA, hcfg]; exact h.regAWidth
  regBWidth := by rw [hB, hcfg]; exact h.regBWidth
  pcWidth := by rw [hpc, hcfg]; exact h.pcWidth
  idle := hbusy.trans h.idle

/-- A completed macro-operation leaves addresses in the registers and in `pc`, whatever they are. -/
theorem machineInv_completeOp (r : Ret) (hm : MemInv s) : MachineInv (s.completeOp r) where
  memCanonical := hm.canonical
  memPlaced := hm.placed
  regAWidth := Config.truncAddr_lt _ _
  regBWidth := Config.truncAddr_lt _ _
  pcWidth := Config.truncAddr_lt _ _
  idle := rfl

theorem MachineInv.completeLimbOp (h : MachineInv s) (r : Ret) (hm : MemInv t) (hcfg : t.cfg = s.cfg)
    (hA : t.regA = s.regA) (hB : t.regB = s.regB) (hpc : t.pc = s.pc) (hbusy : t.scratchBusy = s.scratchBusy) :
    MachineInv (t.completeLimbOp r) :=
  h.of_memInv (hm.of_eq rfl rfl) hcfg hA hB hpc hbusy

theorem MachineInv.callResult (h : MachineInv s) (prim : Word → Word → PrimResult) (hl : CallLegal s) :
    MachineInv (callResult prim s) where
  memCanonical := (h.memInv.callResult prim hl).canonical
  memPlaced := (h.memInv.callResult prim hl).placed
  regAWidth := by simpa [Machine.callResult] using h.regAWidth
  regBWidth := by simpa [Machine.callResult] using h.regBWidth
  pcWidth := State.nextPc_lt _
  idle := by simpa [Machine.callResult] using h.idle

theorem Effect.keeps_inv (he : Effect s i t) (h : MachineInv s) : MachineInv t := by
  cases he with
  | call prim _ hl => exact h.callResult prim hl
  | opRead r => exact machineInv_completeOp r (h.memInv.of_eq rfl rfl)
  | opWrite r w dst v _ _ hl hmem =>
    have hm : MemInv s.beginOp := h.memInv.of_eq rfl rfl
    exact machineInv_completeOp r (hm.writeWide v (hl.writableBlock hmem))
  | limbWrite w dst v _ hl hmem =>
    exact h.completeLimbOp _ (h.memInv.writeWide v (hl.writableBlock hmem)) (by simp) (by simp) (by simp) (by simp) (by simp)
  | limbString bytes bs _ hacc =>
    exact h.completeLimbOp _ (h.memInv.writeBytes bs hacc) (by simp) (by simp) (by simp) (by simp) (by simp)
  | readOnly r => exact h.of_memInv (h.memInv.of_eq rfl rfl) rfl rfl rfl rfl rfl
  | value v => exact h.of_memInv (h.memInv.of_eq rfl rfl) rfl rfl rfl rfl rfl

theorem exec_keeps_inv (h : MachineInv s) (hexec : exec i s = .next t) : MachineInv t ∧ t.cfg = s.cfg :=
  ⟨(exec_effect hexec).keeps_inv h, exec_cfg hexec⟩

theorem MachineInv.popRequest (h : MachineInv s) : MachineInv s.popRequest :=
  h.of_memInv (h.memInv.of_eq rfl rfl) rfl rfl rfl rfl rfl

/-- The registers a call carries are cut to addresses. -/
theorem MachineInv.setRegs (h : MachineInv s) (a b : Nat) (ctl : Ctl) : MachineInv (s.setRegs a b ctl) where
  memCanonical := h.memCanonical
  memPlaced := h.memPlaced
  regAWidth := Config.truncAddr_lt _ _
  regBWidth := Config.truncAddr_lt _ _
  pcWidth := h.pcWidth
  idle := h.idle

/-! ### What an operation leaves as it was -/

theorem outside_of_inBlock_eq_false {base n x : Nat} (h : inBlock base n x = false) : x < base ∨ base + n ≤ x := by
  rw [← Bool.not_eq_true, inBlock_iff] at h
  omega

section
variable {x : Nat}

theorem inBlock_of_regA (hx : ∀ b ∈ writtenBlocks s i, inBlock b.1 b.2 x = false) (h : writesRegA s.cfg i = true) :
    x < s.regA ∨ s.regA + 32 ≤ x :=
  outside_of_inBlock_eq_false (hx (s.regA, 32) (by simp [writtenBlocks, h]))

theorem inBlock_of_operand (hx : ∀ b ∈ writtenBlocks s i, inBlock b.1 b.2 x = false) {w : Width} {dst : Nat}
    (h : mutOperand w dst ∈ operandsOf s.cfg i) : x < dst ∨ dst + w.bytes ≤ x := by
  refine outside_of_inBlock_eq_false (hx (dst, w.bytes) ?_)
  simp only [writtenBlocks, List.mem_append, List.mem_map, List.mem_filter]
  exact .inl (.inl (.inr ⟨_, ⟨h, rfl⟩, rfl⟩))

theorem inBlock_of_string (hx : ∀ b ∈ writtenBlocks s i, inBlock b.1 b.2 x = false) {bytes n : Nat}
    (h : (bytes, n) ∈ writtenString s.cfg i) : x < bytes ∨ bytes + n ≤ x :=
  outside_of_inBlock_eq_false (hx (bytes, n) (by simp [writtenBlocks, h]))

theorem not_inScratch (hx : ∀ b ∈ writtenBlocks s i, inBlock b.1 b.2 x = false) (h : keepsScratch i = false) :
    s.cfg.inScratch x = false := hx (s.cfg.scratchBase, scratchBytes) (by simp [writtenBlocks, h])

theorem Effect.readByte_eq (he : Effect s i t) (hx : ∀ b ∈ writtenBlocks s i, inBlock b.1 b.2 x = false) :
    t.readByte x = s.readByte x := by
  cases he with
  | call prim _ _ hw =>
    cases hr : writesRegA s.cfg i with
    | true => exact readByte_callResult_outside prim s x (inBlock_of_regA hx hr)
    | false => exact sameBytes_callResult_of_result_eq_none (hw hr _ _) x
  | opRead r _ hk => exact State.readByte_completeOp s.beginOp r (not_inScratch hx hk)
  | opWrite r w dst v _ hk _ hmem =>
    rw [State.readByte_completeOp _ r (by rw [State.writeWide_cfg]; exact not_inScratch hx hk),
      State.readByte_writeWide_outside _ _ _ _ _ (inBlock_of_operand hx hmem), State.readByte_beginOp]
  | limbWrite w dst v hk _ hmem =>
    rw [State.readByte_completeLimbOp _ _ (by rw [State.writeWide_cfg]; exact not_inScratch hx hk),
      State.readByte_writeWide_outside _ _ _ _ _ (inBlock_of_operand hx hmem)]
  | limbString bytes bs hk _ hmem =>
    rw [State.readByte_completeLimbOp _ _ (by rw [State.writeBytes_cfg]; exact not_inScratch hx hk),
      State.readByte_writeBytes_outside _ _ _ _ (inBlock_of_string hx hmem)]
  | readOnly r => exact State.readByte_completeReadOnly s r x
  | value v => exact State.readByte_returnValue s v x

end

theorem Effect.requests_eq (he : Effect s i t) : t.requests = s.requests := by
  cases he with
  | call prim => exact (callFrame_callResult prim s).requests
  | opRead | readOnly | value => rfl
  | opWrite | limbWrite | limbString => simp

/-! ### Well-formed operations -/

section
variable {u : Bool} {ops : List Operand} {n w : Width} {k : Option RedKind} {f a b dst src : Nat} {d : Descriptor}

theorem Binds.wfAnyField {o : Option Width} (hb : Binds s.cfg f o k d) : s.cfg.wfAnyField f = true := by
  rw [Config.wfAnyField, hb.found]
  exact hb.ok

theorem Binds.wfField (hb : Binds s.cfg f (some w) k d) : s.cfg.wfField f w k = true := by
  rw [Config.wfField, hb.found]
  simp [hb.ok, hb.width_eq, hb.kind]

theorem Operand.accessible_lt {c : Config} {o : Operand} (h : o.accessible c = true) {j : Nat} (hj : j < o.bytes) :
    o.addr + j < c.addrLimit := by
  unfold Operand.accessible at h
  split at h
  · exact Config.lt_of_writable ((Config.writableBlock_iff ..).1 h j hj)
  · exact Config.lt_of_readable ((Config.readableBlock_iff ..).1 h j hj)

/-- An operand that passed the checks is aligned and its last word is in the address space. -/
theorem OpLegal.wfAddr (hl : OpLegal s u ops) {wr : Bool} (ho : (⟨a, n.bytes, wr⟩ : Operand) ∈ ops) :
    s.cfg.wfAddr n a = true := by
  have hpos : 0 < n.bytes := by cases n <;> decide
  have hlt := Operand.accessible_lt (hl.accessible _ ho) (j := n.bytes - 32) (Nat.sub_lt hpos (by decide))
  exact Bool.and_eq_true_iff.2 ⟨decide_eq_true hlt, decide_eq_true (hl.aligned _ ho)⟩

theorem OpLegal.wfPair (hl : OpLegal s true [mutOperand w dst, readOperand w src]) : Sys2Proof.wfPair w dst src = true :=
  (disjointBlocks_iff ..).2 hl.disjoint_pair

theorem OpLegal.wfPair_reads (hl : OpLegal s true [readOperand w a, readOperand w b]) : Sys2Proof.wfPair w a b = true := by
  have hdisj := (pairwiseDisjoint_iff _).1 hl.disjoint
  simp only [List.map_cons, List.map_nil, List.pairwise_pair] at hdisj
  exact hdisj

theorem wfByteAddr_of_accessible {bytes : Nat} {c : Config} (h : bytesAccessible c u bytes n.bytes = true) :
    c.wfByteAddr bytes = true := by
  have hpos : 0 < n.bytes := by cases n <;> decide
  exact decide_eq_true (Operand.accessible_lt (o := ⟨bytes, n.bytes, u⟩) h hpos)

/-- The checks of `Instr.wf` on a macro-operation with a written and a read operand. -/
theorem modBinary_wf {rng : Descriptor → Nat → Nat → Bool} {res : Descriptor → Nat → Nat → Nat}
    (h : modBinary w k rng res f dst src s = .next t) :
    (s.cfg.wfField f w k && s.cfg.wfAddr w dst && s.cfg.wfAddr w src && wfPair w dst src) = true := by
  obtain ⟨d, hb, hl, -, -⟩ := modBinary_next h
  have hdst := hl.wfAddr (n := w) (a := dst) (wr := true) List.mem_cons_self
  have hsrc := hl.wfAddr (n := w) (a := src) (wr := false) (List.mem_cons_of_mem _ List.mem_cons_self)
  rw [hb.wfField, hdst, hsrc, hl.wfPair]; rfl

theorem modUnary_wf {rng : Descriptor → Nat → Bool} {res : Descriptor → Nat → Nat}
    (h : modUnary w k rng res f dst s = .next t) : (s.cfg.wfField f w k && s.cfg.wfAddr w dst) = true := by
  obtain ⟨d, hb, hl, -, -⟩ := modUnary_next h
  rw [hb.wfField, hl.wfAddr List.mem_cons_self]; rfl

theorem modCompare_wf {test : Nat → Nat → Bool} (h : modCompare w test f a b s = .next t) :
    (s.cfg.wfField f w none && s.cfg.wfAddr w a && s.cfg.wfAddr w b && wfPair w a b) = true := by
  obtain ⟨d, hb, hl, -⟩ := modCompare_next h
  have ha := hl.wfAddr (n := w) (a := a) (wr := false) List.mem_cons_self
  have hb' := hl.wfAddr (n := w) (a := b) (wr := false) (List.mem_cons_of_mem _ List.mem_cons_self)
  rw [hb.wfField, ha, hb', hl.wfPair_reads]; rfl

theorem modTest_wf {test : Descriptor → Nat → Bool} (h : modTest w test f a s = .next t) :
    (s.cfg.wfField f w none && s.cfg.wfAddr w a) = true := by
  obtain ⟨d, hb, hl, -⟩ := modTest_next h
  rw [hb.wfField, hl.wfAddr List.mem_cons_self]; rfl

theorem modIdentity_wf (h : modIdentity f dst s = .next t) :
    (s.cfg.wfField f .w256 (some .barrett) && s.cfg.wfAddr .w256 dst) = true := by
  obtain ⟨d, hb, hp, ha, -⟩ := modIdentity_next h
  have halign : dst % 32 = 0 := hp.aligned (mutOperand .w256 dst) List.mem_cons_self
  simp [hb.wfField, Config.wfAddr, Width.bytes, ha, halign]

theorem execInvMod_wf (h : execInvMod f dst s = .next t) :
    (s.cfg.wfField f .w256 none && s.cfg.wfAddr .w256 dst) = true := by
  obtain ⟨d, hb, hl, -, -⟩ := execInvMod_next h
  rw [hb.wfField, hl.wfAddr List.mem_cons_self]; rfl

theorem execBeEncode_wf {bytes : Nat} (h : execBeEncode n bytes src s = .next t) :
    (s.cfg.wfByteAddr bytes && s.cfg.wfAddr n src) = true := by
  obtain ⟨hl, hacc, -⟩ := execBeEncode_next h
  rw [wfByteAddr_of_accessible hacc, hl.wfAddr List.mem_cons_self]; rfl

theorem execFromBytes_wf {bytes : Nat} (h : execFromBytes f dst bytes s = .next t) :
    (s.cfg.wfAnyField f && s.cfg.wfAddr (s.cfg.widthOf f) dst && s.cfg.wfByteAddr bytes) = true := by
  obtain ⟨d, hb, hl, hacc, -⟩ := execFromBytes_next h
  rw [hb.wfAnyField, hb.widthOf_eq, hl.wfAddr List.mem_cons_self, wfByteAddr_of_accessible hacc]; rfl

theorem execToBytes_wf {bytes : Nat} (h : execToBytes f bytes src s = .next t) :
    (s.cfg.wfAnyField f && s.cfg.wfByteAddr bytes && s.cfg.wfAddr (s.cfg.widthOf f) src) = true := by
  obtain ⟨d, hb, h⟩ := execToBytes_next h
  rw [hb.wfAnyField, hb.widthOf_eq, Bool.true_and]
  exact execBeEncode_wf h

end

end

/-! ### The obligations -/

/-- Settles O51: a step runs one operation, and each of its effects keeps the invariant. -/
theorem stepKeepsInvariant : Obligations.StepKeepsInvariant := by
  unfold Obligations.StepKeepsInvariant
  intro s t h hstep
  rcases step_next hstep with ⟨-, rfl⟩ | ⟨a, b, ctl, rest, i, -, -, -, hexec⟩ | ⟨i, rest, -, -, hexec⟩
  case inl => exact ⟨h, rfl⟩
  case inr.inl =>
    obtain ⟨hinv, hcfg⟩ := exec_keeps_inv (h.popRequest.setRegs a b ctl) hexec
    exact ⟨hinv, hcfg⟩
  case inr.inr =>
    obtain ⟨hinv, hcfg⟩ := exec_keeps_inv h.popRequest hexec
    exact ⟨hinv, hcfg⟩

/-- Settles O52: each effect writes one of the blocks of `writtenBlocks` at most. -/
theorem writesStayInWrittenBlocks : Obligations.WritesStayInWrittenBlocks := by
  unfold Obligations.WritesStayInWrittenBlocks
  intro i s t x h hx
  have he := exec_effect h
  exact ⟨he.readByte_eq hx, exec_cfg h, he.requests_eq⟩

/-- Settles O53: what `Instr.wf` asks of an operation is among the checks it passed. -/
theorem onlyWellFormedComplete : Obligations.OnlyWellFormedComplete := by
  unfold Obligations.OnlyWellFormedComplete
  intro i s t h
  cases i with
  | waluAdd | waluSub | waluSubNeg | waluMulLo | waluMulHi | waluEq | waluMemCpy | reserved => rfl
  | parity =>
    obtain ⟨hl, -⟩ := execParity_next h
    exact hl.wfAddr List.mem_cons_self
  | halve =>
    obtain ⟨hl, -⟩ := execHalve_next h
    exact hl.wfAddr List.mem_cons_self
  | beDecode =>
    obtain ⟨hl, hacc, -⟩ := execBeDecode_next h
    exact Bool.and_eq_true_iff.2 ⟨hl.wfAddr List.mem_cons_self, wfByteAddr_of_accessible hacc⟩
  | beEncode => exact execBeEncode_wf h
  | fromBytes => exact execFromBytes_wf h
  | toBytes => exact execToBytes_wf h
  | parseDecimal =>
    obtain ⟨v, hv, -⟩ := execParseDecimal_next h
    exact Option.isSome_of_eq_some hv
  | toRepresentationBarrett | toIntegerBarrett => exact modIdentity_wf h
  | invMod => exact execInvMod_wf h
  | addMod | subMod | mulMont | mulBarret | addMod512 | subMod512 | mulMont512 => exact modBinary_wf h
  | doubleMod | negateMod | squareMont | toRepresentation | toInteger | squareBarret | doubleMod512 | negateMod512
  | squareMont512 | toRepresentation512 | toInteger512 => exact modUnary_wf h
  | lt | leq | eq | lt512 | leq512 | eq512 => exact modCompare_wf h
  | isZero | isOne | isZeroMod | isZero512 | isOne512 | isZeroMod512 => exact modTest_wf h

/-- Settles O25: of the effects, only a delegation call and a macro-operation touch the registers; the first is a primitive, the
second borrows the scratch space and leaves it unspecified, as no conversion of a Barrett field does. -/
theorem valueOperationsKeepRegisters : Obligations.ValueOperationsKeepRegisters := by
  unfold Obligations.ValueOperationsKeepRegisters
  intro i s t hi h
  have hprim : isPrimitive i = false := by
    rcases hi with ⟨hp, -⟩ | ⟨f, dst, rfl | rfl⟩
    exacts [hp, rfl, rfl]
  have hscratch : borrowsScratch i = false ∨ keepsScratch i = true := by
    rcases hi with ⟨-, hb⟩ | ⟨f, dst, rfl | rfl⟩
    exacts [.inl hb, .inr rfl, .inr rfl]
  cases exec_effect h with
  | call _ hp => exact absurd hp (by simp [hprim])
  | opRead _ hb hk => exact absurd hscratch (by simp [hb, hk])
  | opWrite _ _ _ _ hb hk => exact absurd hscratch (by simp [hb, hk])
  | limbWrite | limbString => simp
  | readOnly | value => exact ⟨rfl, rfl, rfl, rfl, rfl, rfl, rfl⟩

end Sys2Proof.Machine
end

section
/-! PROOFS. Operations that meet their checks or fail one of them: the violations of reentry and overlap (spec/60_exceptions.md
rules R246 and R247), the refusals of rule R214, byte strings of a field (spec/41_wide_value_ops.md rules R128 and R129) and the
conversions of a Barrett field (spec/44_barrett_256.md rule R179). -/

namespace Sys2Proof.Machine

/-! ### The checks of the place of the operands -/

section
variable {s : State} {u : Bool} {ops : List Operand}

/-- Whether the scratch space is free is checked first (rule R249). -/
theorem placeViolation_of_busy (ops : List Operand) (h : s.scratchBusy = true) :
    placeViolation s true ops = some .vReentry := by
  simp [placeViolation, h]

/-- Overlap is checked after alignment (rule R249). -/
theorem placeViolation_of_overlap (hbusy : u = true → s.scratchBusy = false) (ha : ∀ o ∈ ops, o.addr % 32 = 0)
    (h : operandsDisjoint ops = false ∨ ∃ o ∈ ops, o.clear s.cfg = false) :
    placeViolation s u ops = some (.vOverlap (firstAddr ops) (lastAddr ops)) := by
  have hfree : (u && s.scratchBusy) = false := by simpa using hbusy
  have hall : ops.all Operand.aligned = true := by simpa [Operand.aligned] using ha
  have hno : (operandsDisjoint ops && ops.all (Operand.clear s.cfg)) = false := by
    rw [Bool.and_eq_false_iff, List.all_eq_false]
    simpa using h
  simp [placeViolation, hfree, hall, hno]

theorem Operand.clear_of_scratch {c : Config} {o : Operand}
    (h : disjointBlocks o.addr o.bytes c.scratchBase scratchBytes = false) : o.clear c = false := by
  rw [Operand.clear, h, Bool.false_and]

theorem Operand.clear_of_constBlock {c : Config} {o : Operand} {d : Descriptor} (hw : o.written = true)
    (hd : d ∈ c.fields) (h : disjointBlocks o.addr o.bytes d.constBase constBlockBytes = false) : o.clear c = false := by
  have hall : c.constBlocks.all (fun b => disjointBlocks o.addr o.bytes b.1 b.2) = false :=
    List.all_eq_false.2 ⟨_, List.mem_map_of_mem hd, by simp [h]⟩
  rw [Operand.clear, hw, hall, Bool.not_true, Bool.or_self, Bool.and_false]

end

/-! ### The obligations on the checks -/

/-- Settles O16: of the checks of rule R140 the one for reentry comes first. -/
theorem reentryStops : Obligations.ReentryStops := by
  unfold Obligations.ReentryStops
  intro i s hborrows hf hbusy
  exact exec_stopsWith_of_placeViolation hf (hborrows ▸ placeViolation_of_busy _ hbusy)

/-- Settles O17: an operand that meets the scratch space or a constants block it writes is not clear, and two that meet are not
disjoint. -/
theorem overlapStops : Obligations.OverlapStops := by
  unfold Obligations.OverlapStops
  intro i s hf hbusy ha h
  refine ⟨_, _, exec_stopsWith_of_placeViolation hf (placeViolation_of_overlap hbusy ha ?_)⟩
  rcases h with ⟨o, ho, hmeet⟩ | ⟨o, ho, hw, d, hd, hmeet⟩ | ⟨o, o', hops, hmeet⟩
  · exact .inr ⟨o, ho, Operand.clear_of_scratch hmeet⟩
  · exact .inr ⟨o, ho, Operand.clear_of_constBlock hw hd hmeet⟩
  · left
    rw [hops]
    simp [operandsDisjoint, pairwiseDisjoint, hmeet]

/-! ### A descriptor of the other width -/

theorem bindField_of_wrongWidth {c : Config} {f : Nat} {w : Width} {k : Option RedKind} {d : Descriptor}
    (hd : c.fields[f]? = some d) (hok : d.ok = true) (hw : w ≠ d.width) :
    bindField c f (some w) k = .error .wrongWidth := by
  simp [bindField, hd, hok, hw]

theorem moduleOp_of_wrongWidth {s : State} {f : Nat} {w : Width} {k : Option RedKind} {d : Descriptor}
    (ops : List Operand) (body : Descriptor → State → Out) (hd : s.cfg.fields[f]? = some d) (hok : d.ok = true)
    (hw : w ≠ d.width) : moduleOp w k f ops s body = .refused .wrongWidth := by
  rw [moduleOp, bindField_of_wrongWidth hd hok hw]

/-- Settles O47: the three operations bind a descriptor of one word. -/
theorem noWideBarrettNorInversion : Obligations.NoWideBarrettNorInversion := by
  unfold Obligations.NoWideBarrettNorInversion
  intro s f dst src d hd hok hw
  have hne : Width.w256 ≠ d.width := by rw [hw]; decide
  refine ⟨?mul, ?square, ?inv⟩
  case mul =>
    change execMulBarret f dst src s = _
    rw [execMulBarret, modBinary, moduleOp_of_wrongWidth _ _ hd hok hne]
  case square =>
    change execSquareBarret f dst s = _
    rw [execSquareBarret, modUnary, moduleOp_of_wrongWidth _ _ hd hok hne]
  case inv =>
    change execInvMod f dst s = _
    rw [execInvMod, moduleOp_of_wrongWidth _ _ hd hok hne]

/-! ### Byte strings of a field -/

section
variable {s : State} {f dst src bytes : Nat} {d : Descriptor}

/-- When `from_bytes` completes: it stores the value and answers 1 where the value is below the modulus, else it answers 0. -/
theorem exec_fromBytes_of_legal (hb : Binds s.cfg f none none d) (hl : OpLegal s true [mutOperand d.width dst])
    (hr : s.cfg.readableBlock bytes d.width.bytes = true) :
    exec (.fromBytes f dst bytes) s =
      if d.modulus ≤ beValue (s.readBytes bytes d.width.bytes) then .next (s.beginOp.completeOp (.bit false))
      else .next ((s.beginOp.writeWide d.width dst (beValue (s.readBytes bytes d.width.bytes))).completeOp (.bit true)) := by
  have hacc : bytesAccessible s.cfg false bytes d.width.bytes = true := hr
  change execFromBytes f dst bytes s = _
  unfold execFromBytes
  rw [(bindField_eq_ok_iff ..).2 hb]; dsimp only
  rw [(opViolation_eq_none_iff ..).2 hl]; dsimp only
  rw [if_pos hacc]

/-- A string of the width of a field is a value of that width. -/
theorem beValue_readBytes_lt (s : State) (bytes : Nat) (n : Width) : beValue (s.readBytes bytes n.bytes) < 2 ^ n.bits := by
  simpa [n.two_pow_bits] using beValue_lt (s.readBytes bytes n.bytes)

theorem exec_toBytes (hb : Binds s.cfg f none none d) :
    exec (.toBytes f bytes src) s = exec (.beEncode d.width bytes src) s := by
  change execToBytes f bytes src s = _
  unfold execToBytes
  rw [(bindField_eq_ok_iff ..).2 hb]
  rfl

end

/-! ### The obligations on byte strings and Barrett conversions -/

/-- Settles O22: the value is that of the big-endian string, and what is returned beside it does not touch memory. -/
theorem fromBytesResult : Obligations.FromBytesResult := by
  unfold Obligations.FromBytesResult
  intro s f dst bytes v d hb hl hr hv
  rw [← beValue_readBytes] at hv
  subst hv
  have hstores := stores_completeOp_writeWide hl List.mem_cons_self (beValue_readBytes_lt s bytes d.width)
  rw [exec_fromBytes_of_legal hb hl hr]
  refine ⟨fun hlt => ?_, fun hge => ?_⟩
  · refine ⟨_, if_neg (Nat.not_le.2 hlt), ?_, rfl, fun x hx hs => ?_, opFrame_completeOp _ (by simp) (by simp)⟩
    · exact (State.readWide_congr fun _ _ => State.readByte_completeOp_ret ..).trans hstores.value
    · exact (State.readByte_completeOp_ret ..).trans (hstores.memory x hx hs)
  · exact ⟨_, if_pos hge, returns_completeOp s false⟩

/-- Settles O23: `to_bytes` is `be_encode` at the width of its field, whose result is O21. -/
theorem toBytesResult : Obligations.ToBytesResult := by
  unfold Obligations.ToBytesResult
  intro s f bytes src d hb hl hw
  obtain ⟨hencode, -, -⟩ := beEncodeResult
  rw [exec_toBytes hb]
  exact ⟨rfl, hencode s d.width bytes src hl hw⟩

/-- Settles O37: an identity conversion changes only what is returned and the counter. -/
theorem barrettConversionsAreIdentity : Obligations.BarrettConversionsAreIdentity := by
  unfold Obligations.BarrettConversionsAreIdentity
  intro s f dst d hb hp ha
  have hid : ∃ t, modIdentity f dst s = .next t ∧ sameBytes s t ∧ t.ret = .none ∧ LimbFrame s t :=
    ⟨_, modIdentity_of_placed hb hp ha, State.readByte_completeReadOnly s _, rfl, ⟨rfl, rfl, rfl⟩⟩
  exact ⟨hid, hid⟩

end Sys2Proof.Machine
end

section
/-! PROOFS. Decimal literals (spec/41_wide_value_ops.md rule R130): what `parse_decimal` accepts and the value it finds, and the
build of a configuration from the literals of its fields. -/

namespace Sys2Proof

/-! ### The value of a literal -/

/-- The number a string of digits writes, as the sum of the rule; a character below `0` counts as 0. -/
def decimalSum (lit : List Char) : Nat :=
  ∑ k ∈ Finset.range lit.length, ((lit.getD k '0').toNat - 48) * 10 ^ (lit.length - 1 - k)

theorem decimalSum_cons (ch : Char) (s : List Char) :
    decimalSum (ch :: s) = (ch.toNat - 48) * 10 ^ s.length + decimalSum s := by
  rw [decimalSum, List.length_cons, Finset.sum_range_succ', Nat.add_comm, decimalSum]
  congr 1
  refine Finset.sum_congr rfl fun k _ => ?_
  rw [List.getD_cons_succ, Nat.add_sub_cancel, Nat.sub_sub, Nat.add_comm 1 k]

theorem digitValue_eq_some_iff {ch : Char} {v : Nat} :
    digitValue ch = some v ↔ (48 ≤ ch.toNat ∧ ch.toNat ≤ 57) ∧ v = ch.toNat - 48 := by
  unfold digitValue
  split
  next h => simp [h, eq_comm]
  next h => simp [h]

/-- The digits after a value below the limit: all are digits, and the whole number stays below it. -/
theorem digitsValue_eq_some_iff {limit acc v : Nat} {s : List Char} (hacc : acc < limit) :
    digitsValue limit acc s = some v ↔
      (∀ ch ∈ s, 48 ≤ ch.toNat ∧ ch.toNat ≤ 57) ∧ v = acc * 10 ^ s.length + decimalSum s ∧ v < limit := by
  induction s generalizing acc with
  | nil => simp only [digitsValue, decimalSum]; simp; omega
  | cons ch s ih =>
    have hpow : 0 < 10 ^ s.length := Nat.pow_pos (by decide)
    have hval : acc * 10 ^ (ch :: s).length + decimalSum (ch :: s) =
        (10 * acc + (ch.toNat - 48)) * 10 ^ s.length + decimalSum s := by
      rw [decimalSum_cons, List.length_cons, Nat.pow_succ]
      ring
    rw [hval, List.forall_mem_cons]
    unfold digitsValue
    split
    next m hm =>
      obtain ⟨hdigit, rfl⟩ := digitValue_eq_some_iff.1 hm
      split
      next hlt => rw [ih hlt]; simp [hdigit]
      next hge =>
        have hmul := Nat.le_mul_of_pos_right (10 * acc + (ch.toNat - 48)) hpow
        simp only [reduceCtorEq, false_iff]
        rintro ⟨-, rfl, hv⟩
        omega
    next hm =>
      have hno : ¬ (48 ≤ ch.toNat ∧ ch.toNat ≤ 57) := fun h => by simp [digitValue_eq_some_iff.2 ⟨h, rfl⟩] at hm
      simp [hno]

theorem Width.limit_eq (n : Width) : n.limit = 2 ^ n.bits := by
  cases n with
  | w256 => rfl
  | w512 => exact Machine.two_pow_bits_w512.symm

/-- What `parse_decimal` accepts, and the value it finds (rule R130). -/
theorem decimalValue_eq_some_iff {n : Width} {lit : List Char} {v : Nat} :
    decimalValue n lit = some v ↔
      lit ≠ [] ∧ (∀ ch ∈ lit, 48 ≤ ch.toNat ∧ ch.toNat ≤ 57) ∧ v = decimalSum lit ∧ v < 2 ^ n.bits := by
  unfold decimalValue
  split
  next => simp
  next ch rest =>
    rw [digitsValue_eq_some_iff (by rw [n.limit_eq]; exact Nat.two_pow_pos _), Nat.zero_mul, Nat.zero_add, n.limit_eq]
    simp

/-! ### The build of a configuration -/

/-- When a field is built: its literal has a value, which becomes its modulus. -/
theorem FieldSource.build_eq_some_iff {f : FieldSource} {d : Descriptor} :
    f.build = some d ↔ decimalValue f.width f.literal = some d.modulus ∧ d.width = f.width ∧ d.kind = f.kind ∧
      d.constBase = f.constBase := by
  obtain ⟨w, k, p, b⟩ := d
  unfold FieldSource.build
  split
  next v hv => rw [hv]; simp only [Option.some.injEq, Descriptor.mk.injEq]; tauto
  next hv => rw [hv]; simp

theorem FieldSource.build_eq_none_iff {f : FieldSource} : f.build = none ↔ decimalValue f.width f.literal = none := by
  unfold FieldSource.build
  split
  next v hv => simp [hv]
  next hv => simp [hv]

/-- The fields are built one by one. -/
theorem buildFields_eq_some_iff {fs : List FieldSource} {ds : List Descriptor} :
    buildFields fs = some ds ↔ List.Forall₂ (fun f d => f.build = some d) fs ds := by
  induction fs generalizing ds with
  | nil => simp [buildFields, eq_comm]
  | cons f fs ih =>
    unfold buildFields
    split
    next d ds' hd hds =>
      have hrest := ih.1 hds
      constructor
      · rintro h
        obtain rfl := Option.some.inj h
        exact .cons hd hrest
      · rintro (_ | ⟨hd', hds''⟩)
        rw [Option.some.inj (hd.symm.trans hd'), Option.some.inj (hds.symm.trans (ih.2 hds''))]
    next hno =>
      simp only [reduceCtorEq, false_iff]
      rintro (_ | ⟨hd, hds⟩)
      exact hno _ _ hd (ih.2 hds)

/-- The build fails exactly where a literal fails. -/
theorem buildFields_eq_none_iff {fs : List FieldSource} :
    buildFields fs = none ↔ ∃ f ∈ fs, decimalValue f.width f.literal = none := by
  induction fs with
  | nil => simp [buildFields]
  | cons f fs ih =>
    rw [List.exists_mem_cons_iff, ← ih, ← FieldSource.build_eq_none_iff]
    cases hd : f.build with
    | none => simp [buildFields, hd]
    | some d =>
      cases hds : buildFields fs with
      | none => simp [buildFields, hd, hds]
      | some ds => simp [buildFields, hd, hds]

theorem Config.build_eq_none_iff {c : Config} {fs : List FieldSource} : c.build fs = none ↔ buildFields fs = none := by
  unfold Config.build
  split
  next ds hds => simp [hds]
  next hds => simp [hds]

theorem Config.build_eq_some {c c' : Config} {fs : List FieldSource} (h : c.build fs = some c') :
    ∃ ds, buildFields fs = some ds ∧ c' = { c with fields := ds } := by
  unfold Config.build at h
  split at h
  next ds hds => exact ⟨ds, hds, (Option.some.inj h).symm⟩
  next => cases h

namespace Machine

/-! ### The operation `parse_decimal` -/

theorem exec_parseDecimal_of_some {s : State} {n : Width} {lit : List Char} {v : Nat} (h : decimalValue n lit = some v) :
    exec (.parseDecimal n lit) s = .next (s.returnValue v) := by
  change execParseDecimal n lit s = _
  rw [execParseDecimal, h]

theorem exec_parseDecimal_of_none (s : State) {n : Width} {lit : List Char} (h : decimalValue n lit = none) :
    exec (.parseDecimal n lit) s = .refused .badLiteral := by
  change execParseDecimal n lit s = _
  rw [execParseDecimal, h]

/-- Settles O24: Horner's rule over the digits is the sum of the rule (`decimalValue_eq_some_iff`), and the build of the fields
goes through their list (`buildFields_eq_some_iff`). -/
theorem parseDecimalResult : Obligations.ParseDecimalResult := by
  unfold Obligations.ParseDecimalResult
  refine ⟨fun s n lit v hv => ⟨fun hne hdigits hlt => ?_, fun hbad => ?_⟩, fun c fs => ⟨?_, fun c' h => ?_⟩⟩
  · have hsome : decimalValue n lit = some v := decimalValue_eq_some_iff.2 ⟨hne, hdigits, hv, hlt⟩
    exact ⟨hsome, _, exec_parseDecimal_of_some hsome, rfl, State.readByte_returnValue s v, ⟨rfl, rfl, rfl⟩⟩
  · have hnone : decimalValue n lit = none := by
      by_contra hsome
      obtain ⟨v', hv'⟩ := Option.ne_none_iff_exists'.1 hsome
      obtain ⟨hne, hdigits, hval, hlt⟩ := decimalValue_eq_some_iff.1 hv'
      rcases hbad with hnil | ⟨ch, hch, hout⟩ | hge
      · exact hne hnil
      · have := hdigits ch hch
        omega
      · rw [hval, decimalSum, ← hv] at hlt
        omega
    exact ⟨exec_parseDecimal_of_none s hnone, hnone⟩
  · rw [Config.build_eq_none_iff, buildFields_eq_none_iff]
  · obtain ⟨ds, hds, rfl⟩ := Config.build_eq_some h
    have hall := buildFields_eq_some_iff.1 hds
    refine ⟨ds, rfl, hall.length_eq.symm, fun k f d hf hd => FieldSource.build_eq_some_iff.1 ?_⟩
    obtain ⟨hk, rfl⟩ := List.getElem?_eq_some_iff.1 hf
    obtain ⟨hk', rfl⟩ := List.getElem?_eq_some_iff.1 hd
    exact hall.get hk hk'

end Machine
end Sys2Proof
end

section
/-! PROOFS. Sequences of delegation calls (spec/30_encoding.md rule R79) on whole words: memory as a function from the aligned
addresses to the words there, what one call does to it (rules R101 to R107), the addresses a sequence works on, and the chains
of rules R108 and R267. -/

namespace Sys2Proof.Machine

/-! ### Memory as words -/

theorem State.toNat_readWord (s : State) (a : Nat) : (s.readWord a).toNat = s.memRead a 32 := by
  have hlt : s.memRead a 32 < 2 ^ 256 := by
    have h256 : 256 ^ 32 = 2 ^ 256 := by decide
    exact h256 ▸ s.memRead_lt a 32
  rw [State.readWord, BitVec.toNat_ofNat, Nat.mod_eq_of_lt hlt]

/-- A word determines its bytes. -/
theorem State.readByte_eq_of_readWord_eq {s t : State} {a i : Nat} (h : (s.readWord a).toNat = (t.readWord a).toNat)
    (hi : i < 32) : s.readByte (a + i) = t.readByte (a + i) := by
  rw [State.toNat_readWord, State.toNat_readWord, State.memRead, State.memRead] at h
  have hs := leBytes_leValue (s.readBytes a 32)
  have ht := leBytes_leValue (t.readBytes a 32)
  rw [State.length_readBytes] at hs ht
  have hbytes : s.readBytes a 32 = t.readBytes a 32 := by rw [← hs, ← ht, h]
  rw [← State.getElem_readBytes s a 32 i (by simpa using hi), ← State.getElem_readBytes t a 32 i (by simpa using hi)]
  simp only [hbytes]

/-- The state `s` of a sequence that began in `s₀`: the configuration and the requests are those of `s₀`, and the word at every
aligned address `x` is `ω x`. -/
structure SeqAt (s₀ : State) (ω : Nat → Nat) (s : State) : Prop where
  cfg : s.cfg = s₀.cfg
  requests : s.requests = s₀.requests
  words : ∀ x, x % 32 = 0 → (s.readWord x).toNat = ω x

/-- The words of a state. -/
@[irreducible] def State.words (s : State) (x : Nat) : Nat := (s.readWord x).toNat

theorem seqAt_words (s : State) : SeqAt s s.words s := ⟨rfl, rfl, fun _ _ => by rw [State.words]⟩

/-- An aligned word of readable memory: what the second address of a call must be. -/
structure WordRd (c : Config) (a : Nat) : Prop where
  aligned : a % 32 = 0
  readable : c.readableBlock a 32 = true

/-- An aligned word of writable memory: what the first address of a call must be. -/
structure WordWr (c : Config) (a : Nat) : Prop where
  aligned : a % 32 = 0
  writable : c.writableBlock a 32 = true

section
variable {c : Config} {a b : Nat}

theorem Config.readable_of_writable {x : Nat} (h : c.writable x = true) : c.readable x = true := by
  rw [Config.readable, show (c.kindAt x == some .plain) = true from h, Bool.true_or]

theorem WordWr.rd (h : WordWr c a) : WordRd c a where
  aligned := h.aligned
  readable := (Config.readableBlock_iff ..).2 fun j hj =>
    Config.readable_of_writable ((Config.writableBlock_iff ..).1 h.writable j hj)

theorem WordWr.truncAddr (h : WordWr c a) : c.truncAddr a = a :=
  Nat.mod_eq_of_lt (Config.lt_of_writable ((Config.writableBlock_iff ..).1 h.writable 0 (by decide)))

theorem WordRd.truncAddr (h : WordRd c a) : c.truncAddr a = a :=
  Nat.mod_eq_of_lt (Config.lt_of_readable ((Config.readableBlock_iff ..).1 h.readable 0 (by decide)))

end

/-! ### One call -/

section
variable {s₀ s : State} {ω : Nat → Nat} {a b : Nat}

theorem SeqAt.callLegal (hs : SeqAt s₀ ω s) (ha : WordWr s₀.cfg a) (hb : WordRd s₀.cfg b) (hne : a ≠ b) (ctl : Ctl) :
    CallLegal (s.setRegs a b ctl) := by
  rw [← hs.cfg] at ha hb
  have hA : (s.setRegs a b ctl).regA = a := ha.truncAddr
  have hB : (s.setRegs a b ctl).regB = b := hb.truncAddr
  constructor
  · rw [hA]; exact ha.aligned
  · rw [hB]; exact hb.aligned
  · rwa [hA, hB]
  · rw [hA]; exact ha.writable
  · rw [hB]; exact hb.readable

/-- A completed call changes the word at its first address and no other word. -/
theorem SeqAt.callResult (hs : SeqAt s₀ ω s) (ha : WordWr s₀.cfg a) (prim : Word → Word → PrimResult) (ctl : Ctl) :
    SeqAt s₀ (Function.update ω a ((callResult prim (s.setRegs a b ctl)).readWord a).toNat)
      (callResult prim (s.setRegs a b ctl)) := by
  have hA : (s.setRegs a b ctl).regA = a := by rw [State.setRegs_regA, hs.cfg, ha.truncAddr]
  have hframe := callFrame_callResult prim (s.setRegs a b ctl)
  refine ⟨hframe.cfg.trans hs.cfg, hframe.requests.trans hs.requests, fun x hx => ?_⟩
  by_cases hxa : x = a
  · rw [hxa, Function.update_self]
  · have haligned := ha.aligned
    have hout (i : Nat) (hi : i < 32) : x + i < a ∨ a + 32 ≤ x + i := by omega
    have hword : (Machine.callResult prim (s.setRegs a b ctl)).readWord x = s.readWord x :=
      State.readWord_congr fun i hi =>
        (hframe.memory _ (by rw [hA]; exact hout i hi)).trans (State.readByte_setRegs ..)
    rw [Function.update_of_ne hxa, ← hs.words x hx, hword]

/-- What the primitive `i` does with the words `A` and `B`: the word `v` it leaves at the first address and the flag `f`. -/
def PrimSpec (i : Instr) (A B v : Nat) (f : Bool) : Prop :=
  match i with
  | .waluAdd cin => v + W * f.toNat = A + B + cin.toNat
  | .waluSub cin => v + B + cin.toNat = A + W * f.toNat
  | .waluSubNeg cin => v + A + cin.toNat = B + W * f.toNat
  | .waluMulLo _ => v = A * B % W
  | .waluMulHi _ => v = A * B / W
  | .waluEq _ => f = decide (A = B)
  | .waluMemCpy cin => v + W * f.toNat = B + cin.toNat
  | _ => False

/-- The word and the borrow of an exact difference. -/
theorem toNat_ofInt_sub_add {A B : Word} (c : Bool) :
    (BitVec.ofInt 256 ((A.toNat : Int) - B.toNat - c.toNat)).toNat + B.toNat + c.toNat =
      A.toNat + W * (borrowOut ((A.toNat : Int) - B.toNat - c.toNat)).toNat := by
  have hA : A.toNat < W := A.isLt
  have hB : B.toNat < W := B.isLt
  have hc := c.toNat_le
  have hmod := natCast_toNat_ofInt ((A.toNat : Int) - B.toNat - c.toNat)
  rw [borrowOut_sub]
  by_cases hlt : A.toNat < B.toNat + c.toNat
  · rw [Int.emod_eq_add_self_emod, Int.emod_eq_of_lt (by omega) (by omega)] at hmod
    rw [decide_eq_true hlt, Bool.toNat_true]
    omega
  · rw [Int.emod_eq_of_lt (by omega) (by omega)] at hmod
    rw [decide_eq_false hlt, Bool.toNat_false]
    omega

/-- The residue and the carry of a sum. -/
theorem toNat_ofNat_add_carryOut {sum : Nat} (h : sum < 2 * W) :
    (BitVec.ofNat 256 sum).toNat + W * (carryOut sum).toNat = sum := by
  rw [BitVec.toNat_ofNat, toNat_carryOut h]
  exact Nat.mod_add_div sum W

/-- Every primitive meets `PrimSpec` with the word it writes and its flag. -/
theorem exec_primitive_spec {i : Instr} (hi : isPrimitive i = true) (s : State) :
    ∃ prim, exec i s = delegationCall prim s ∧ ∀ (A B : Word) (v : Nat),
      (∀ w, (prim A B).result = some w → v = w.toNat) → PrimSpec i A.toNat B.toNat v (prim A B).flag := by
  have hlt (w : Word) : w.toNat < W := w.isLt
  cases i with
  | waluAdd cin =>
    refine ⟨primAdd cin, rfl, fun A B v hv => ?_⟩
    obtain rfl := hv _ rfl
    have hA := hlt A; have hB := hlt B; have hc := cin.toNat_le
    exact toNat_ofNat_add_carryOut (by omega)
  | waluSub cin =>
    refine ⟨primSub cin, rfl, fun A B v hv => ?_⟩
    obtain rfl := hv _ rfl
    exact toNat_ofInt_sub_add cin
  | waluSubNeg cin =>
    refine ⟨primSubNeg cin, rfl, fun A B v hv => ?_⟩
    obtain rfl := hv _ rfl
    exact toNat_ofInt_sub_add cin
  | waluMulLo =>
    refine ⟨primMulLo (mulFlag s), rfl, fun A B v hv => ?_⟩
    obtain rfl := hv _ rfl
    exact BitVec.toNat_ofNat ..
  | waluMulHi =>
    refine ⟨primMulHi (mulFlag s), rfl, fun A B v hv => ?_⟩
    obtain rfl := hv _ rfl
    exact toNat_ofNat_mul_div A B
  | waluEq =>
    exact ⟨primEq s.cfg.eqPreservesA (Config.freeEqWord s.tick), rfl, fun A B v _ =>
      decide_eq_decide.2 BitVec.toNat_inj.symm⟩
  | waluMemCpy cin =>
    refine ⟨primMemCpy cin, rfl, fun A B v hv => ?_⟩
    obtain rfl := hv _ rfl
    have hB := hlt B; have hc := cin.toNat_le
    exact toNat_ofNat_add_carryOut (by omega)
  | _ => cases hi

/-- What a primitive does to the words, called on two different words it may access (rule R100). -/
theorem SeqAt.exec_primitive {i : Instr} (hi : isPrimitive i = true) (hs : SeqAt s₀ ω s) (ha : WordWr s₀.cfg a)
    (hb : WordRd s₀.cfg b) (hne : a ≠ b) (ctl : Ctl) :
    ∃ t v, exec i (s.setRegs a b ctl) = .next t ∧ SeqAt s₀ (Function.update ω a v) t ∧ v < W ∧
      PrimSpec i (ω a) (ω b) v t.flag := by
  obtain ⟨prim, hexec, hspec⟩ := exec_primitive_spec hi (s.setRegs a b ctl)
  have hl := hs.callLegal ha hb hne ctl
  have hA : (s.setRegs a b ctl).regA = a := by rw [State.setRegs_regA, hs.cfg, ha.truncAddr]
  have hB : (s.setRegs a b ctl).regB = b := by rw [State.setRegs_regB, hs.cfg, hb.truncAddr]
  have hword (x : Nat) : (s.setRegs a b ctl).readWord x = s.readWord x :=
    State.readWord_congr fun _ _ => State.readByte_setRegs ..
  have hv := hspec ((s.setRegs a b ctl).readWord (s.setRegs a b ctl).regA)
    ((s.setRegs a b ctl).readWord (s.setRegs a b ctl).regB)
    ((Machine.callResult prim (s.setRegs a b ctl)).readWord a).toNat
    (fun w hw => by rw [← readWord_callResult_same hl hw, hA])
  rw [← flag_callResult, hA, hB, hword, hword, hs.words a ha.aligned, hs.words b hb.aligned] at hv
  exact ⟨_, _, hexec.trans (delegationCall_of_legal prim hl), hs.callResult ha prim ctl, BitVec.isLt _, hv⟩

/-- The value of an operand, in words. -/
theorem SeqAt.readWide_w256 (hs : SeqAt s₀ ω s) (ha : a % 32 = 0) : s.readWide .w256 a = ω a := hs.words a ha

theorem SeqAt.readWide_w512 (hs : SeqAt s₀ ω s) (ha : a % 32 = 0) : s.readWide .w512 a = ω a + W * ω (a + 32) := by
  rw [State.readWide, hs.words a ha, hs.words (a + 32) (by omega)]

/-- An aligned block of two words that may be accessed is two words that may. -/
theorem wordWr_of_writableBlock {c : Config} (ha : a % 32 = 0) (h : c.writableBlock a 64 = true) :
    WordWr c a ∧ WordWr c (a + 32) := by
  have hbytes := (Config.writableBlock_iff ..).1 h
  refine ⟨⟨ha, ?_⟩, by omega, ?_⟩ <;> rw [Config.writableBlock_iff] <;> intro j hj
  · exact hbytes j (by omega)
  · rw [Nat.add_assoc]; exact hbytes (32 + j) (by omega)

theorem wordRd_of_readableBlock {c : Config} (ha : a % 32 = 0) (h : c.readableBlock a 64 = true) :
    WordRd c a ∧ WordRd c (a + 32) := by
  have hbytes := (Config.readableBlock_iff ..).1 h
  refine ⟨⟨ha, ?_⟩, by omega, ?_⟩ <;> rw [Config.readableBlock_iff] <;> intro j hj
  · exact hbytes j (by omega)
  · rw [Nat.add_assoc]; exact hbytes (32 + j) (by omega)

end

/-! ### Carry chains -/

section
variable {s : State} {a b : Nat}

/-- The control word of a chain selects its opcode, with the flag as carry-in (rule R267). -/
theorem delegate_chainCtl (hcfg : s.cfg.ctl = ctlTable) (o : Opcode) (f : Bool) :
    delegate (chainCtl ctlTable o f) s = exec (o.instr f) s := by
  have hrow : (ctlTable.word o f).isSome = true := by cases o <;> rfl
  obtain ⟨ctl, hctl⟩ := Option.isSome_iff_exists.1 hrow
  rw [delegate, hcfg, chainCtl, hctl, Option.getD_some, decode_of_word o f hctl]

/-- Two chained calls on adjacent words: each does its part, and the block at `b` keeps its words. -/
theorem exists_chain (o : Opcode) (ho : ∀ f, isPrimitive (o.instr f) = true) (ha : a % 32 = 0) (hb : b % 32 = 0)
    (hdisj : a + 64 ≤ b ∨ b + 64 ≤ a) (hw : s.cfg.writableBlock a 64 = true) (hr : s.cfg.readableBlock b 64 = true)
    (hcfg : s.cfg.ctl = ctlTable) :
    ∃ t u lo hi, delegate (chainCtl ctlTable o false) (s.setRegs a b (chainCtl ctlTable o false)) = .next t ∧
      delegate (chainCtl ctlTable o t.flag) (t.setRegs (a + 32) (b + 32) (chainCtl ctlTable o t.flag)) = .next u ∧
      PrimSpec (o.instr false) (s.words a) (s.words b) lo t.flag ∧
      PrimSpec (o.instr t.flag) (s.words (a + 32)) (s.words (b + 32)) hi u.flag ∧
      u.readWide .w512 a = lo + W * hi ∧ u.readWide .w512 b = s.readWide .w512 b := by
  obtain ⟨hwLo, hwHi⟩ := wordWr_of_writableBlock ha hw
  obtain ⟨hrLo, hrHi⟩ := wordRd_of_readableBlock hb hr
  obtain ⟨t, lo, hexecT, ht, -, hlo⟩ :=
    (seqAt_words s).exec_primitive (ho false) hwLo hrLo (by omega) (chainCtl ctlTable o false)
  obtain ⟨u, hi, hexecU, hu, -, hhi⟩ :=
    ht.exec_primitive (ho t.flag) hwHi hrHi (by omega) (chainCtl ctlTable o t.flag)
  have hne (x : Nat) (hx : x = a + 32 ∨ x = b ∨ x = b + 32) : x ≠ a := by omega
  have hne' (x : Nat) (hx : x = a ∨ x = b ∨ x = b + 32) : x ≠ a + 32 := by omega
  rw [Function.update_of_ne (hne _ (.inl rfl)), Function.update_of_ne (hne _ (.inr (.inr rfl)))] at hhi
  refine ⟨t, u, lo, hi, ?_, ?_, hlo, hhi, ?_, ?_⟩
  · rw [delegate_chainCtl (by exact hcfg), hexecT]
  · rw [delegate_chainCtl (by rw [State.setRegs_cfg, ht.cfg, hcfg]), hexecU]
  · rw [hu.readWide_w512 ha, Function.update_of_ne (hne' a (.inl rfl)), Function.update_self, Function.update_self]
  · rw [hu.readWide_w512 hb, (seqAt_words s).readWide_w512 hb, Function.update_of_ne (hne' b (.inr (.inl rfl))),
      Function.update_of_ne (hne b (.inr (.inl rfl))), Function.update_of_ne (hne' (b + 32) (.inr (.inr rfl))),
      Function.update_of_ne (hne (b + 32) (.inr (.inr rfl)))]

/-- Settles O13: the equations of the two calls, the second one `W` times, add up to the exact equation. -/
theorem carryChainsAreExact : Obligations.CarryChainsAreExact := by
  unfold Obligations.CarryChainsAreExact
  intro s a b ha hb hdisj hw hr hcfg
  rw [disjointBlocks_iff] at hdisj
  have hA := (seqAt_words s).readWide_w512 ha
  have hB := (seqAt_words s).readWide_w512 hb
  refine ⟨?add, ?sub⟩
  case add =>
    obtain ⟨t, u, lo, hi, hexecT, hexecU, hlo, hhi, hresult, hkeep⟩ :=
      exists_chain .add (fun _ => rfl) ha hb hdisj hw hr hcfg
    refine ⟨t, u, hexecT, hexecU, ?_, hkeep⟩
    have hlo : lo + W * t.flag.toNat = s.words a + s.words b + 0 := hlo
    have hhi : hi + W * u.flag.toNat = s.words (a + 32) + s.words (b + 32) + t.flag.toNat := hhi
    rw [hresult, hA, hB]
    simp only [W] at hlo hhi ⊢
    omega
  case sub =>
    obtain ⟨t, u, lo, hi, hexecT, hexecU, hlo, hhi, hresult, hkeep⟩ :=
      exists_chain .sub (fun _ => rfl) ha hb hdisj hw hr hcfg
    refine ⟨t, u, hexecT, hexecU, ?_, hkeep⟩
    have hlo : lo + s.words b + 0 = s.words a + W * t.flag.toNat := hlo
    have hhi : hi + s.words (b + 32) + t.flag.toNat = s.words (a + 32) + W * u.flag.toNat := hhi
    rw [hresult, hA, hB]
    simp only [W] at hlo hhi ⊢
    push_cast
    omega

end

end Sys2Proof.Machine
end

section
/-! PROOFS. The reference sequences (spec/42_modular_256.md rule R140): how one call of a sequence goes on, the words a sequence
works on and that they are apart, and how a sequence ends. -/

namespace Sys2Proof.Machine

/-! ### One call of a sequence -/

/-- The outcome `o` is a next state that meets `Q`. -/
def Ends (o : Out) (Q : State → Prop) : Prop := ∃ u, o = .next u ∧ Q u

section
variable {s₀ s : State} {ω : Nat → Nat} {a b : Nat} {Q : State → Prop}

/-- A call of a sequence on two different words it may access completes; the rest of the sequence goes on from the words it left
and with its flag (rule R79). -/
theorem issue_ends {i : Instr} {k : State → Bool → Out} (hi : isPrimitive i = true) (hs : SeqAt s₀ ω s)
    (ha : WordWr s₀.cfg a) (hb : WordRd s₀.cfg b) (hne : a ≠ b)
    (hk : ∀ t v f, SeqAt s₀ (Function.update ω a v) t → v < W → PrimSpec i (ω a) (ω b) v f → Ends (k t f) Q) :
    Ends (issue i a b s k) Q := by
  obtain ⟨t, v, hexec, ht, hv, hspec⟩ := hs.exec_primitive hi ha hb hne ((encode s.cfg.ctl i).getD 0)
  obtain ⟨u, hu, hQ⟩ := hk t v t.flag ht hv hspec
  exact ⟨u, by rw [issue, hexec]; exact hu, hQ⟩

end

/-! ### The words of a sequence -/

section
variable {c : Config} {d : Descriptor} {a i j k : Nat}

theorem Config.scratchBase_aligned (hc : c.ok = true) : c.scratchBase % 32 = 0 := by
  simp only [Config.ok, Config.scratchOk, Bool.and_eq_true, decide_eq_true_eq] at hc
  exact hc.1.1.2.1

/-- The twelve scratch words are words a call may write (rule R261 (b)). -/
theorem wordWr_scratchWord (hc : c.ok = true) (hi : i < 12) : WordWr c (c.scratchWord i) where
  aligned := by
    have hbase := Config.scratchBase_aligned hc
    rw [Config.scratchWord]
    omega
  writable := by
    simp only [Config.ok, Config.scratchOk, Bool.and_eq_true, List.all_eq_true, List.mem_range] at hc
    exact hc.1.1.2.2 i hi

@[simp] theorem scratchWord_inj : c.scratchWord i = c.scratchWord j ↔ i = j := by
  simp only [Config.scratchWord]
  omega

/-- Every byte of a constants block is readable: the blocks lie in the address space and are read only. -/
theorem readable_constBlock (hc : c.ok = true) (hd : d ∈ c.fields) (hi : i < constBlockBytes) :
    c.readable (d.constBase + i) = true := by
  have hl := Config.layoutOk_of_ok hc
  have hfield : c.constField? (d.constBase + i) = some d :=
    Config.constField?_eq_some hl hd ((inBlock_iff _ _ _).2 (by omega))
  simp only [Config.layoutOk, Bool.and_eq_true, List.all_eq_true, decide_eq_true_eq] at hl
  have hend := (hl.1.1 d hd).2
  have hkind : c.kindAt (d.constBase + i) = some .readOnly := by
    rw [Config.kindAt, if_pos (by omega), hfield]
  rw [Config.readable, hkind]
  rfl

/-- The address of the constant word `k` of a field (spec/10_state.md rule R32). -/
def constAddr (d : Descriptor) (k : Nat) : Nat := d.constBase + 32 * k

theorem wordRd_constAddr (hc : c.ok = true) (hd : d ∈ c.fields) (hk : k < 8) : WordRd c (constAddr d k) where
  aligned := by
    have hbase := Config.constBase_aligned (Config.layoutOk_of_ok hc) hd
    rw [constAddr]
    omega
  readable := (Config.readableBlock_iff ..).2 fun j hj => by
    rw [constAddr, Nat.add_assoc]
    exact readable_constBlock hc hd (by rw [constBlockBytes]; omega)

/-- A word that may be written is no constant. -/
theorem WordWr.ne_constAddr (ha : WordWr c a) (hc : c.ok = true) (hd : d ∈ c.fields) (hk : k < 8) : a ≠ constAddr d k := by
  rintro rfl
  have hfree := Config.free_of_writable ((Config.writableBlock_iff ..).1 ha.writable 0 (by decide))
  have hx : inBlock d.constBase constBlockBytes (constAddr d k) = true :=
    (inBlock_iff _ _ _).2 (by rw [constAddr, constBlockBytes]; omega)
  rw [Config.free, Nat.add_zero, Config.constByte?_eq_some (Config.layoutOk_of_ok hc) hd hx] at hfree
  cases hfree

end

/-- The word at `x` is none of the twelve scratch words. -/
def OffScratch (c : Config) (x : Nat) : Prop := ∀ i < 12, x ≠ c.scratchWord i

/-- A sequence runs under an accepted configuration, for one of its fields. -/
structure SeqField (s₀ : State) (d : Descriptor) : Prop where
  cfgOk : s₀.cfg.ok = true
  field : d ∈ s₀.cfg.fields

section
variable {s₀ s : State} {d : Descriptor} {ω : Nat → Nat} {a k : Nat}

theorem SeqField.scratch (hF : SeqField s₀ d) {i : Nat} (hi : i < 12) : WordWr s₀.cfg (s₀.cfg.scratchWord i) :=
  wordWr_scratchWord hF.cfgOk hi

theorem SeqField.const (hF : SeqField s₀ d) (hk : k < 8) : WordRd s₀.cfg (constAddr d k) :=
  wordRd_constAddr hF.cfgOk hF.field hk

theorem SeqField.ne_const (hF : SeqField s₀ d) (hk : k < 8) (ha : WordWr s₀.cfg a) : a ≠ constAddr d k :=
  ha.ne_constAddr hF.cfgOk hF.field hk

theorem SeqField.offScratch_const (hF : SeqField s₀ d) (hk : k < 8) : OffScratch s₀.cfg (constAddr d k) :=
  fun _ hi => (hF.ne_const hk (hF.scratch hi)).symm

/-- A constant reads as the descriptor says wherever a sequence has come (rule R40). -/
theorem SeqAt.const (hs : SeqAt s₀ ω s) (hF : SeqField s₀ d) (hk : k < 8) : ω (constAddr d k) = d.constWord k := by
  rw [← hs.words _ (hF.const hk).aligned]
  exact State.readWord_constBlock (hs.cfg ▸ hF.cfgOk) (hs.cfg ▸ hF.field) hk

@[simp] theorem SeqAt.sw (hs : SeqAt s₀ ω s) (i : Nat) : s.sw i = s₀.cfg.scratchWord i := by rw [State.sw, hs.cfg]

end

/-! ### The operands of a legal operation as words -/

section
variable {s : State} {u : Bool} {ops : List Operand} {w : Width} {a b : Nat} {wr : Bool}

/-- The words of an operand: at the operand's own address, and for two words at the next one. -/
def IsWordOf (w : Width) (a x : Nat) : Prop := x = a ∨ (w = .w512 ∧ x = a + 32)

theorem IsWordOf.le (h : IsWordOf w a b) : a ≤ b ∧ b + 32 ≤ a + w.bytes := by
  rcases h with rfl | ⟨rfl, rfl⟩
  · cases w <;> simp [Width.bytes]
  · simp [Width.bytes]

theorem OpLegal.word_aligned (hl : OpLegal s u ops) (hmem : (⟨a, w.bytes, wr⟩ : Operand) ∈ ops) (h : IsWordOf w a b) :
    b % 32 = 0 := by
  have ha : a % 32 = 0 := hl.aligned _ hmem
  rcases h with rfl | ⟨-, rfl⟩ <;> omega

theorem OpLegal.offScratch (hl : OpLegal s u ops) (hmem : (⟨a, w.bytes, wr⟩ : Operand) ∈ ops) (h : IsWordOf w a b) :
    OffScratch s.cfg b := by
  rintro i hi rfl
  have hle := h.le
  have hout := hl.notInScratch hmem (i := s.cfg.scratchWord i - a) (show _ < w.bytes by omega)
  rw [← Bool.not_eq_true, Config.inScratch_iff] at hout
  simp only [Config.scratchWord] at hle hout
  omega

theorem OpLegal.wordWr (hl : OpLegal s u ops) (hmem : mutOperand w a ∈ ops) (h : IsWordOf w a b) : WordWr s.cfg b where
  aligned := hl.word_aligned hmem h
  writable := by
    have hle := h.le
    have hbytes := (Config.writableBlock_iff ..).1 (hl.writableBlock hmem)
    rw [Config.writableBlock_iff]
    intro j hj
    have := hbytes (b - a + j) (by omega)
    rwa [← Nat.add_assoc, Nat.add_sub_cancel' hle.1] at this

theorem OpLegal.wordRd (hl : OpLegal s u ops) (hmem : readOperand w a ∈ ops) (h : IsWordOf w a b) : WordRd s.cfg b where
  aligned := hl.word_aligned hmem h
  readable := by
    have hle := h.le
    have hbytes := (Config.readableBlock_iff ..).1 (hl.accessible _ hmem)
    rw [Config.readableBlock_iff]
    intro j hj
    have := hbytes (b - a + j) (show b - a + j < w.bytes by omega)
    change s.cfg.readable (a + (b - a + j)) = true at this
    rwa [← Nat.add_assoc, Nat.add_sub_cancel' hle.1] at this

end

/-! ### How a sequence ends -/

section
variable {s₀ s t : State} {ω ω' : Nat → Nat}

/-- The start of a macro-operation leaves the words. -/
theorem seqAt_beginOp (s : State) : SeqAt s s.words s.beginOp where
  cfg := rfl
  requests := rfl
  words _ _ := by
    rw [State.words]
    exact congrArg BitVec.toNat (State.readWord_congr fun _ _ => State.readByte_beginOp ..)

/-- A word is in the scratch space if one of its bytes is, because the scratch space is aligned. -/
theorem offScratch_of_inScratch_eq_false {c : Config} (hc : c.ok = true) {x : Nat} (h : c.inScratch x = false) :
    OffScratch c (x / 32 * 32) := by
  have hbase := Config.scratchBase_aligned hc
  rintro i hi heq
  rw [← Bool.not_eq_true, Config.inScratch_iff] at h
  rw [Config.scratchWord] at heq
  omega

/-- Two states of one sequence whose words outside the scratch space are the same agree when the operation completes. -/
theorem SeqAt.agrees (hc : s₀.cfg.ok = true) (hs : SeqAt s₀ ω s) (ht : SeqAt s₀ ω' t) (r : Ret)
    (h : ∀ x, OffScratch s₀.cfg x → ω' x = ω x) : Agrees (s.completeOp r) (t.completeOp r) where
  cfg := ht.cfg.trans hs.cfg.symm
  ret := rfl
  scratchBusy := rfl
  requests := ht.requests.trans hs.requests.symm
  memory x hx := by
    have hx : s₀.cfg.inScratch x = false := by rw [← hs.cfg]; exact hx
    have hword := h _ (offScratch_of_inScratch_eq_false hc hx)
    have haligned : x / 32 * 32 % 32 = 0 := Nat.mul_mod_left ..
    rw [← hs.words _ haligned, ← ht.words _ haligned] at hword
    have hbyte := State.readByte_eq_of_readWord_eq hword (Nat.mod_lt x (by decide))
    rw [Nat.div_add_mod'] at hbyte
    rw [State.readByte_completeOp t r (by rw [ht.cfg]; exact hx), State.readByte_completeOp s r (by rw [hs.cfg]; exact hx),
      hbyte]

/-- The words after a word is written. -/
theorem SeqAt.writeWord (hs : SeqAt s₀ ω s) {a : Nat} (ha : WordWr s₀.cfg a) (v : Word) :
    SeqAt s₀ (Function.update ω a v.toNat) (s.writeWord a v) where
  cfg := by rw [State.writeWord_cfg, hs.cfg]
  requests := by rw [State.writeWord_requests, hs.requests]
  words x hx := by
    by_cases hxa : x = a
    · rw [hxa, Function.update_self,
        State.readWord_writeWord_same _ _ _ (Config.freeBlock_of_writableBlock (hs.cfg ▸ ha.writable))]
    · have haligned := ha.aligned
      have hout (i : Nat) (hi : i < 32) : x + i < a ∨ a + 32 ≤ x + i := by omega
      rw [Function.update_of_ne hxa, ← hs.words x hx,
        State.readWord_congr fun i hi => State.readByte_writeWord_outside s a v _ (hout i hi)]

/-- The words after a value of one word is stored. -/
theorem SeqAt.writeWide_w256 (hs : SeqAt s₀ ω s) {a v : Nat} (ha : WordWr s₀.cfg a) (hv : v < W) :
    SeqAt s₀ (Function.update ω a v) (s.writeWide .w256 a v) := by
  have hword := hs.writeWord ha (BitVec.ofNat 256 v)
  rwa [BitVec.toNat_ofNat, Nat.mod_eq_of_lt hv] at hword

/-- The words after a value of two words is stored. -/
theorem SeqAt.writeWide_w512 (hs : SeqAt s₀ ω s) {a v : Nat} (ha : WordWr s₀.cfg a) (ha' : WordWr s₀.cfg (a + 32))
    (hv : v < W * W) :
    SeqAt s₀ (Function.update (Function.update ω a (v % W)) (a + 32) (v / W)) (s.writeWide .w512 a v) := by
  have hword := (hs.writeWord ha (BitVec.ofNat 256 v)).writeWord ha' (BitVec.ofNat 256 (v / W))
  rwa [BitVec.toNat_ofNat, BitVec.toNat_ofNat, Nat.mod_eq_of_lt (Nat.div_lt_of_lt_mul hv)] at hword

end

end Sys2Proof.Machine
end

section
/-! PROOFS. The reference sequences of the 256-bit additions and comparisons (spec/42_modular_256.md rules R141 to R151) carry
out the operations. -/

namespace Sys2Proof.Machine

/-! ### Reading words after calls -/

section
variable {c : Config} {x i j v : Nat} {ω : Nat → Nat}

theorem OffScratch.update (h : OffScratch c x) (hi : i < 12) : Function.update ω (c.scratchWord i) v x = ω x :=
  Function.update_of_ne (h i hi) _ _

theorem OffScratch.update_scratch (h : OffScratch c x) (hi : i < 12) :
    Function.update ω x v (c.scratchWord i) = ω (c.scratchWord i) :=
  Function.update_of_ne (h i hi).symm _ _

theorem update_scratch_ne (hij : j ≠ i) :
    Function.update ω (c.scratchWord i) v (c.scratchWord j) = ω (c.scratchWord j) :=
  Function.update_of_ne (mt scratchWord_inj.1 hij) _ _

end

theorem pLoAddr_eq (d : Descriptor) : d.pLoAddr = constAddr d 2 := rfl
theorem zeroAddr_eq (d : Descriptor) : d.zeroAddr = constAddr d 1 := rfl
theorem oneAddr_eq (d : Descriptor) : d.oneAddr = constAddr d 0 := rfl

/-! ### What a sequence leaves -/

/-- The value of an operand, in words. -/
def wideOf (ω : Nat → Nat) : Width → Nat → Nat
  | .w256, a => ω a
  | .w512, a => ω a + W * ω (a + 32)

/-- A sequence that came from the words `ω` has left the value `v` at `dst`, and every word outside it and outside the scratch
space as it was. -/
def Leaves (s₀ : State) (ω : Nat → Nat) (w : Width) (dst v : Nat) (t : State) : Prop :=
  ∃ ω', SeqAt s₀ ω' t ∧ (∀ x, OffScratch s₀.cfg x → ¬ IsWordOf w dst x → ω' x = ω x) ∧ wideOf ω' w dst = v

section
variable {s₀ s t u : State} {ω ω' : Nat → Nat} {w : Width} {ops : List Operand} {dst v a : Nat}

theorem SeqAt.readWide (hs : SeqAt s₀ ω s) (ha : a % 32 = 0) : s.readWide w a = wideOf ω w a := by
  cases w with
  | w256 => exact hs.readWide_w256 ha
  | w512 => exact hs.readWide_w512 ha

/-- The value of an operand that passed the checks, in words. -/
theorem OpLegal.readWide_eq (hl : OpLegal s true ops) {wr : Bool} (hmem : (⟨a, w.bytes, wr⟩ : Operand) ∈ ops) :
    s.readWide w a = wideOf s.words w a := (seqAt_words s).readWide (hl.aligned _ hmem)

theorem SeqAt.lt (hs : SeqAt s₀ ω s) (ha : a % 32 = 0) : ω a < W := by
  rw [← hs.words a ha]
  exact BitVec.isLt _

/-- What a sequence did before, in the scratch space and at `dst`, does not matter to what it leaves. -/
theorem Leaves.of_frame {ω₀ : Nat → Nat} (h : Leaves s₀ ω w dst v t)
    (hframe : ∀ x, OffScratch s₀.cfg x → ¬ IsWordOf w dst x → ω x = ω₀ x) : Leaves s₀ ω₀ w dst v t := by
  obtain ⟨ω', ht, hrest, hv⟩ := h
  exact ⟨ω', ht, fun x hx hxd => (hrest x hx hxd).trans (hframe x hx hxd), hv⟩

/-- A sequence agrees with the operation if it leaves the same value. -/
theorem Leaves.ends (h : Leaves s s.words w dst v u) (hc : s.cfg.ok = true) (hl : OpLegal s true ops)
    (hmem : mutOperand w dst ∈ ops) :
    Ends (endSeq u) (Agrees ((s.beginOp.writeWide w dst v).completeOp .none)) := by
  obtain ⟨ω', hu, hrest, rfl⟩ := h
  have hdst := hl.wordWr hmem (.inl rfl)
  refine ⟨_, rfl, ?_⟩
  cases w with
  | w256 =>
    refine SeqAt.agrees hc ((seqAt_beginOp s).writeWide_w256 hdst (hu.lt hdst.aligned)) hu .none fun x hx => ?_
    by_cases hxd : x = dst
    · rw [hxd, Function.update_self]
    · rw [Function.update_of_ne hxd, hrest x hx (by simp [IsWordOf, hxd])]
  | w512 =>
    have hhi := hl.wordWr hmem (.inr ⟨rfl, rfl⟩)
    have hlo := hu.lt hdst.aligned
    have hlt := hu.lt hhi.aligned
    have hv : wideOf ω' .w512 dst < W * W := by rw [wideOf]; simp only [W] at *; omega
    have hmod : wideOf ω' .w512 dst % W = ω' dst := by rw [wideOf, Nat.add_mul_mod_self_left, Nat.mod_eq_of_lt hlo]
    have hdiv : wideOf ω' .w512 dst / W = ω' (dst + 32) := by
      rw [wideOf, Nat.add_mul_div_left _ _ (by simp), Nat.div_eq_of_lt hlo, Nat.zero_add]
    refine SeqAt.agrees hc ((seqAt_beginOp s).writeWide_w512 hdst hhi hv) hu .none fun x hx => ?_
    by_cases hxh : x = dst + 32
    · rw [hxh, Function.update_self, hdiv]
    · by_cases hxd : x = dst
      · rw [hxd, Function.update_of_ne (by omega), Function.update_self, hmod]
      · rw [Function.update_of_ne hxh, Function.update_of_ne hxd, hrest x hx (by simp [IsWordOf, hxd, hxh])]

/-- A sequence that leaves every word outside the scratch space and returns the bit of the operation agrees with it. -/
theorem SeqAt.ends_bit (hu : SeqAt s ω' u) (hc : s.cfg.ok = true) (h : ∀ x, OffScratch s.cfg x → ω' x = s.words x)
    {b b' : Bool} (hb : b = b') : Ends (endSeqBit b u) (Agrees (s.beginOp.completeOp (.bit b'))) := by
  subst hb
  exact ⟨_, rfl, SeqAt.agrees hc (seqAt_beginOp s) hu _ h⟩

end

/-! ### Sequences of macro-operations -/

section
variable {w : Width} {k : Option RedKind} {f dst src a b : Nat}

theorem seqField_of_binds {s : State} {d : Descriptor} {o : Option Width} (hc : s.cfg.ok = true) (hb : Binds s.cfg f o k d) :
    SeqField s d := ⟨hc, List.mem_of_getElem? hb.found⟩

/-- The sequence of a two-operand operation carries it out if its body leaves the result. -/
theorem carriesOut_modBinary {rng : Descriptor → Nat → Nat → Bool} {res : Descriptor → Nat → Nat → Nat}
    {ref : State → Out} {body : Descriptor → State → Out}
    (href : ∀ s, ref s = moduleOp w k f [mutOperand w dst, readOperand w src] s body)
    (h : ∀ (s : State) (d : Descriptor) (Q : State → Prop), SeqField s d → Binds s.cfg f (some w) k d →
      OpLegal s true [mutOperand w dst, readOperand w src] → rng d (wideOf s.words w dst) (wideOf s.words w src) = true →
      (∀ u, Leaves s s.words w dst (res d (wideOf s.words w dst) (wideOf s.words w src)) u → Ends (endSeq u) Q) →
      Ends (body d s.beginOp) Q) :
    CarriesOut ref (modBinary w k rng res f dst src) := by
  intro s t hc hexec
  obtain ⟨d, hb, hl, hr, rfl⟩ := modBinary_next hexec
  have hdst := hl.readWide_eq (wr := true) List.mem_cons_self
  have hsrc := hl.readWide_eq (wr := false) (List.mem_cons_of_mem _ List.mem_cons_self)
  rw [hdst, hsrc] at hr ⊢
  rw [href, moduleOp_of_legal body hb hl]
  exact h s d _ (seqField_of_binds hc hb) hb hl hr fun u hu => hu.ends hc hl List.mem_cons_self

/-- The sequence of a one-operand operation carries it out if its body leaves the result. -/
theorem carriesOut_modUnary {rng : Descriptor → Nat → Bool} {res : Descriptor → Nat → Nat}
    {ref : State → Out} {body : Descriptor → State → Out}
    (href : ∀ s, ref s = moduleOp w k f [mutOperand w dst] s body)
    (h : ∀ (s : State) (d : Descriptor) (Q : State → Prop), SeqField s d → Binds s.cfg f (some w) k d →
      OpLegal s true [mutOperand w dst] → rng d (wideOf s.words w dst) = true →
      (∀ u, Leaves s s.words w dst (res d (wideOf s.words w dst)) u → Ends (endSeq u) Q) →
      Ends (body d s.beginOp) Q) :
    CarriesOut ref (modUnary w k rng res f dst) := by
  intro s t hc hexec
  obtain ⟨d, hb, hl, hr, rfl⟩ := modUnary_next hexec
  have hdst := hl.readWide_eq (wr := true) List.mem_cons_self
  rw [hdst] at hr ⊢
  rw [href, moduleOp_of_legal body hb hl]
  exact h s d _ (seqField_of_binds hc hb) hb hl hr fun u hu => hu.ends hc hl List.mem_cons_self

/-- The sequence of a comparison carries it out if its body ends with the bit and the words as they were. -/
theorem carriesOut_modCompare {test : Nat → Nat → Bool} {ref : State → Out} {body : Descriptor → State → Out}
    (href : ∀ s, ref s = moduleOp w none f [readOperand w a, readOperand w b] s body)
    (h : ∀ (s : State) (d : Descriptor) (Q : State → Prop), SeqField s d → Binds s.cfg f (some w) none d →
      OpLegal s true [readOperand w a, readOperand w b] →
      (∀ u ω', SeqAt s ω' u → (∀ x, OffScratch s.cfg x → ω' x = s.words x) →
        Ends (endSeqBit (test (wideOf s.words w a) (wideOf s.words w b)) u) Q) →
      Ends (body d s.beginOp) Q) :
    CarriesOut ref (modCompare w test f a b) := by
  intro s t hc hexec
  obtain ⟨d, hb, hl, rfl⟩ := modCompare_next hexec
  have ha := hl.readWide_eq (wr := false) List.mem_cons_self
  have hb' := hl.readWide_eq (wr := false) (List.mem_cons_of_mem _ List.mem_cons_self)
  rw [ha, hb', href, moduleOp_of_legal body hb hl]
  exact h s d _ (seqField_of_binds hc hb) hb hl fun u ω' hu hω => hu.ends_bit hc hω rfl

/-- The sequence of a test carries it out if its body ends with the bit and the words as they were. -/
theorem carriesOut_modTest {test : Descriptor → Nat → Bool} {ref : State → Out} {body : Descriptor → State → Out}
    (href : ∀ s, ref s = moduleOp w none f [readOperand w a] s body)
    (h : ∀ (s : State) (d : Descriptor) (Q : State → Prop), SeqField s d → Binds s.cfg f (some w) none d →
      OpLegal s true [readOperand w a] →
      (∀ u ω', SeqAt s ω' u → (∀ x, OffScratch s.cfg x → ω' x = s.words x) →
        Ends (endSeqBit (test d (wideOf s.words w a)) u) Q) →
      Ends (body d s.beginOp) Q) :
    CarriesOut ref (modTest w test f a) := by
  intro s t hc hexec
  obtain ⟨d, hb, hl, rfl⟩ := modTest_next hexec
  rw [hl.readWide_eq (wr := false) List.mem_cons_self, href, moduleOp_of_legal body hb hl]
  exact h s d _ (seqField_of_binds hc hb) hb hl fun u ω' hu hω => hu.ends_bit hc hω rfl

end

/-! ### The conditional subtraction of the modulus -/

section
variable {s₀ s : State} {ω : Nat → Nat} {d : Descriptor} {dst a b : Nat} {Q : State → Prop}

/-- The modulus of a one-word field is the word `P_LO`. -/
theorem SeqAt.pLo (hs : SeqAt s₀ ω s) (hF : SeqField s₀ d) (hp : d.modulus < W) : ω (constAddr d 2) = d.modulus :=
  (hs.const hF (by decide)).trans (Nat.mod_eq_of_lt hp)

/-- The borrow of a subtraction of the modulus and the carry of the value before decide whether the difference is taken. -/
theorem correctOnce_eq_ite {R A v : Nat} {force bw : Bool} (hp : d.modulus < R) (hv : v < R)
    (hlt : A + R * force.toNat < 2 * d.modulus) (hsub : v + d.modulus = A + R * bw.toNat) :
    correctOnce d (A + R * force.toNat) = if force || !bw then v else A := by
  unfold correctOnce
  cases force with
  | true =>
    rw [Bool.toNat_true, Nat.mul_one] at hlt ⊢
    rw [if_pos (by omega), Bool.true_or, if_pos rfl]
    cases bw with
    | true => rw [Bool.toNat_true] at hsub; omega
    | false => rw [Bool.toNat_false] at hsub; omega
  | false =>
    rw [Bool.toNat_false, Nat.mul_zero, Nat.add_zero]
    cases bw with
    | true =>
      rw [Bool.toNat_true] at hsub
      rw [if_neg (by omega)]
      rfl
    | false =>
      rw [Bool.toNat_false] at hsub
      rw [if_pos (by omega), Bool.not_false, Bool.or_true, if_pos rfl]
      omega

/-- A copy with no carry-in keeps the word. -/
theorem eq_of_copy {A B v : Nat} {f : Bool} (hB : B < W) (h : PrimSpec (.waluMemCpy false) A B v f) : v = B := by
  have h : v + W * f.toNat = B + 0 := h
  cases f with
  | true => rw [Bool.toNat_true] at h; omega
  | false => rw [Bool.toNat_false] at h; omega

/-- `CSUBP` corrects a value of one word and a carry (rule R141). -/
theorem csubp_ends {force : Bool} {k : State → Out} (hF : SeqField s₀ d) (hp : d.modulus < W) (hs : SeqAt s₀ ω s)
    (hdst : WordWr s₀.cfg dst) (hoff : OffScratch s₀.cfg dst) (hlt : ω dst + W * force.toNat < 2 * d.modulus)
    (hk : ∀ u, Leaves s₀ ω .w256 dst (correctOnce d (ω dst + W * force.toNat)) u → Ends (k u) Q) :
    Ends (csubp d dst force s k) Q := by
  have h0 := hF.scratch (i := 0) (by decide)
  have hdlt := hs.lt hdst.aligned
  rw [csubp, hs.sw]
  refine issue_ends rfl hs h0 hdst.rd (hoff 0 (by decide)).symm fun s₁ v₁ _ hs₁ _ h₁ => ?_
  obtain rfl : v₁ = ω dst := eq_of_copy hdlt h₁
  rw [hs₁.sw, pLoAddr_eq]
  refine issue_ends rfl hs₁ h0 (hF.const (by decide)) (hF.ne_const (by decide) h0) fun s₂ v₂ bw hs₂ hv₂ h₂ => ?_
  rw [hs₁.pLo hF hp, Function.update_self] at h₂
  have hcorrect := correctOnce_eq_ite hp hv₂ hlt h₂
  split
  next htake =>
    rw [hs₂.sw]
    refine issue_ends rfl hs₂ hdst h0.rd (hoff 0 (by decide)) fun s₃ v₃ _ hs₃ _ h₃ => ?_
    rw [if_pos htake] at hcorrect
    refine hk s₃ ⟨_, hs₃, fun x hx hxd => ?_, ?_⟩
    · rw [Function.update_of_ne fun h => hxd (.inl h), hx.update (by decide), hx.update (by decide)]
    · rw [wideOf, Function.update_self, hcorrect]
      rw [Function.update_self] at h₃
      exact eq_of_copy hv₂ h₃
  next hkeep =>
    rw [if_neg hkeep] at hcorrect
    refine hk s₂ ⟨_, hs₂, fun x hx _ => ?_, ?_⟩
    · rw [hx.update (by decide), hx.update (by decide)]
    · rw [wideOf, hcorrect, hoff.update (by decide), hoff.update (by decide)]

end

/-! ### The 256-bit additions -/

section
variable {f dst src : Nat}

/-- The words of a destination and a source that passed the checks. -/
structure PairWords (s : State) (dst src : Nat) : Prop where
  dstWr : WordWr s.cfg dst
  dstOff : OffScratch s.cfg dst
  srcRd : WordRd s.cfg src
  srcOff : OffScratch s.cfg src
  ne : dst ≠ src

theorem OpLegal.pairWords {s : State} (hl : OpLegal s true [mutOperand .w256 dst, readOperand .w256 src]) :
    PairWords s dst src where
  dstWr := hl.wordWr List.mem_cons_self (.inl rfl)
  dstOff := hl.offScratch (w := .w256) (wr := true) List.mem_cons_self (.inl rfl)
  srcRd := hl.wordRd (List.mem_cons_of_mem _ List.mem_cons_self) (.inl rfl)
  srcOff := hl.offScratch (w := .w256) (wr := false) (List.mem_cons_of_mem _ List.mem_cons_self) (.inl rfl)
  ne := by
    have hdisj := hl.disjoint_pair
    simp only [Width.bytes] at hdisj
    omega

theorem ne_of_not_isWordOf {w : Width} {x : Nat} (h : ¬ IsWordOf w dst x) : x ≠ dst := fun heq => h (.inl heq)

theorem refAddMod_carriesOut : CarriesOut (refAddMod f dst src) (exec (.addMod f dst src)) := by
  refine carriesOut_modBinary (body := _) (fun _ => rfl) fun s d Q hF hb hl hr hk => ?_
  obtain ⟨hdst, hoff, hsrc, -, hne⟩ := hl.pairWords
  have hr : s.words dst + s.words src < 2 * d.modulus := of_decide_eq_true hr
  refine issue_ends rfl (seqAt_beginOp s) hdst hsrc hne fun s₁ v c hs₁ _ h₁ => ?_
  have h₁ : v + W * c.toNat = s.words dst + s.words src + 0 := h₁
  have hsum : Function.update s.words dst v dst + W * c.toNat = s.words dst + s.words src := by
    rw [Function.update_self, h₁, Nat.add_zero]
  have hp : d.modulus < W := hb.modulus_lt
  refine csubp_ends hF hp hs₁ hdst hoff (hsum.trans_lt hr) fun u hu => hk u ?_
  have hresult : correctOnce d (s.words dst + s.words src) = addResult d (s.words dst) (s.words src) := by
    rw [addResult, ← correctOnce_mod, Nat.mod_eq_of_lt (correctOnce_lt hr)]
  rw [hsum, hresult] at hu
  exact hu.of_frame fun x _ hx => Function.update_of_ne (ne_of_not_isWordOf hx) _ _

/-- The difference modulo `p`, from the borrow and, after a borrow, the sum with `p`. -/
theorem eq_subResult_of_no_borrow {R A B v : Nat} {d : Descriptor} (h : v + B = A + R * false.toNat) :
    v = subResult d A B := by
  rw [Bool.toNat_false] at h
  rw [subResult, if_pos (by omega)]
  omega

theorem eq_subResult_of_borrow {R A B v u : Nat} {d : Descriptor} {c : Bool} (hv : v < R) (hu : u < R) (hB : B < d.modulus)
    (h : v + B = A + R * true.toNat) (h' : u + R * c.toNat = v + d.modulus) : u = subResult d A B := by
  rw [Bool.toNat_true] at h
  rw [subResult, if_neg (by omega)]
  cases c with
  | true => rw [Bool.toNat_true] at h'; omega
  | false => rw [Bool.toNat_false] at h'; omega

theorem refSubMod_carriesOut : CarriesOut (refSubMod f dst src) (exec (.subMod f dst src)) := by
  refine carriesOut_modBinary (body := _) (fun _ => rfl) fun s d Q hF hb hl hr hk => ?_
  obtain ⟨hdst, hoff, hsrc, -, hne⟩ := hl.pairWords
  obtain ⟨-, hB⟩ : s.words dst < d.modulus ∧ s.words src < d.modulus := of_decide_eq_true hr
  have hp : d.modulus < W := hb.modulus_lt
  refine issue_ends rfl (seqAt_beginOp s) hdst hsrc hne fun s₁ v₁ bw hs₁ hv₁ h₁ => ?_
  have h₁ : v₁ + s.words src + 0 = s.words dst + W * bw.toNat := h₁
  cases bw with
  | true =>
    rw [if_pos rfl, pLoAddr_eq]
    refine issue_ends rfl hs₁ hdst (hF.const (by decide)) (hF.ne_const (by decide) hdst) fun s₂ v₂ c hs₂ hv₂ h₂ => ?_
    rw [hs₁.pLo hF hp, Function.update_self] at h₂
    have h₂ : v₂ + W * c.toNat = v₁ + d.modulus + 0 := h₂
    refine hk s₂ ⟨_, hs₂, fun x _ hx => ?_, ?_⟩
    · rw [Function.update_of_ne (ne_of_not_isWordOf hx), Function.update_of_ne (ne_of_not_isWordOf hx)]
    · change Function.update (Function.update s.words dst v₁) dst v₂ dst = subResult d (s.words dst) (s.words src)
      rw [Function.update_self]
      exact eq_subResult_of_borrow hv₁ hv₂ hB h₁ h₂
  | false =>
    rw [if_neg Bool.false_ne_true]
    refine hk s₁ ⟨_, hs₁, fun x _ hx => Function.update_of_ne (ne_of_not_isWordOf hx) _ _, ?_⟩
    change Function.update s.words dst v₁ dst = subResult d (s.words dst) (s.words src)
    rw [Function.update_self]
    exact eq_subResult_of_no_borrow h₁

theorem refDoubleMod_carriesOut : CarriesOut (refDoubleMod f dst) (exec (.doubleMod f dst)) := by
  refine carriesOut_modUnary (body := _) (fun _ => rfl) fun s d Q hF hb hl hr hk => ?_
  have hdst := hl.wordWr List.mem_cons_self (.inl rfl)
  have hoff := hl.offScratch (w := .w256) (wr := true) List.mem_cons_self (.inl rfl)
  have hA : s.words dst < d.modulus := of_decide_eq_true hr
  have h1 := hF.scratch (i := 1) (by decide)
  have hs := seqAt_beginOp s
  rw [hs.sw]
  refine issue_ends rfl hs h1 hdst.rd (hoff 1 (by decide)).symm fun s₁ v₁ _ hs₁ _ h₁ => ?_
  obtain rfl : v₁ = s.words dst := eq_of_copy (hs.lt hdst.aligned) h₁
  rw [hs₁.sw]
  refine issue_ends rfl hs₁ hdst h1.rd (hoff 1 (by decide)) fun s₂ v₂ c hs₂ _ h₂ => ?_
  rw [hoff.update (by decide), Function.update_self] at h₂
  have h₂ : v₂ + W * c.toNat = s.words dst + s.words dst + 0 := h₂
  have hsum : Function.update (Function.update s.words (s.cfg.scratchWord 1) (s.words dst)) dst v₂ dst + W * c.toNat =
      2 * s.words dst := by
    rw [Function.update_self, h₂, Nat.add_zero, Nat.two_mul]
  have hp : d.modulus < W := hb.modulus_lt
  refine csubp_ends hF hp hs₂ hdst hoff (hsum.trans_lt (by omega)) fun u hu => hk u ?_
  have hresult : correctOnce d (2 * s.words dst) = doubleResult d (s.words dst) := by
    rw [doubleResult, ← correctOnce_mod, Nat.mod_eq_of_lt (correctOnce_lt (by omega))]
  rw [hsum, hresult] at hu
  refine hu.of_frame fun x hx hxd => ?_
  rw [Function.update_of_ne (ne_of_not_isWordOf hxd), hx.update (by decide)]

end

/-! ### Comparison through the scratch space -/

section
variable {s₀ s : State} {ω : Nat → Nat} {d : Descriptor} {a b : Nat} {Q : State → Prop}

/-- The comparison of two words through a copy in `S0` (rules R148 to R151). -/
theorem eqThroughScratch_ends {k : State → Bool → Out} (hF : SeqField s₀ d) (hs : SeqAt s₀ ω s) (ha : WordRd s₀.cfg a)
    (haoff : OffScratch s₀.cfg a) (hb : WordRd s₀.cfg b) (hboff : OffScratch s₀.cfg b)
    (hk : ∀ u ω', SeqAt s₀ ω' u → (∀ x, OffScratch s₀.cfg x → ω' x = ω x) → Ends (k u (decide (ω a = ω b))) Q) :
    Ends (eqThroughScratch a b s k) Q := by
  have h0 := hF.scratch (i := 0) (by decide)
  rw [eqThroughScratch, hs.sw]
  refine issue_ends rfl hs h0 ha (haoff 0 (by decide)).symm fun s₁ v₁ _ hs₁ _ h₁ => ?_
  obtain rfl : v₁ = ω a := eq_of_copy (hs.lt ha.aligned) h₁
  rw [hs₁.sw]
  refine issue_ends rfl hs₁ h0 hb (hboff 0 (by decide)).symm fun s₂ v₂ e hs₂ _ h₂ => ?_
  rw [Function.update_self, hboff.update (by decide)] at h₂
  obtain rfl : e = decide (ω a = ω b) := h₂
  exact hk s₂ _ hs₂ fun x hx => by rw [hx.update (by decide), hx.update (by decide)]

end

section
variable {f dst : Nat}

theorem refNegateMod_carriesOut : CarriesOut (refNegateMod f dst) (exec (.negateMod f dst)) := by
  refine carriesOut_modUnary (body := _) (fun _ => rfl) fun s d Q hF hb hl hr hk => ?_
  have hdst := hl.wordWr List.mem_cons_self (.inl rfl)
  have hoff := hl.offScratch (w := .w256) (wr := true) List.mem_cons_self (.inl rfl)
  have hA : s.words dst ≤ d.modulus := of_decide_eq_true hr
  have hp : d.modulus < W := hb.modulus_lt
  have hs := seqAt_beginOp s
  have hpLo := hF.const (k := 2) (by decide)
  rw [pLoAddr_eq, zeroAddr_eq]
  refine issue_ends rfl hs hdst hpLo (hF.ne_const (by decide) hdst) fun s₁ v₁ bw hs₁ hv₁ h₁ => ?_
  rw [hs.pLo hF hp] at h₁
  have h₁ : v₁ = d.modulus - s.words dst := by
    have h₁ : v₁ + s.words dst + 0 = d.modulus + W * bw.toNat := h₁
    cases bw with
    | true => rw [Bool.toNat_true] at h₁; omega
    | false => rw [Bool.toNat_false] at h₁; omega
  refine eqThroughScratch_ends hF hs₁ hdst.rd hoff hpLo (hF.offScratch_const (by decide)) fun s₂ ω₂ hs₂ hω₂ => ?_
  rw [Function.update_self, hs₁.pLo hF hp]
  have hframe (x : Nat) (hx : OffScratch s.cfg x) (hxd : ¬ IsWordOf .w256 dst x) : ω₂ x = s.words x := by
    rw [hω₂ x hx, Function.update_of_ne (ne_of_not_isWordOf hxd)]
  by_cases heq : v₁ = d.modulus
  · rw [decide_eq_true heq, if_pos rfl]
    refine issue_ends rfl hs₂ hdst (hF.const (by decide)) (hF.ne_const (by decide) hdst) fun s₃ v₃ _ hs₃ hv₃ h₃ => ?_
    rw [hs₂.const hF (by decide)] at h₃
    obtain rfl : v₃ = 0 := eq_of_copy (by simp) h₃
    refine hk s₃ ⟨_, hs₃, fun x hx hxd => ?_, ?_⟩
    · rw [Function.update_of_ne (ne_of_not_isWordOf hxd), hframe x hx hxd]
    · change Function.update ω₂ dst 0 dst = negateResult d (s.words dst)
      have hodd := hb.modulus_odd
      rw [Function.update_self, negateResult, if_pos (by omega)]
  · rw [decide_eq_false heq, if_neg Bool.false_ne_true]
    refine hk s₂ ⟨ω₂, hs₂, hframe, ?_⟩
    change ω₂ dst = negateResult d (s.words dst)
    rw [hω₂ dst hoff, Function.update_self, negateResult]
    split <;> omega

end

/-! ### The 256-bit comparisons -/

/-- The borrow of a subtraction says which operand is the smaller. -/
theorem eq_decide_of_borrow {R A B v : Nat} {bw : Bool} (hv : v < R) (h : v + B = A + R * bw.toNat) : bw = decide (A < B) := by
  cases bw with
  | true => rw [Bool.toNat_true] at h; exact (decide_eq_true (by omega)).symm
  | false => rw [Bool.toNat_false] at h; exact (decide_eq_false (by omega)).symm

section
variable {s₀ s : State} {ω : Nat → Nat} {d : Descriptor} {a b : Nat} {Q : State → Prop}

/-- The borrow of `[a] - [b]`, through a copy in `S0` (rules R146 and R147). -/
theorem borrow_ends {k : State → Bool → Out} (hF : SeqField s₀ d) (hs : SeqAt s₀ ω s) (ha : WordRd s₀.cfg a)
    (haoff : OffScratch s₀.cfg a) (hb : WordRd s₀.cfg b) (hboff : OffScratch s₀.cfg b)
    (hk : ∀ u ω', SeqAt s₀ ω' u → (∀ x, OffScratch s₀.cfg x → ω' x = ω x) → Ends (k u (decide (ω a < ω b))) Q) :
    Ends (issue (.waluMemCpy false) (s.sw 0) a s fun s _ => issue (.waluSub false) (s.sw 0) b s k) Q := by
  have h0 := hF.scratch (i := 0) (by decide)
  rw [hs.sw]
  refine issue_ends rfl hs h0 ha (haoff 0 (by decide)).symm fun s₁ v₁ _ hs₁ _ h₁ => ?_
  obtain rfl : v₁ = ω a := eq_of_copy (hs.lt ha.aligned) h₁
  rw [hs₁.sw]
  refine issue_ends rfl hs₁ h0 hb (hboff 0 (by decide)).symm fun s₂ v₂ bw hs₂ hv₂ h₂ => ?_
  rw [Function.update_self, hboff.update (by decide)] at h₂
  obtain rfl := eq_decide_of_borrow hv₂ h₂
  exact hk s₂ _ hs₂ fun x hx => by rw [hx.update (by decide), hx.update (by decide)]

end

section
variable {f a b : Nat}

theorem OpLegal.word_read {s : State} {ops : List Operand} (hl : OpLegal s true ops) (hmem : readOperand .w256 a ∈ ops) :
    WordRd s.cfg a ∧ OffScratch s.cfg a :=
  ⟨hl.wordRd hmem (.inl rfl), hl.offScratch (w := .w256) (wr := false) hmem (.inl rfl)⟩

theorem refLt_carriesOut : CarriesOut (refLt f a b) (exec (.lt f a b)) := by
  refine carriesOut_modCompare (body := _) (fun _ => rfl) fun s d Q hF hb hl hk => ?_
  obtain ⟨ha, haoff⟩ := hl.word_read List.mem_cons_self
  obtain ⟨hb, hboff⟩ := hl.word_read (List.mem_cons_of_mem _ List.mem_cons_self)
  exact borrow_ends hF (seqAt_beginOp s) ha haoff hb hboff hk

theorem refLeq_carriesOut : CarriesOut (refLeq f a b) (exec (.leq f a b)) := by
  refine carriesOut_modCompare (body := _) (fun _ => rfl) fun s d Q hF hb hl hk => ?_
  obtain ⟨ha, haoff⟩ := hl.word_read List.mem_cons_self
  obtain ⟨hb, hboff⟩ := hl.word_read (List.mem_cons_of_mem _ List.mem_cons_self)
  refine borrow_ends hF (seqAt_beginOp s) hb hboff ha haoff fun u ω' hu hω => ?_
  have hbit : (!decide (s.words b < s.words a)) = leqTest (s.words a) (s.words b) := by
    rw [leqTest, ← decide_not, decide_eq_decide, Nat.not_lt]
  rw [hbit]
  exact hk u ω' hu hω

theorem refEq_carriesOut : CarriesOut (refEq f a b) (exec (.eq f a b)) := by
  refine carriesOut_modCompare (body := _) (fun _ => rfl) fun s d Q hF hb hl hk => ?_
  obtain ⟨ha, haoff⟩ := hl.word_read List.mem_cons_self
  obtain ⟨hb, hboff⟩ := hl.word_read (List.mem_cons_of_mem _ List.mem_cons_self)
  exact eqThroughScratch_ends hF (seqAt_beginOp s) ha haoff hb hboff hk

theorem refIsZero_carriesOut : CarriesOut (refIsZero f a) (exec (.isZero f a)) := by
  refine carriesOut_modTest (body := _) (fun _ => rfl) fun s d Q hF hb hl hk => ?_
  obtain ⟨ha, haoff⟩ := hl.word_read List.mem_cons_self
  have hs := seqAt_beginOp s
  rw [zeroAddr_eq]
  refine eqThroughScratch_ends hF hs ha haoff (hF.const (by decide)) (hF.offScratch_const (by decide)) fun u ω' hu hω => ?_
  rw [hs.const hF (by decide)]
  exact hk u ω' hu hω

theorem refIsOne_carriesOut : CarriesOut (refIsOne f a) (exec (.isOne f a)) := by
  refine carriesOut_modTest (body := _) (fun _ => rfl) fun s d Q hF hb hl hk => ?_
  obtain ⟨ha, haoff⟩ := hl.word_read List.mem_cons_self
  have hs := seqAt_beginOp s
  rw [oneAddr_eq]
  refine eqThroughScratch_ends hF hs ha haoff (hF.const (by decide)) (hF.offScratch_const (by decide)) fun u ω' hu hω => ?_
  rw [hs.const hF (by decide)]
  exact hk u ω' hu hω

theorem refIsZeroMod_carriesOut : CarriesOut (refIsZeroMod f a) (exec (.isZeroMod f a)) := by
  refine carriesOut_modTest (body := _) (fun _ => rfl) fun s d Q hF hb hl hk => ?_
  obtain ⟨ha, haoff⟩ := hl.word_read List.mem_cons_self
  have hs := seqAt_beginOp s
  have hp : d.modulus < W := hb.modulus_lt
  rw [zeroAddr_eq, pLoAddr_eq]
  refine eqThroughScratch_ends hF hs ha haoff (hF.const (by decide)) (hF.offScratch_const (by decide)) fun s₁ ω₁ hs₁ hω₁ => ?_
  rw [hs.const hF (by decide)]
  have hzero : d.constWord 1 = 0 := rfl
  by_cases hz : s.words a = 0
  · have hbit : zeroModTest d (wideOf s.words .w256 a) = true := decide_eq_true (.inl hz)
    rw [hbit] at hk
    rw [hzero, decide_eq_true hz, if_pos rfl]
    exact hk s₁ ω₁ hs₁ hω₁
  · rw [hzero, decide_eq_false hz, if_neg Bool.false_ne_true]
    refine eqThroughScratch_ends hF hs₁ ha haoff (hF.const (by decide)) (hF.offScratch_const (by decide))
      fun s₂ ω₂ hs₂ hω₂ => ?_
    have hbit : zeroModTest d (wideOf s.words .w256 a) = decide (s.words a = d.modulus) :=
      decide_eq_decide.2 (or_iff_right hz)
    rw [hbit] at hk
    rw [hω₁ a haoff, hs₁.pLo hF hp]
    exact hk s₂ ω₂ hs₂ fun x hx => (hω₂ x hx).trans (hω₁ x hx)

end

/-! ### The obligations -/

/-- Settles O55: each sequence leaves the result of its operation at `dst`; `CSUBP` is the correction of a sum below `2p`. -/
theorem sequencesCarryOutArithmetic : Obligations.SequencesCarryOutArithmetic := by
  unfold Obligations.SequencesCarryOutArithmetic
  exact fun f dst src => ⟨refAddMod_carriesOut, refSubMod_carriesOut, refDoubleMod_carriesOut, refNegateMod_carriesOut⟩

/-- Settles O56: each sequence ends with the bit of its operation, a borrow or an equality, and changes only scratch words. -/
theorem sequencesCarryOutComparisons : Obligations.SequencesCarryOutComparisons := by
  unfold Obligations.SequencesCarryOutComparisons
  exact fun f a b => ⟨refLt_carriesOut, refLeq_carriesOut, refEq_carriesOut, refIsZero_carriesOut, refIsOne_carriesOut,
    refIsZeroMod_carriesOut⟩

end Sys2Proof.Machine
end

section
/-! PROOFS. The reference sequences of 256-bit Montgomery and Barrett multiplication (spec/43_montgomery_256.md rules R161 to
R166, spec/44_barrett_256.md rules R176 and R178) carry out the operations. -/

namespace Sys2Proof.Machine

theorem nprimeAddr_eq (d : Descriptor) : d.nprimeAddr = constAddr d 4 := rfl
theorem negpAddr_eq (d : Descriptor) : d.negpAddr = constAddr d 5 := rfl
theorem r2Addr_eq (d : Descriptor) : d.r2Addr = constAddr d 6 := rfl

/-- Two different scratch words. -/
theorem scratchWord_ne {c : Config} {i j : Nat} (h : i ≠ j) : c.scratchWord i ≠ c.scratchWord j := mt scratchWord_inj.1 h

/-! ### The product of two words -/

section
variable {s₀ s : State} {ω : Nat → Nat} {d : Descriptor} {dst src : Nat} {k : State → Out} {Q : State → Prop}

/-- The first three calls of a multiplication leave the product of two words, its low word in `S0` and its high word at `dst`
(rules R161 and R176). They read `src` after they have written `S0`. -/
theorem product_ends (hF : SeqField s₀ d) (hs : SeqAt s₀ ω s) (hdst : WordWr s₀.cfg dst) (hoff : OffScratch s₀.cfg dst)
    (hsrc : WordRd s₀.cfg src) (hne : dst ≠ src) (hsrc0 : src ≠ s₀.cfg.scratchWord 0)
    (hk : ∀ u ω', SeqAt s₀ ω' u → (∀ x, OffScratch s₀.cfg x → x ≠ dst → ω' x = ω x) →
      ω' (s₀.cfg.scratchWord 0) = ω dst * ω src % W → ω' dst = ω dst * ω src / W → Ends (k u) Q) :
    Ends (issue (.waluMemCpy false) (s.sw 0) dst s fun s _ => issue (.waluMulLo false) (s.sw 0) src s fun s _ =>
      issue (.waluMulHi false) dst src s fun s _ => k s) Q := by
  have h0 := hF.scratch (i := 0) (by decide)
  rw [hs.sw]
  refine issue_ends rfl hs h0 hdst.rd (hoff 0 (by decide)).symm fun s₁ v₁ _ hs₁ _ e₁ => ?_
  obtain rfl : ω dst = v₁ := (eq_of_copy (hs.lt hdst.aligned) e₁).symm
  rw [hs₁.sw]
  refine issue_ends rfl hs₁ h0 hsrc hsrc0.symm fun s₂ lo _ hs₂ hlo e₂ => ?_
  simp only [Function.update_self, Function.update_of_ne hsrc0] at e₂
  refine issue_ends rfl hs₂ hdst hsrc hne fun s₃ hi _ hs₃ _ e₃ => ?_
  simp (disch := decide) only [hoff.update, Function.update_of_ne hsrc0] at e₃
  refine hk s₃ _ hs₃ (fun x hx hxd => ?_) ?_ ?_
  · simp (disch := decide) only [Function.update_of_ne hxd, hx.update]
  · simp (disch := decide) only [hoff.update_scratch, Function.update_self]
    exact e₂
  · rw [Function.update_self]
    exact e₃

end

/-! ### 256-bit Montgomery multiplication -/

/-- The two words and two carries of the sequence of rule R161 are `REDC` of the product. -/
theorem add_mul_toNat_eq_redc {d : Descriptor} {T lo hi : Nat} {c c' : Bool} (hlo : lo < W)
    (hadd : lo + W * c.toNat = T % W + redcMultiplier d T * d.modulus % W)
    (hadd' : hi + W * c'.toNat = T / W + redcMultiplier d T * d.modulus / W + c.toNat) :
    hi + W * c'.toNat = redc d T := by
  have hT := Nat.div_add_mod T W
  have hm := Nat.div_add_mod (redcMultiplier d T * d.modulus) W
  have hsum : T + redcMultiplier d T * d.modulus =
      W * (T / W + redcMultiplier d T * d.modulus / W + c.toNat) + lo := by
    rw [Nat.mul_add, Nat.mul_add]
    omega
  rw [redc, hsum, Nat.mul_add_div (by simp), Nat.div_eq_of_lt hlo, Nat.add_zero, hadd']

section
variable {s₀ s : State} {ω : Nat → Nat} {d : Descriptor} {dst src : Nat} {k : State → Out} {Q : State → Prop}

/-- The body of `mul_mont` leaves the Montgomery product (rule R161): the multiplier is in `S1` and `S2`, its product with the
modulus in `S2` and `S1`. -/
theorem mulMontBody_ends (hF : SeqField s₀ d) (hp : d.modulus < W) (hodd : d.modulus % 2 = 1) (hs : SeqAt s₀ ω s)
    (hdst : WordWr s₀.cfg dst) (hoff : OffScratch s₀.cfg dst) (hsrc : WordRd s₀.cfg src) (hne : dst ≠ src)
    (hsrc0 : src ≠ s₀.cfg.scratchWord 0) (hlt : ω dst * ω src < d.modulus * W)
    (hk : ∀ u, Leaves s₀ ω .w256 dst (montResult d (ω dst) (ω src)) u → Ends (k u) Q) :
    Ends (mulMontBody d dst src s k) Q := by
  have h0 := hF.scratch (i := 0) (by decide)
  have h1 := hF.scratch (i := 1) (by decide)
  have h2 := hF.scratch (i := 2) (by decide)
  have hpLo := hF.const (k := 2) (by decide)
  rw [mulMontBody, nprimeAddr_eq, pLoAddr_eq]
  refine product_ends hF hs hdst hoff hsrc hne hsrc0 fun s₃ ω₃ hs₃ hframe hlo hhi => ?_
  rw [hs₃.sw, hs₃.sw]
  refine issue_ends rfl hs₃ h1 h0.rd (scratchWord_ne (by decide)) fun s₄ v₄ _ hs₄ _ e₄ => ?_
  have hcopy := eq_of_copy (hs₃.lt h0.aligned) e₄
  rw [hs₄.sw]
  refine issue_ends rfl hs₄ h1 (hF.const (by decide)) (hF.ne_const (by decide) h1) fun s₅ m _ hs₅ hm e₅ => ?_
  rw [Function.update_self, hs₄.const hF (by decide), hcopy, hlo] at e₅
  replace e₅ : m = redcMultiplier d (ω dst * ω src) := e₅
  rw [hs₅.sw, hs₅.sw]
  refine issue_ends rfl hs₅ h2 h1.rd (scratchWord_ne (by decide)) fun s₆ v₆ _ hs₆ _ e₆ => ?_
  rw [Function.update_self] at e₆
  obtain rfl : m = v₆ := (eq_of_copy hm e₆).symm
  rw [hs₆.sw]
  refine issue_ends rfl hs₆ h2 hpLo (hF.ne_const (by decide) h2) fun s₇ mpLo _ hs₇ _ e₇ => ?_
  rw [Function.update_self, hs₆.pLo hF hp] at e₇
  replace e₇ : mpLo = m * d.modulus % W := e₇
  rw [hs₇.sw]
  refine issue_ends rfl hs₇ h1 hpLo (hF.ne_const (by decide) h1) fun s₈ mpHi _ hs₈ _ e₈ => ?_
  rw [hs₇.pLo hF hp] at e₈
  simp (disch := decide) only [update_scratch_ne, Function.update_self] at e₈
  replace e₈ : mpHi = m * d.modulus / W := e₈
  rw [hs₈.sw, hs₈.sw]
  refine issue_ends rfl hs₈ h0 h2.rd (scratchWord_ne (by decide)) fun s₉ v₉ c hs₉ hv₉ e₉ => ?_
  simp (disch := decide) only [update_scratch_ne, Function.update_self, hlo] at e₉
  replace e₉ : v₉ + W * c.toNat = ω dst * ω src % W + mpLo + 0 := e₉
  rw [hs₉.sw]
  refine issue_ends rfl hs₉ hdst h1.rd (hoff 1 (by decide)) fun s₁₀ v₁₀ c' hs₁₀ hv₁₀ e₁₀ => ?_
  simp (disch := decide) only [update_scratch_ne, hoff.update, Function.update_self, hhi] at e₁₀
  replace e₁₀ : v₁₀ + W * c'.toNat = ω dst * ω src / W + mpHi + c.toNat := e₁₀
  have hredc : v₁₀ + W * c'.toNat = redc d (ω dst * ω src) := by
    refine add_mul_toNat_eq_redc (c := c) hv₉ ?_ ?_
    · rw [e₉, e₇, e₅, Nat.add_zero]
    · rw [e₁₀, e₈, e₅]
  refine csubp_ends hF hp hs₁₀ hdst hoff ?_ fun u hu => hk u ?_
  · rw [Function.update_self, hredc]
    exact redc_lt_two_mul_modulus hodd hlt
  · rw [Function.update_self, hredc] at hu
    refine hu.of_frame fun x hx hxd => ?_
    simp (disch := decide) only [hx.update, Function.update_of_ne (ne_of_not_isWordOf hxd),
      hframe x hx (ne_of_not_isWordOf hxd)]

end

section
variable {s : State} {f dst src : Nat} {d : Descriptor} {k : Option RedKind}

/-- The destination of a legal operation, as a word. -/
theorem OpLegal.word_written {ops : List Operand} (hl : OpLegal s true ops) (hmem : mutOperand .w256 dst ∈ ops) :
    WordWr s.cfg dst ∧ OffScratch s.cfg dst :=
  ⟨hl.wordWr hmem (.inl rfl), hl.offScratch (w := .w256) (wr := true) hmem (.inl rfl)⟩

theorem refMulMont_carriesOut : CarriesOut (refMulMont f dst src) (exec (.mulMont f dst src)) := by
  refine carriesOut_modBinary (body := _) (fun _ => rfl) fun s d Q hF hb hl hr hk => ?_
  obtain ⟨hdst, hoff, hsrc, hsrcOff, hne⟩ := hl.pairWords
  rw [montRange_eq hb.width_eq] at hr
  exact mulMontBody_ends hF hb.modulus_lt hb.modulus_odd (seqAt_beginOp s) hdst hoff hsrc hne (hsrcOff 0 (by decide))
    (of_decide_eq_true hr) hk

/-- A sequence that first copies `dst` to `S3` and then multiplies by the copy leaves what it leaves from the start. -/
theorem Leaves.of_update_scratch {ω : Nat → Nat} {t : State} {i v x : Nat} {w : Width} (hi : i < 12)
    (h : Leaves s (Function.update ω (s.cfg.scratchWord i) x) w dst v t) : Leaves s ω w dst v t :=
  h.of_frame fun _ hx _ => hx.update hi

theorem refSquareMont_carriesOut : CarriesOut (refSquareMont f dst) (exec (.squareMont f dst)) := by
  refine carriesOut_modUnary (body := _) (fun _ => rfl) fun s d Q hF hb hl hr hk => ?_
  obtain ⟨hdst, hoff⟩ := hl.word_written List.mem_cons_self
  have h3 := hF.scratch (i := 3) (by decide)
  have hs := seqAt_beginOp s
  rw [montSquareRange, montRange_eq hb.width_eq] at hr
  rw [hs.sw]
  refine issue_ends rfl hs h3 hdst.rd (hoff 3 (by decide)).symm fun s₁ v₁ _ hs₁ _ e₁ => ?_
  obtain rfl : s.words dst = v₁ := (eq_of_copy (hs.lt hdst.aligned) e₁).symm
  rw [hs₁.sw]
  refine mulMontBody_ends hF hb.modulus_lt hb.modulus_odd hs₁ hdst hoff h3.rd (hoff 3 (by decide))
    (scratchWord_ne (by decide)) ?_ fun u hu => hk u ?_
  · rw [hoff.update (by decide), Function.update_self]
    exact of_decide_eq_true hr
  · rw [hoff.update (by decide), Function.update_self] at hu
    exact hu.of_update_scratch (by decide)

/-- `R2` makes the Montgomery form: its Montgomery product with `x` is `x * R mod p` (rule R165). -/
theorem montResult_r2 (hw : d.width = .w256) (hodd : d.modulus % 2 = 1) {x : Nat} (hx : x < d.modulus)
    (hp : d.modulus < W) : x * d.r2 < d.modulus * W ∧ montResult d x d.r2 = toRepresentationResult d x := by
  have hpos : 0 < d.modulus := by omega
  have hr2 : d.r2 < d.modulus := Nat.mod_lt _ hpos
  have hlt : x * d.r2 < d.modulus * W := Nat.mul_lt_mul'' hx (hr2.trans hp)
  refine ⟨hlt, eq_of_mul_W_mod_eq hodd (montResult_lt hodd hlt) (Nat.mod_lt _ hpos) ?_⟩
  rw [montResult_mul_W_mod hodd, Descriptor.r2, Nat.mul_mod_mod, toRepresentationResult, radix_eq_W hw, Nat.mod_mul_mod,
    Nat.mul_assoc]

theorem refToRepresentation_carriesOut : CarriesOut (refToRepresentation f dst) (exec (.toRepresentation f dst)) := by
  refine carriesOut_modUnary (body := _) (fun _ => rfl) fun s d Q hF hb hl hr hk => ?_
  obtain ⟨hdst, hoff⟩ := hl.word_written List.mem_cons_self
  have hp : d.modulus < W := hb.modulus_lt
  have hs := seqAt_beginOp s
  have hx : s.words dst < d.modulus := of_decide_eq_true hr
  obtain ⟨hlt, hres⟩ := montResult_r2 hb.width_eq hb.modulus_odd hx hp
  have hr2 : s.words (constAddr d 6) = d.r2 :=
    (hs.const hF (by decide)).trans (Nat.mod_eq_of_lt ((Nat.mod_lt _ hb.modulus_pos).trans hp))
  rw [r2Addr_eq]
  refine mulMontBody_ends hF hp hb.modulus_odd hs hdst hoff (hF.const (by decide)) (hF.ne_const (by decide) hdst)
    (hF.offScratch_const (by decide) 0 (by decide)) (by rwa [hr2]) fun u hu => hk u ?_
  rw [hr2, hres] at hu
  exact hu

theorem refToInteger_carriesOut : CarriesOut (refToInteger f dst) (exec (.toInteger f dst)) := by
  refine carriesOut_modUnary (body := _) (fun _ => rfl) fun s d Q hF hb hl hr hk => ?_
  obtain ⟨hdst, hoff⟩ := hl.word_written List.mem_cons_self
  have hs := seqAt_beginOp s
  have hone : s.words (constAddr d 0) = 1 := hs.const hF (by decide)
  have hlt : s.words dst * 1 < d.modulus * W := by
    rw [Nat.mul_one]
    exact (hs.lt hdst.aligned).trans_le (Nat.le_mul_of_pos_left W hb.modulus_pos)
  rw [oneAddr_eq]
  refine mulMontBody_ends hF hb.modulus_lt hb.modulus_odd hs hdst hoff (hF.const (by decide))
    (hF.ne_const (by decide) hdst) (hF.offScratch_const (by decide) 0 (by decide)) (by rwa [hone]) fun u hu => hk u ?_
  rw [hone] at hu
  exact hu

end

/-! ### 256-bit Barrett multiplication -/

section
variable {s₀ s : State} {ω : Nat → Nat} {d : Descriptor} {dst src : Nat} {k : State → Out} {Q : State → Prop}

/-- A fold of a value of two words is one of two words. -/
theorem foldOnce_lt {V : Nat} (hV : V < W * W) : foldOnce d V < W * W := by
  have hc : d.negp < W := Nat.mod_lt _ (by simp)
  have hhigh : V / W * d.negp ≤ (W - 1) * (W - 1) :=
    Nat.mul_le_mul (Nat.le_sub_one_of_lt (Nat.div_lt_of_lt_mul hV)) (Nat.le_sub_one_of_lt hc)
  have hlow : V % W < W := Nat.mod_lt _ (by simp)
  rw [foldOnce]
  simp only [W] at hhigh hlow ⊢
  omega

/-- One pass replaces the value of the words `S0` and `dst` by its fold (rule R176). -/
theorem barretPass_ends (hF : SeqField s₀ d) (hs : SeqAt s₀ ω s) (hdst : WordWr s₀.cfg dst) (hoff : OffScratch s₀.cfg dst)
    (hk : ∀ u ω', SeqAt s₀ ω' u → (∀ x, OffScratch s₀.cfg x → x ≠ dst → ω' x = ω x) →
      ω' (s₀.cfg.scratchWord 0) + W * ω' dst = foldOnce d (ω (s₀.cfg.scratchWord 0) + W * ω dst) → Ends (k u) Q) :
    Ends (barretPass d dst s k) Q := by
  have h0 := hF.scratch (i := 0) (by decide)
  have h1 := hF.scratch (i := 1) (by decide)
  have hnegp := hF.const (k := 5) (by decide)
  have hlo := hs.lt h0.aligned
  have hhi := hs.lt hdst.aligned
  rw [barretPass, hs.sw, negpAddr_eq]
  refine issue_ends rfl hs h1 hdst.rd (hoff 1 (by decide)).symm fun s₁ v₁ _ hs₁ _ e₁ => ?_
  obtain rfl : ω dst = v₁ := (eq_of_copy hhi e₁).symm
  rw [hs₁.sw]
  refine issue_ends rfl hs₁ h1 hnegp (hF.ne_const (by decide) h1) fun s₂ cLo _ hs₂ hcLo e₂ => ?_
  rw [Function.update_self, hs₁.const hF (by decide)] at e₂
  replace e₂ : cLo = ω dst * d.negp % W := e₂
  refine issue_ends rfl hs₂ hdst hnegp (hF.ne_const (by decide) hdst) fun s₃ cHi _ hs₃ _ e₃ => ?_
  rw [hs₂.const hF (by decide), hoff.update (by decide), hoff.update (by decide)] at e₃
  replace e₃ : cHi = ω dst * d.negp / W := e₃
  rw [hs₃.sw, hs₃.sw]
  refine issue_ends rfl hs₃ h0 h1.rd (scratchWord_ne (by decide)) fun s₄ lo c hs₄ hlo' e₄ => ?_
  simp (disch := decide) only [hoff.update_scratch, update_scratch_ne, Function.update_self] at e₄
  replace e₄ : lo + W * c.toNat = ω (s₀.cfg.scratchWord 0) + cLo + 0 := e₄
  rw [hs₄.sw]
  refine issue_ends rfl hs₄ h1 hdst.rd (hoff 1 (by decide)).symm fun s₅ hi c' hs₅ hhi' e₅ => ?_
  simp (disch := decide) only [hoff.update, Function.update_self] at e₅
  replace e₅ : hi + W * c'.toNat = cHi + c.toNat := e₅
  rw [hs₅.sw]
  refine issue_ends rfl hs₅ hdst h1.rd (hoff 1 (by decide)) fun s₆ v₆ _ hs₆ _ e₆ => ?_
  rw [Function.update_self] at e₆
  obtain rfl : hi = v₆ := (eq_of_copy hhi' e₆).symm
  refine hk s₆ _ hs₆ (fun x hx hxd => ?_) ?_
  · simp (disch := decide) only [Function.update_of_ne hxd, hx.update]
  · simp (disch := decide) only [hoff.update_scratch, update_scratch_ne, Function.update_self]
    have hfold : foldOnce d (ω (s₀.cfg.scratchWord 0) + W * ω dst) = ω dst * d.negp + ω (s₀.cfg.scratchWord 0) := by
      rw [foldOnce, Nat.add_mul_div_left _ _ (by simp), Nat.div_eq_of_lt hlo, Nat.zero_add, Nat.add_mul_mod_self_left,
        Nat.mod_eq_of_lt hlo]
    have hlt := foldOnce_lt (d := d) (V := ω (s₀.cfg.scratchWord 0) + W * ω dst) (by simp only [W] at *; omega)
    have hmul := Nat.div_add_mod (ω dst * d.negp) W
    rw [← e₂, ← e₃] at hmul
    rw [hfold] at hlt ⊢
    cases c' with
    | true =>
      rw [Bool.toNat_true] at e₅
      simp only [W] at *
      omega
    | false =>
      rw [Bool.toNat_false] at e₅
      simp only [W] at *
      omega

/-- What a value below twice the radix has above the radix is 0 or 1. -/
theorem add_mul_toNat_of_lt {R lo hi : Nat} (h : lo + R * hi < 2 * R) :
    lo + R * (!decide (hi = 0)).toNat = lo + R * hi := by
  have hhi : hi < 2 := Nat.lt_of_mul_lt_mul_left (a := R) (by omega)
  obtain rfl | rfl : hi = 0 ∨ hi = 1 := by omega
  · rfl
  · rfl

/-- The body of `mul_barret` leaves `BRED` of the product (rule R176), where two folds end below `2p` (rule R177). -/
theorem mulBarretBody_ends (hF : SeqField s₀ d) (hpos : 0 < d.modulus) (hp : d.modulus < W)
    (hle : d.negp * (d.negp + 1) ≤ W) (hs : SeqAt s₀ ω s)
    (hdst : WordWr s₀.cfg dst) (hoff : OffScratch s₀.cfg dst) (hsrc : WordRd s₀.cfg src) (hne : dst ≠ src)
    (hsrc0 : src ≠ s₀.cfg.scratchWord 0)
    (hk : ∀ u, Leaves s₀ ω .w256 dst (bred d (ω dst * ω src)) u → Ends (k u) Q) :
    Ends (mulBarretBody d dst src s k) Q := by
  have h0 := hF.scratch (i := 0) (by decide)
  have h1 := hF.scratch (i := 1) (by decide)
  have hT : ω dst * ω src < W * W := Nat.mul_lt_mul'' (hs.lt hdst.aligned) (hs.lt hsrc.aligned)
  rw [mulBarretBody, zeroAddr_eq]
  refine product_ends hF hs hdst hoff hsrc hne hsrc0 fun s₁ ω₁ hs₁ hframe₁ hlo hhi => ?_
  refine barretPass_ends hF hs₁ hdst hoff fun s₂ ω₂ hs₂ hframe₂ hV₁ => ?_
  refine barretPass_ends hF hs₂ hdst hoff fun s₃ ω₃ hs₃ hframe₃ hV₂ => ?_
  rw [hlo, hhi, Nat.mod_add_div] at hV₁
  rw [hV₁] at hV₂
  rw [hs₃.sw]
  refine issue_ends rfl hs₃ h1 hdst.rd (hoff 1 (by decide)).symm fun s₄ v₄ _ hs₄ _ e₄ => ?_
  obtain rfl : ω₃ dst = v₄ := (eq_of_copy (hs₃.lt hdst.aligned) e₄).symm
  rw [hs₄.sw]
  refine issue_ends rfl hs₄ h1 (hF.const (by decide)) (hF.ne_const (by decide) h1) fun s₅ v₅ e hs₅ _ e₅ => ?_
  rw [Function.update_self, hs₄.const hF (by decide)] at e₅
  obtain rfl : e = decide (ω₃ dst = 0) := e₅
  rw [hs₅.sw]
  refine issue_ends rfl hs₅ hdst h0.rd (hoff 0 (by decide)) fun s₆ v₆ _ hs₆ _ e₆ => ?_
  simp (disch := decide) only [update_scratch_ne] at e₆
  obtain rfl : ω₃ (s₀.cfg.scratchWord 0) = v₆ := (eq_of_copy (hs₃.lt h0.aligned) e₆).symm
  have hbound := foldOnce_foldOnce_add_le (d := d) hT
  have hc := negp_add_modulus hpos hp
  rw [Nat.mul_succ] at hle
  rw [← hV₂] at hbound
  have hforce := add_mul_toNat_of_lt (R := W) (lo := ω₃ (s₀.cfg.scratchWord 0)) (hi := ω₃ dst) (by omega)
  refine csubp_ends hF hp hs₆ hdst hoff ?_ fun u hu => hk u ?_
  · rw [Function.update_self, hforce]
    omega
  · rw [Function.update_self, hforce, hV₂] at hu
    refine hu.of_frame fun x hx hxd => ?_
    have hxd := ne_of_not_isWordOf hxd
    simp (disch := decide) only [Function.update_of_ne hxd, hx.update, hframe₃ x hx hxd, hframe₂ x hx hxd,
      hframe₁ x hx hxd]

end

section
variable {f dst src : Nat}

/-- The constraint of rule R177 on the descriptor a Barrett operation is bound to. -/
theorem Binds.negp_le {c : Config} {d : Descriptor} {w : Option Width} (hb : Binds c f w (some .barrett) d) :
    d.negp * (d.negp + 1) ≤ W := by
  obtain ⟨-, -, hkindOk, -⟩ := Descriptor.ok_iff.1 hb.ok
  have hkind : d.kind = .barrett := by simpa [eq_comm] using hb.kind
  exact (Descriptor.kindOk_iff.1 hkindOk hkind).2

theorem refMulBarret_carriesOut : CarriesOut (refMulBarret f dst src) (exec (.mulBarret f dst src)) := by
  refine carriesOut_modBinary (body := _) (fun _ => rfl) fun s d Q hF hb hl hr hk => ?_
  obtain ⟨hdst, hoff, hsrc, hsrcOff, hne⟩ := hl.pairWords
  exact mulBarretBody_ends hF hb.modulus_pos hb.modulus_lt hb.negp_le (seqAt_beginOp s) hdst hoff hsrc hne
    (hsrcOff 0 (by decide)) hk

theorem refSquareBarret_carriesOut : CarriesOut (refSquareBarret f dst) (exec (.squareBarret f dst)) := by
  refine carriesOut_modUnary (body := _) (fun _ => rfl) fun s d Q hF hb hl hr hk => ?_
  obtain ⟨hdst, hoff⟩ := hl.word_written List.mem_cons_self
  have h3 := hF.scratch (i := 3) (by decide)
  have hs := seqAt_beginOp s
  rw [hs.sw]
  refine issue_ends rfl hs h3 hdst.rd (hoff 3 (by decide)).symm fun s₁ v₁ _ hs₁ _ e₁ => ?_
  obtain rfl : s.words dst = v₁ := (eq_of_copy (hs.lt hdst.aligned) e₁).symm
  rw [hs₁.sw]
  refine mulBarretBody_ends hF hb.modulus_pos hb.modulus_lt hb.negp_le hs₁ hdst hoff h3.rd (hoff 3 (by decide))
    (scratchWord_ne (by decide)) fun u hu => hk u ?_
  rw [hoff.update (by decide), Function.update_self] at hu
  exact hu.of_update_scratch (by decide)

end

/-! ### The obligations -/

/-- Settles O57: the body of `mul_mont` computes `REDC` of the product and corrects it; the conversions are products with `R2`
and with 1. -/
theorem sequencesCarryOutMontgomery : Obligations.SequencesCarryOutMontgomery := by
  unfold Obligations.SequencesCarryOutMontgomery
  exact fun f dst src => ⟨refMulMont_carriesOut, refSquareMont_carriesOut, refToRepresentation_carriesOut,
    refToInteger_carriesOut⟩

/-- Settles O58: each pass is one fold, and two leave a value below `2p`, which `CSUBP` corrects. -/
theorem sequencesCarryOutBarrett : Obligations.SequencesCarryOutBarrett := by
  unfold Obligations.SequencesCarryOutBarrett
  exact fun f dst src => ⟨refMulBarret_carriesOut, refSquareBarret_carriesOut⟩

end Sys2Proof.Machine
end

section
/-! PROOFS. The reference sequences of the 512-bit additions and comparisons (spec/46_modular_512.md rules R202 to R212) carry
out the operations: pairs of calls on the two words of a value, the flag of the first passed to the second. -/

namespace Sys2Proof.Machine

theorem hiAddr_eq (a : Nat) : hiAddr a = a + 32 := rfl
theorem pHiAddr_eq (d : Descriptor) : d.pHiAddr = constAddr d 3 := rfl
theorem hiAddr_oneAddr_eq (d : Descriptor) : hiAddr d.oneAddr = constAddr d 1 := rfl

/-! ### Two words -/

/-- The two words of a value that a sequence may write. -/
structure WideWr (c : Config) (a : Nat) : Prop where
  lo : WordWr c a
  hi : WordWr c (a + 32)
  loOff : OffScratch c a
  hiOff : OffScratch c (a + 32)

/-- The two words of a value that a sequence may read. -/
structure WideRd (c : Config) (a : Nat) : Prop where
  lo : WordRd c a
  hi : WordRd c (a + 32)
  loOff : OffScratch c a
  hiOff : OffScratch c (a + 32)

theorem WideWr.rd {c : Config} {a : Nat} (h : WideWr c a) : WideRd c a := ⟨h.lo.rd, h.hi.rd, h.loOff, h.hiOff⟩

section
variable {s : State} {ops : List Operand} {dst src a : Nat}

theorem OpLegal.wideWr (hl : OpLegal s true ops) (hmem : mutOperand .w512 a ∈ ops) : WideWr s.cfg a where
  lo := hl.wordWr hmem (.inl rfl)
  hi := hl.wordWr hmem (.inr ⟨rfl, rfl⟩)
  loOff := hl.offScratch (w := .w512) (wr := true) hmem (.inl rfl)
  hiOff := hl.offScratch (w := .w512) (wr := true) hmem (.inr ⟨rfl, rfl⟩)

theorem OpLegal.wideRd (hl : OpLegal s true ops) (hmem : readOperand .w512 a ∈ ops) : WideRd s.cfg a where
  lo := hl.wordRd hmem (.inl rfl)
  hi := hl.wordRd hmem (.inr ⟨rfl, rfl⟩)
  loOff := hl.offScratch (w := .w512) (wr := false) hmem (.inl rfl)
  hiOff := hl.offScratch (w := .w512) (wr := false) hmem (.inr ⟨rfl, rfl⟩)

theorem OpLegal.disjoint_wide (hl : OpLegal s true [mutOperand .w512 dst, readOperand .w512 src]) :
    dst + 64 ≤ src ∨ src + 64 ≤ dst := hl.disjoint_pair

end

/-- Equal values have equal words. -/
theorem wide_eq_iff {A A' B B' : Nat} (hA : A < W) (hB : B < W) : A + W * A' = B + W * B' ↔ A = B ∧ A' = B' := by
  simp only [W] at *
  omega

/-- The words of a two-word modulus. -/
theorem SeqAt.modulus_words {s₀ s : State} {ω : Nat → Nat} {d : Descriptor} (hs : SeqAt s₀ ω s) (hF : SeqField s₀ d) :
    ω (constAddr d 2) + W * ω (constAddr d 3) = d.modulus := by
  rw [hs.const hF (by decide), hs.const hF (by decide)]
  exact Nat.mod_add_div d.modulus W

/-! ### Two calls -/

section
variable {s₀ s : State} {ω : Nat → Nat} {a a' b b' : Nat} {k k₁ : State → Bool → Out} {Q : State → Prop}

/-- Two calls of one primitive on two pairs of words, the flag of the first as the carry-in of the second (rule R201). -/
theorem chain_ends (mk : Bool → Instr) (hmk : ∀ c, isPrimitive (mk c) = true) (hs : SeqAt s₀ ω s) (ha : WordWr s₀.cfg a)
    (ha' : WordWr s₀.cfg a') (hb : WordRd s₀.cfg b) (hb' : WordRd s₀.cfg b') (hne : a ≠ b) (hne' : a' ≠ b') (haa : a' ≠ a)
    (hba : b' ≠ a) (hk₁ : ∀ t c, t.cfg = s₀.cfg → k₁ t c = issue (mk c) a' b' t k)
    (hk : ∀ u lo hi c f, SeqAt s₀ (Function.update (Function.update ω a lo) a' hi) u → lo < W → hi < W →
      PrimSpec (mk false) (ω a) (ω b) lo c → PrimSpec (mk c) (ω a') (ω b') hi f → Ends (k u f) Q) :
    Ends (issue (mk false) a b s k₁) Q := by
  refine issue_ends (hmk false) hs ha hb hne fun s₁ lo c hs₁ hlo e₁ => ?_
  rw [hk₁ s₁ c hs₁.cfg]
  refine issue_ends (hmk c) hs₁ ha' hb' hne' fun s₂ hi f hs₂ hhi e₂ => ?_
  rw [Function.update_of_ne haa, Function.update_of_ne hba] at e₂
  exact hk s₂ lo hi c f hs₂ hlo hhi e₁ e₂

/-- Two copies. -/
theorem copy_pair_ends (hs : SeqAt s₀ ω s) (ha : WordWr s₀.cfg a) (ha' : WordWr s₀.cfg a') (hb : WordRd s₀.cfg b)
    (hb' : WordRd s₀.cfg b') (hne : a ≠ b) (hne' : a' ≠ b') (hba : b' ≠ a)
    (hk₁ : ∀ t c, t.cfg = s₀.cfg → k₁ t c = issue (.waluMemCpy false) a' b' t k)
    (hk : ∀ u f, SeqAt s₀ (Function.update (Function.update ω a (ω b)) a' (ω b')) u → Ends (k u f) Q) :
    Ends (issue (.waluMemCpy false) a b s k₁) Q := by
  refine issue_ends rfl hs ha hb hne fun s₁ v₁ c hs₁ _ e₁ => ?_
  obtain rfl : ω b = v₁ := (eq_of_copy (hs.lt hb.aligned) e₁).symm
  rw [hk₁ s₁ c hs₁.cfg]
  refine issue_ends rfl hs₁ ha' hb' hne' fun s₂ v₂ f hs₂ _ e₂ => ?_
  rw [Function.update_of_ne hba] at e₂
  obtain rfl : ω b' = v₂ := (eq_of_copy (hs.lt hb'.aligned) e₂).symm
  exact hk s₂ f hs₂

end

section
variable {A A' B B' lo hi : Nat} {c f : Bool}

/-- Two chained sums are the sum of the two-word values (rule R108). -/
theorem add_chain (hlo : PrimSpec (.waluAdd false) A B lo c) (hhi : PrimSpec (.waluAdd c) A' B' hi f) :
    lo + W * hi + W * W * f.toNat = A + W * A' + (B + W * B') := by
  replace hlo : lo + W * c.toNat = A + B + 0 := hlo
  replace hhi : hi + W * f.toNat = A' + B' + c.toNat := hhi
  simp only [W] at *
  omega

/-- Two chained differences are the difference of the two-word values. -/
theorem sub_chain (hlo : PrimSpec (.waluSub false) A B lo c) (hhi : PrimSpec (.waluSub c) A' B' hi f) :
    lo + W * hi + (B + W * B') = A + W * A' + W * W * f.toNat := by
  replace hlo : lo + B + 0 = A + W * c.toNat := hlo
  replace hhi : hi + B' + c.toNat = A' + W * f.toNat := hhi
  simp only [W] at *
  omega

/-- `SubAndNegate` is the difference with the operands exchanged. -/
theorem subNeg_chain (hlo : PrimSpec (.waluSubNeg false) A B lo c) (hhi : PrimSpec (.waluSubNeg c) A' B' hi f) :
    lo + W * hi + (A + W * A') = B + W * B' + W * W * f.toNat := sub_chain hlo hhi

theorem wide_lt (hlo : lo < W) (hhi : hi < W) : lo + W * hi < W * W := by
  simp only [W] at *
  omega

end

/-! ### The conditional subtraction of a two-word modulus -/

section
variable {s₀ s : State} {ω : Nat → Nat} {d : Descriptor} {dst v lo hi : Nat} {Q : State → Prop}

theorem ne_add_32 (a : Nat) : a + 32 ≠ a := by omega

/-- A state whose words at the destination are `lo` and `hi`, and that has changed nothing else outside the scratch space. -/
theorem leaves_pair (hs : SeqAt s₀ (Function.update (Function.update ω dst lo) (dst + 32) hi) s) (hv : lo + W * hi = v) :
    Leaves s₀ ω .w512 dst v s := by
  refine ⟨_, hs, fun x _ hx => ?_, ?_⟩
  · rw [Function.update_of_ne fun h => hx (.inr ⟨rfl, h⟩), Function.update_of_ne fun h => hx (.inl h)]
  · rw [wideOf, Function.update_of_ne (ne_add_32 dst).symm, Function.update_self, Function.update_self, hv]

/-- `CSUBP512` corrects a value of two words and a carry (rule R202). -/
theorem csubp512_ends {force : Bool} {k : State → Out} (hF : SeqField s₀ d) (hp : d.modulus < W * W) (hs : SeqAt s₀ ω s)
    (hdst : WideWr s₀.cfg dst) (hlt : wideOf ω .w512 dst + W * W * force.toNat < 2 * d.modulus)
    (hk : ∀ u, Leaves s₀ ω .w512 dst (correctOnce d (wideOf ω .w512 dst + W * W * force.toNat)) u → Ends (k u) Q) :
    Ends (csubp512 d dst force s k) Q := by
  have h0 := hF.scratch (i := 0) (by decide)
  have h1 := hF.scratch (i := 1) (by decide)
  have hmodulus := hs.modulus_words hF
  rw [csubp512, hs.sw, pLoAddr_eq, pHiAddr_eq]
  refine copy_pair_ends hs h0 h1 hdst.lo.rd hdst.hi.rd (hdst.loOff 0 (by decide)).symm (hdst.hiOff 1 (by decide)).symm
    (hdst.hiOff 0 (by decide)) (fun t _ ht => by rw [State.sw, ht]; rfl) fun s₁ _ hs₁ => ?_
  rw [hs₁.sw]
  refine chain_ends .waluSub (fun _ => rfl) hs₁ h0 h1 (hF.const (k := 2) (by decide)) (hF.const (k := 3) (by decide))
    (hF.ne_const (by decide) h0) (hF.ne_const (by decide) h1) (scratchWord_ne (by decide))
    (hF.ne_const (by decide) h0).symm (fun t _ ht => by rw [State.sw, ht]) fun s₂ lo hi _ bw hs₂ hlo hhi e e' => ?_
  have hsub := sub_chain e e'
  rw [hs₁.modulus_words hF] at hsub
  simp (disch := decide) only [update_scratch_ne, Function.update_self] at hsub
  have hcorrect := correctOnce_eq_ite hp (wide_lt hlo hhi) hlt hsub
  split
  next htake =>
    rw [if_pos htake] at hcorrect
    rw [hs₂.sw]
    refine copy_pair_ends hs₂ hdst.lo hdst.hi h0.rd h1.rd (hdst.loOff 0 (by decide)) (hdst.hiOff 1 (by decide))
      (hdst.loOff 1 (by decide)).symm (fun t _ ht => by rw [State.sw, ht]; rfl) fun s₃ _ hs₃ => ?_
    simp (disch := decide) only [update_scratch_ne, Function.update_self] at hs₃
    refine hk s₃ ((leaves_pair hs₃ hcorrect.symm).of_frame fun x hx _ => ?_)
    simp (disch := decide) only [hx.update]
  next hkeep =>
    rw [if_neg hkeep] at hcorrect
    refine hk s₂ ⟨_, hs₂, fun x hx _ => ?_, ?_⟩
    · simp (disch := decide) only [hx.update]
    · rw [hcorrect]
      simp (disch := decide) only [wideOf, hdst.loOff.update, hdst.hiOff.update]

end

/-! ### The 512-bit additions -/

section
variable {f dst src : Nat}

theorem Binds.modulus_lt_wide {c : Config} {d : Descriptor} {k : Option RedKind} (hb : Binds c f (some .w512) k d) :
    d.modulus < W * W := two_pow_bits_w512 ▸ hb.modulus_lt

/-- What a sequence has changed at the two words of `dst` does not matter to what it leaves there. -/
theorem Leaves.of_update_pair {s₀ t : State} {ω : Nat → Nat} {lo hi v : Nat}
    (h : Leaves s₀ (Function.update (Function.update ω dst lo) (dst + 32) hi) .w512 dst v t) : Leaves s₀ ω .w512 dst v t :=
  h.of_frame fun x _ hx => by
    rw [Function.update_of_ne fun h => hx (.inr ⟨rfl, h⟩), Function.update_of_ne fun h => hx (.inl h)]

/-- The value of the two words just written. -/
theorem wideOf_update_pair {ω : Nat → Nat} {lo hi : Nat} :
    wideOf (Function.update (Function.update ω dst lo) (dst + 32) hi) .w512 dst = lo + W * hi := by
  rw [wideOf, Function.update_of_ne (ne_add_32 dst).symm, Function.update_self, Function.update_self]

theorem refAddMod512_carriesOut : CarriesOut (refAddMod512 f dst src) (exec (.addMod512 f dst src)) := by
  refine carriesOut_modBinary (body := _) (fun _ => rfl) fun s d Q hF hb hl hr hk => ?_
  have hdst := hl.wideWr List.mem_cons_self
  have hsrc := hl.wideRd (List.mem_cons_of_mem _ List.mem_cons_self)
  have hdisj := hl.disjoint_wide
  have hr : wideOf s.words .w512 dst + wideOf s.words .w512 src < 2 * d.modulus := of_decide_eq_true hr
  refine chain_ends .waluAdd (fun _ => rfl) (seqAt_beginOp s) hdst.lo hdst.hi hsrc.lo hsrc.hi (by omega) (by omega)
    (by omega) (by omega) (fun _ _ _ => rfl) fun s₁ lo hi _ c hs₁ _ _ e e' => ?_
  have hsum : wideOf (Function.update (Function.update s.words dst lo) (dst + 32) hi) .w512 dst + W * W * c.toNat =
      wideOf s.words .w512 dst + wideOf s.words .w512 src := by
    rw [wideOf_update_pair]
    exact add_chain e e'
  refine csubp512_ends hF hb.modulus_lt_wide hs₁ hdst (hsum.trans_lt hr) fun u hu => hk u ?_
  have hresult : correctOnce d (wideOf s.words .w512 dst + wideOf s.words .w512 src) =
      addResult d (wideOf s.words .w512 dst) (wideOf s.words .w512 src) := by
    rw [addResult, ← correctOnce_mod, Nat.mod_eq_of_lt (correctOnce_lt hr)]
  rw [hsum, hresult] at hu
  exact hu.of_update_pair

theorem refSubMod512_carriesOut : CarriesOut (refSubMod512 f dst src) (exec (.subMod512 f dst src)) := by
  refine carriesOut_modBinary (body := _) (fun _ => rfl) fun s d Q hF hb hl hr hk => ?_
  have hdst := hl.wideWr List.mem_cons_self
  have hsrc := hl.wideRd (List.mem_cons_of_mem _ List.mem_cons_self)
  have hdisj := hl.disjoint_wide
  obtain ⟨-, hB⟩ : wideOf s.words .w512 dst < d.modulus ∧ wideOf s.words .w512 src < d.modulus := of_decide_eq_true hr
  refine chain_ends .waluSub (fun _ => rfl) (seqAt_beginOp s) hdst.lo hdst.hi hsrc.lo hsrc.hi (by omega) (by omega)
    (by omega) (by omega) (fun _ _ _ => rfl) fun s₁ lo hi _ bw hs₁ hlo hhi e e' => ?_
  have hdiff : lo + W * hi + wideOf s.words .w512 src = wideOf s.words .w512 dst + W * W * bw.toNat := sub_chain e e'
  have hlt := wide_lt hlo hhi
  cases bw with
  | true =>
    rw [if_pos rfl, pLoAddr_eq]
    refine chain_ends .waluAdd (fun _ => rfl) hs₁ hdst.lo hdst.hi (hF.const (k := 2) (by decide))
      (hF.const (k := 3) (by decide)) (hF.ne_const (by decide) hdst.lo) (hF.ne_const (by decide) hdst.hi) (ne_add_32 dst)
      (hF.ne_const (by decide) hdst.lo).symm (fun _ _ _ => rfl) fun s₂ lo' hi' _ c hs₂ hlo' hhi' e e' => ?_
    have hsum := add_chain e e'
    rw [hs₁.modulus_words hF, Function.update_self, Function.update_of_ne (ne_add_32 dst).symm, Function.update_self] at hsum
    exact hk s₂ (leaves_pair hs₂ (eq_subResult_of_borrow hlt (wide_lt hlo' hhi') hB hdiff hsum)).of_update_pair
  | false =>
    rw [if_neg Bool.false_ne_true]
    exact hk s₁ (leaves_pair hs₁ (eq_subResult_of_no_borrow hdiff))

theorem refDoubleMod512_carriesOut : CarriesOut (refDoubleMod512 f dst) (exec (.doubleMod512 f dst)) := by
  refine carriesOut_modUnary (body := _) (fun _ => rfl) fun s d Q hF hb hl hr hk => ?_
  have hdst := hl.wideWr List.mem_cons_self
  have hA : wideOf s.words .w512 dst < d.modulus := of_decide_eq_true hr
  have h2 := hF.scratch (i := 2) (by decide)
  have h3 := hF.scratch (i := 3) (by decide)
  have hs := seqAt_beginOp s
  rw [hs.sw]
  refine copy_pair_ends hs h2 h3 hdst.lo.rd hdst.hi.rd (hdst.loOff 2 (by decide)).symm (hdst.hiOff 3 (by decide)).symm
    (hdst.hiOff 2 (by decide)) (fun t _ ht => by rw [State.sw, ht]; rfl) fun s₁ _ hs₁ => ?_
  rw [hs₁.sw]
  refine chain_ends .waluAdd (fun _ => rfl) hs₁ hdst.lo hdst.hi h2.rd h3.rd (hdst.loOff 2 (by decide))
    (hdst.hiOff 3 (by decide)) (ne_add_32 dst) (hdst.loOff 3 (by decide)).symm (fun t _ ht => by rw [State.sw, ht]; rfl)
    fun s₂ lo hi _ c hs₂ _ _ e e' => ?_
  have hsum := add_chain e e'
  simp (disch := decide) only [update_scratch_ne, hdst.loOff.update, hdst.hiOff.update, Function.update_self] at hsum
  rw [← Nat.two_mul] at hsum
  rw [← wideOf_update_pair (dst := dst) (ω := Function.update (Function.update s.words (s.cfg.scratchWord 2) (s.words dst))
    (s.cfg.scratchWord 3) (s.words (dst + 32)))] at hsum
  replace hsum := hsum.trans (b := 2 * wideOf s.words .w512 dst) rfl
  refine csubp512_ends hF hb.modulus_lt_wide hs₂ hdst (hsum.trans_lt (by omega)) fun u hu => hk u ?_
  have hresult : correctOnce d (2 * wideOf s.words .w512 dst) = doubleResult d (wideOf s.words .w512 dst) := by
    rw [doubleResult, ← correctOnce_mod, Nat.mod_eq_of_lt (correctOnce_lt (by omega))]
  rw [hsum, hresult] at hu
  exact (hu.of_update_pair.of_update_scratch (by decide)).of_update_scratch (by decide)

end

/-! ### Comparison through the scratch space -/

section
variable {s₀ s : State} {ω : Nat → Nat} {d : Descriptor} {a b blo bhi : Nat} {Q : State → Prop}

/-- The comparison of two pairs of words (rule R209). -/
theorem eq512ThroughScratch_ends {k : State → Bool → Out} (hF : SeqField s₀ d) (hs : SeqAt s₀ ω s) (ha : WideRd s₀.cfg a)
    (hlo : WordRd s₀.cfg blo) (hloOff : OffScratch s₀.cfg blo) (hhi : WordRd s₀.cfg bhi) (hhiOff : OffScratch s₀.cfg bhi)
    (hk : ∀ u ω', SeqAt s₀ ω' u → (∀ x, OffScratch s₀.cfg x → ω' x = ω x) →
      Ends (k u (decide (wideOf ω .w512 a = ω blo + W * ω bhi))) Q) :
    Ends (eq512ThroughScratch a blo bhi s k) Q := by
  have hbit (x : Bool) (h : x = decide (ω a = ω blo ∧ ω (a + 32) = ω bhi)) (u : State) (ω' : Nat → Nat)
      (hu : SeqAt s₀ ω' u) (hω : ∀ x, OffScratch s₀.cfg x → ω' x = ω x) : Ends (k u x) Q := by
    rw [h, ← decide_eq_decide.2 (wide_eq_iff (hs.lt ha.lo.aligned) (hs.lt hlo.aligned))]
    exact hk u ω' hu hω
  refine eqThroughScratch_ends hF hs ha.lo ha.loOff hlo hloOff fun s₁ ω₁ hs₁ hω₁ => ?_
  by_cases heq : ω a = ω blo
  · rw [decide_eq_true heq, if_pos rfl]
    refine eqThroughScratch_ends hF hs₁ ha.hi ha.hiOff hhi hhiOff fun s₂ ω₂ hs₂ hω₂ => ?_
    refine hbit _ ?_ s₂ ω₂ hs₂ fun x hx => (hω₂ x hx).trans (hω₁ x hx)
    rw [hiAddr_eq, hω₁ _ ha.hiOff, hω₁ _ hhiOff, decide_eq_decide, and_iff_right heq]
  · rw [decide_eq_false heq, if_neg Bool.false_ne_true]
    exact hbit _ (decide_eq_false fun h => heq h.1).symm s₁ ω₁ hs₁ hω₁

/-- The borrow of `[a] - [b]`, through copies in `S0` and `S1` (rules R207 and R208). -/
theorem borrow512_ends {k : State → Bool → Out} (hF : SeqField s₀ d) (hs : SeqAt s₀ ω s) (ha : WideRd s₀.cfg a)
    (hb : WideRd s₀.cfg b)
    (hk : ∀ u ω', SeqAt s₀ ω' u → (∀ x, OffScratch s₀.cfg x → ω' x = ω x) →
      Ends (k u (decide (wideOf ω .w512 a < wideOf ω .w512 b))) Q) :
    Ends (borrow512 a b s k) Q := by
  have h0 := hF.scratch (i := 0) (by decide)
  have h1 := hF.scratch (i := 1) (by decide)
  rw [borrow512, hs.sw]
  refine copy_pair_ends hs h0 h1 ha.lo ha.hi (ha.loOff 0 (by decide)).symm (ha.hiOff 1 (by decide)).symm
    (ha.hiOff 0 (by decide)) (fun t _ ht => by rw [State.sw, ht]; rfl) fun s₁ _ hs₁ => ?_
  rw [hs₁.sw]
  refine chain_ends .waluSub (fun _ => rfl) hs₁ h0 h1 hb.lo hb.hi (hb.loOff 0 (by decide)).symm
    (hb.hiOff 1 (by decide)).symm (scratchWord_ne (by decide)) (hb.hiOff 0 (by decide))
    (fun t _ ht => by rw [State.sw, ht]; rfl) fun s₂ lo hi _ bw hs₂ hlo hhi e e' => ?_
  have hdiff := sub_chain e e'
  simp (disch := decide) only [update_scratch_ne, hb.loOff.update, hb.hiOff.update, Function.update_self] at hdiff
  obtain rfl : bw = decide (wideOf ω .w512 a < wideOf ω .w512 b) := eq_decide_of_borrow (wide_lt hlo hhi) hdiff
  exact hk s₂ _ hs₂ fun x hx => by simp (disch := decide) only [hx.update]

end

section
variable {f dst a b : Nat}

theorem refNegateMod512_carriesOut : CarriesOut (refNegateMod512 f dst) (exec (.negateMod512 f dst)) := by
  refine carriesOut_modUnary (body := _) (fun _ => rfl) fun s d Q hF hb hl hr hk => ?_
  have hdst := hl.wideWr List.mem_cons_self
  have hA : wideOf s.words .w512 dst ≤ d.modulus := of_decide_eq_true hr
  have hs := seqAt_beginOp s
  have hpLo := hF.const (k := 2) (by decide)
  have hpHi := hF.const (k := 3) (by decide)
  have hzero := hF.const (k := 1) (by decide)
  rw [pLoAddr_eq, pHiAddr_eq, zeroAddr_eq]
  refine chain_ends .waluSubNeg (fun _ => rfl) hs hdst.lo hdst.hi hpLo hpHi (hF.ne_const (by decide) hdst.lo)
    (hF.ne_const (by decide) hdst.hi) (ne_add_32 dst) (hF.ne_const (by decide) hdst.lo).symm (fun _ _ _ => rfl)
    fun s₁ lo hi _ bw hs₁ hlo hhi e e' => ?_
  have hdiff := subNeg_chain e e'
  rw [hs.modulus_words hF] at hdiff
  replace hdiff : lo + W * hi = d.modulus - wideOf s.words .w512 dst := by
    have hp := hb.modulus_lt_wide
    have hv := wide_lt hlo hhi
    replace hdiff : lo + W * hi + wideOf s.words .w512 dst = d.modulus + W * W * bw.toNat := hdiff
    generalize wideOf s.words .w512 dst = A at *
    generalize lo + W * hi = v at *
    cases bw with
    | true => rw [Bool.toNat_true] at hdiff; omega
    | false => rw [Bool.toNat_false] at hdiff; omega
  have hs₁dst := (wideOf_update_pair (dst := dst) (ω := s.words) (lo := lo) (hi := hi)).trans hdiff
  refine eq512ThroughScratch_ends hF hs₁ hdst.rd hpLo (hF.offScratch_const (by decide)) hpHi
    (hF.offScratch_const (by decide)) fun s₂ ω₂ hs₂ hω₂ => ?_
  rw [hs₁dst, hs₁.modulus_words hF]
  have hodd := hb.modulus_odd
  by_cases heq : d.modulus - wideOf s.words .w512 dst = d.modulus
  · rw [decide_eq_true heq, if_pos rfl]
    refine copy_pair_ends hs₂ hdst.lo hdst.hi hzero hzero (hF.ne_const (by decide) hdst.lo)
      (hF.ne_const (by decide) hdst.hi) (hF.ne_const (by decide) hdst.lo).symm (fun _ _ _ => rfl) fun s₃ _ hs₃ => ?_
    rw [hs₂.const hF (by decide)] at hs₃
    refine hk s₃ ((leaves_pair hs₃ ?_).of_frame fun x hx _ => hω₂ x hx).of_update_pair
    change 0 = negateResult d (wideOf s.words .w512 dst)
    rw [negateResult, if_pos (by omega)]
  · rw [decide_eq_false heq, if_neg Bool.false_ne_true]
    refine hk s₂ (Leaves.of_update_pair (lo := lo) (hi := hi) ⟨ω₂, hs₂, fun x hx _ => hω₂ x hx, ?_⟩)
    rw [wideOf, hω₂ _ hdst.loOff, hω₂ _ hdst.hiOff]
    refine hs₁dst.trans ?_
    rw [negateResult]
    split <;> omega

/-! ### The 512-bit comparisons -/

theorem refLt512_carriesOut : CarriesOut (refLt512 f a b) (exec (.lt512 f a b)) := by
  refine carriesOut_modCompare (body := _) (fun _ => rfl) fun s d Q hF hb hl hk => ?_
  exact borrow512_ends hF (seqAt_beginOp s) (hl.wideRd List.mem_cons_self)
    (hl.wideRd (List.mem_cons_of_mem _ List.mem_cons_self)) hk

theorem refLeq512_carriesOut : CarriesOut (refLeq512 f a b) (exec (.leq512 f a b)) := by
  refine carriesOut_modCompare (body := _) (fun _ => rfl) fun s d Q hF hb hl hk => ?_
  refine borrow512_ends hF (seqAt_beginOp s) (hl.wideRd (List.mem_cons_of_mem _ List.mem_cons_self))
    (hl.wideRd List.mem_cons_self) fun u ω' hu hω => ?_
  have hbit : (!decide (wideOf s.words .w512 b < wideOf s.words .w512 a)) =
      leqTest (wideOf s.words .w512 a) (wideOf s.words .w512 b) := by
    rw [leqTest, ← decide_not, decide_eq_decide, Nat.not_lt]
  rw [hbit]
  exact hk u ω' hu hω

theorem refEq512_carriesOut : CarriesOut (refEq512 f a b) (exec (.eq512 f a b)) := by
  refine carriesOut_modCompare (body := _) (fun _ => rfl) fun s d Q hF hb hl hk => ?_
  have hb := hl.wideRd (List.mem_cons_of_mem _ List.mem_cons_self)
  exact eq512ThroughScratch_ends hF (seqAt_beginOp s) (hl.wideRd List.mem_cons_self) hb.lo hb.loOff hb.hi hb.hiOff hk

theorem refIsZero512_carriesOut : CarriesOut (refIsZero512 f a) (exec (.isZero512 f a)) := by
  refine carriesOut_modTest (body := _) (fun _ => rfl) fun s d Q hF hb hl hk => ?_
  have hs := seqAt_beginOp s
  have hzero := hF.const (k := 1) (by decide)
  have hzeroOff := hF.offScratch_const (k := 1) (by decide)
  rw [zeroAddr_eq]
  refine eq512ThroughScratch_ends hF hs (hl.wideRd List.mem_cons_self) hzero hzeroOff hzero hzeroOff fun u ω' hu hω => ?_
  rw [hs.const hF (by decide)]
  exact hk u ω' hu hω

theorem refIsOne512_carriesOut : CarriesOut (refIsOne512 f a) (exec (.isOne512 f a)) := by
  refine carriesOut_modTest (body := _) (fun _ => rfl) fun s d Q hF hb hl hk => ?_
  have hs := seqAt_beginOp s
  rw [hiAddr_oneAddr_eq, oneAddr_eq]
  refine eq512ThroughScratch_ends hF hs (hl.wideRd List.mem_cons_self) (hF.const (by decide))
    (hF.offScratch_const (by decide)) (hF.const (by decide)) (hF.offScratch_const (by decide)) fun u ω' hu hω => ?_
  rw [hs.const hF (by decide), hs.const hF (by decide)]
  exact hk u ω' hu hω

theorem refIsZeroMod512_carriesOut : CarriesOut (refIsZeroMod512 f a) (exec (.isZeroMod512 f a)) := by
  refine carriesOut_modTest (body := _) (fun _ => rfl) fun s d Q hF hb hl hk => ?_
  have ha := hl.wideRd List.mem_cons_self
  have hs := seqAt_beginOp s
  have hzero := hF.const (k := 1) (by decide)
  have hzeroOff := hF.offScratch_const (k := 1) (by decide)
  rw [zeroAddr_eq, pLoAddr_eq, pHiAddr_eq]
  refine eq512ThroughScratch_ends hF hs ha hzero hzeroOff hzero hzeroOff fun s₁ ω₁ hs₁ hω₁ => ?_
  have hz : s.words (constAddr d 1) + W * s.words (constAddr d 1) = 0 := by rw [hs.const hF (by decide)]; rfl
  rw [hz]
  by_cases hA : wideOf s.words .w512 a = 0
  · have hbit : zeroModTest d (wideOf s.words .w512 a) = true := decide_eq_true (.inl hA)
    rw [hbit] at hk
    rw [decide_eq_true hA, if_pos rfl]
    exact hk s₁ ω₁ hs₁ hω₁
  · rw [decide_eq_false hA, if_neg Bool.false_ne_true]
    refine eq512ThroughScratch_ends hF hs₁ ha (hF.const (by decide)) (hF.offScratch_const (by decide))
      (hF.const (by decide)) (hF.offScratch_const (by decide)) fun s₂ ω₂ hs₂ hω₂ => ?_
    have hbit : zeroModTest d (wideOf s.words .w512 a) = decide (wideOf s.words .w512 a = d.modulus) :=
      decide_eq_decide.2 (or_iff_right hA)
    have hvalue : wideOf ω₁ .w512 a = wideOf s.words .w512 a := by
      rw [wideOf, hω₁ _ ha.loOff, hω₁ _ ha.hiOff]
      rfl
    rw [hbit] at hk
    rw [hvalue, hs₁.modulus_words hF]
    exact hk s₂ ω₂ hs₂ fun x hx => (hω₂ x hx).trans (hω₁ x hx)

end

/-! ### The obligation -/

/-- Settles O59: two calls with the flag passed on are one operation on values of two words, so each sequence goes as the one
of 256 bits does. -/
theorem sequencesCarryOutWideArithmetic : Obligations.SequencesCarryOutWideArithmetic := by
  unfold Obligations.SequencesCarryOutWideArithmetic
  exact fun f dst src => ⟨refAddMod512_carriesOut, refSubMod512_carriesOut, refDoubleMod512_carriesOut,
    refNegateMod512_carriesOut, refLt512_carriesOut, refLeq512_carriesOut, refEq512_carriesOut, refIsZero512_carriesOut,
    refIsOne512_carriesOut, refIsZeroMod512_carriesOut⟩

end Sys2Proof.Machine
end

section
/-! PROOFS. The reference sequences of 512-bit Montgomery multiplication (spec/47_montgomery_512.md rules R221 to R226) carry out
the operations: each multiplication step adds a product of two words to the accumulator in the scratch words `S4` to `S7`. -/

namespace Sys2Proof.Machine

/-! ### Scratch words that a part of a sequence writes -/

/-- The word at `x` is none of the scratch words `l`. -/
def OffWords (c : Config) (l : List Nat) (x : Nat) : Prop := ∀ i ∈ l, x ≠ c.scratchWord i

section
variable {c : Config} {l l' : List Nat} {x i v : Nat} {ω : Nat → Nat}

theorem OffWords.mono (h : OffWords c l x) (hl : l' ⊆ l) : OffWords c l' x := fun i hi => h i (hl hi)

theorem OffWords.update (h : OffWords c l x) (hi : i ∈ l) : Function.update ω (c.scratchWord i) v x = ω x :=
  Function.update_of_ne (h i hi) _ _

theorem OffScratch.offWords (h : OffScratch c x) (hl : ∀ i ∈ l, i < 12) : OffWords c l x := fun i hi => h i (hl i hi)

theorem offWords_scratchWord (hi : i ∉ l) : OffWords c l (c.scratchWord i) :=
  fun _ hj => scratchWord_ne fun h => hi (h ▸ hj)

end

/-- The scratch words a multiplication step writes. -/
def macWords : List Nat := [4, 5, 6, 7, 9, 10]

/-- The scratch words a pass writes. -/
def passWords : List Nat := [4, 5, 6, 7, 8, 9, 10]

theorem macWords_subset : macWords ⊆ passWords := by decide

/-- The accumulator of four words. -/
def accOf (c : Config) (ω : Nat → Nat) : Nat :=
  ω (c.scratchWord 4) + W * ω (c.scratchWord 5) + W * W * ω (c.scratchWord 6) + W * W * W * ω (c.scratchWord 7)

/-! ### One multiplication step -/

section
variable {l m h v₄ v₅ v₆ : Nat} {c₄ c₅ c₆ : Bool}

/-- Three chained sums with a product of two words. -/
theorem three_words_sum {P : Nat} (e₄ : v₄ + W * c₄.toNat = l + P % W) (e₅ : v₅ + W * c₅.toNat = m + P / W + c₄.toNat)
    (e₆ : v₆ + W * c₆.toNat = h + c₅.toNat) :
    v₄ + W * v₅ + W * W * v₆ + W * W * W * c₆.toNat = l + W * m + W * W * h + P := by
  have hP := Nat.div_add_mod P W
  simp only [W] at *
  omega

/-- A carry out of a sum below the radix is 0. -/
theorem eq_of_add_mul_toNat {R S v : Nat} {c : Bool} (h : v + R * c.toNat = S) (hS : S < R) : v = S := by
  cases c with
  | true => rw [Bool.toNat_true] at h; omega
  | false => rwa [Bool.toNat_false, Nat.mul_zero, Nat.add_zero] at h

end

section
variable {s₀ s : State} {ω : Nat → Nat} {d : Descriptor} {x y bi : Nat} {Q : State → Prop}

/-- The seven calls of a step that both its forms make: they add the product to three words of the accumulator, with a carry. -/
theorem macHead_ends {j : Nat} {k : State → Bool → Out} (hF : SeqField s₀ d) (hj : j < 2) (hs : SeqAt s₀ ω s)
    (hx : WordRd s₀.cfg x) (hxo : OffWords s₀.cfg macWords x) (hy : WordRd s₀.cfg y) (hyo : OffWords s₀.cfg macWords y)
    (hk : ∀ u ω' c, SeqAt s₀ ω' u →
      (∀ z, OffWords s₀.cfg [4 + j, 5 + j, 6 + j, 9, 10] z → ω' z = ω z) →
      ω' (s₀.cfg.scratchWord (4 + j)) + W * ω' (s₀.cfg.scratchWord (5 + j)) + W * W * ω' (s₀.cfg.scratchWord (6 + j)) +
          W * W * W * c.toNat =
        ω (s₀.cfg.scratchWord (4 + j)) + W * ω (s₀.cfg.scratchWord (5 + j)) + W * W * ω (s₀.cfg.scratchWord (6 + j)) +
          ω x * ω y →
      Ends (k u c) Q) :
    Ends (issue (.waluMemCpy false) (s.sw 9) x s fun s _ =>
      issue (.waluMulLo false) (s.sw 9) y s fun s _ =>
      issue (.waluMemCpy false) (s.sw 10) x s fun s _ =>
      issue (.waluMulHi false) (s.sw 10) y s fun s _ =>
      issue (.waluAdd false) (s.sw (4 + j)) (s.sw 9) s fun s c =>
      issue (.waluAdd c) (s.sw (5 + j)) (s.sw 10) s fun s c =>
      issue (.waluAdd c) (s.sw (6 + j)) d.zeroAddr s k) Q := by
  have h9 := hF.scratch (i := 9) (by decide)
  have h10 := hF.scratch (i := 10) (by decide)
  have hl := hF.scratch (i := 4 + j) (by omega)
  have hm := hF.scratch (i := 5 + j) (by omega)
  have hh := hF.scratch (i := 6 + j) (by omega)
  have hx9 := hxo 9 (by decide)
  have hx10 := hxo 10 (by decide)
  have hy9 := hyo 9 (by decide)
  have hy10 := hyo 10 (by decide)
  rw [hs.sw]
  refine issue_ends rfl hs h9 hx hx9.symm fun s₁ v₁ _ hs₁ _ e₁ => ?_
  obtain rfl : ω x = v₁ := (eq_of_copy (hs.lt hx.aligned) e₁).symm
  rw [hs₁.sw]
  refine issue_ends rfl hs₁ h9 hy hy9.symm fun s₂ v₂ _ hs₂ hv₂ e₂ => ?_
  simp only [Function.update_self, Function.update_of_ne hy9] at e₂
  obtain rfl : ω x * ω y % W = v₂ := Eq.symm e₂
  rw [hs₂.sw]
  refine issue_ends rfl hs₂ h10 hx hx10.symm fun s₃ v₃ _ hs₃ _ e₃ => ?_
  simp only [Function.update_of_ne hx9] at e₃
  obtain rfl : ω x = v₃ := (eq_of_copy (hs.lt hx.aligned) e₃).symm
  rw [hs₃.sw]
  refine issue_ends rfl hs₃ h10 hy hy10.symm fun s₄ v₄ _ hs₄ hv₄ e₄ => ?_
  simp only [Function.update_self, Function.update_of_ne hy9, Function.update_of_ne hy10] at e₄
  obtain rfl : ω x * ω y / W = v₄ := Eq.symm e₄
  rw [hs₄.sw, hs₄.sw]
  refine issue_ends rfl hs₄ hl h9.rd (scratchWord_ne (by omega)) fun s₅ v₅ c₅ hs₅ _ e₅ => ?_
  simp (disch := omega) only [update_scratch_ne, Function.update_self] at e₅
  replace e₅ : v₅ + W * c₅.toNat = ω (s₀.cfg.scratchWord (4 + j)) + ω x * ω y % W + 0 := e₅
  rw [hs₅.sw, hs₅.sw]
  refine issue_ends rfl hs₅ hm h10.rd (scratchWord_ne (by omega)) fun s₆ v₆ c₆ hs₆ _ e₆ => ?_
  simp (disch := omega) only [update_scratch_ne, Function.update_self] at e₆
  replace e₆ : v₆ + W * c₆.toNat = ω (s₀.cfg.scratchWord (5 + j)) + ω x * ω y / W + c₅.toNat := e₆
  rw [hs₆.sw, zeroAddr_eq]
  refine issue_ends rfl hs₆ hh (hF.const (by decide)) (hF.ne_const (by decide) hh) fun s₇ v₇ c₇ hs₇ _ e₇ => ?_
  rw [hs₆.const hF (by decide)] at e₇
  simp (disch := omega) only [update_scratch_ne] at e₇
  replace e₇ : v₇ + W * c₇.toNat = ω (s₀.cfg.scratchWord (6 + j)) + 0 + c₆.toNat := e₇
  refine hk s₇ _ c₇ hs₇ (fun z hz => ?_) ?_
  · simp (disch := simp) only [hz.update]
  · simp (disch := omega) only [update_scratch_ne, Function.update_self]
    exact three_words_sum e₅ e₆ e₇

/-- A step adds `[x] * [y] * W^j` to the accumulator if the sum fits in four words (rule R221). -/
theorem mac_ends {j : Nat} {k : State → Out} (hF : SeqField s₀ d) (hj : j < 2) (hs : SeqAt s₀ ω s)
    (hx : WordRd s₀.cfg x) (hxo : OffWords s₀.cfg macWords x) (hy : WordRd s₀.cfg y) (hyo : OffWords s₀.cfg macWords y)
    (hlt : accOf s₀.cfg ω + ω x * ω y * W ^ j < W ^ 4)
    (hk : ∀ u ω', SeqAt s₀ ω' u → (∀ z, OffWords s₀.cfg macWords z → ω' z = ω z) →
      accOf s₀.cfg ω' = accOf s₀.cfg ω + ω x * ω y * W ^ j → Ends (k u) Q) :
    Ends (mac d x y j s k) Q := by
  refine macHead_ends hF hj hs hx hxo hy hyo fun s₁ ω₁ c hs₁ hframe hsum => ?_
  obtain rfl | rfl : j = 0 ∨ j = 1 := by omega
  · have h7 := hF.scratch (i := 7) (by decide)
    simp only [Nat.reduceAdd] at hframe hsum
    rw [if_pos rfl, hs₁.sw, zeroAddr_eq]
    refine issue_ends rfl hs₁ h7 (hF.const (by decide)) (hF.ne_const (by decide) h7) fun s₂ v₇ c₇ hs₂ _ e₇ => ?_
    rw [hs₁.const hF (by decide), hframe _ (offWords_scratchWord (by decide))] at e₇
    replace e₇ : v₇ + W * c₇.toNat = ω (s₀.cfg.scratchWord 7) + 0 + c.toNat := e₇
    refine hk s₂ _ hs₂ (fun z hz => ?_) (eq_of_add_mul_toNat (R := W ^ 4) (c := c₇) ?_ hlt)
    · rw [hz.update (by decide), hframe z (hz.mono (by decide))]
    · simp (disch := decide) only [accOf, update_scratch_ne, Function.update_self]
      simp only [W] at *
      omega
  · simp only [Nat.reduceAdd] at hframe hsum
    rw [if_neg Nat.one_ne_zero]
    refine hk s₁ ω₁ hs₁ (fun z hz => hframe z (hz.mono (by decide))) (eq_of_add_mul_toNat (R := W ^ 4) (c := c) ?_ hlt)
    rw [accOf, accOf, hframe _ (offWords_scratchWord (i := 4) (by decide))]
    simp only [W] at *
    omega

end

/-! ### One pass -/

section
variable {a b m p T : Nat}

/-- The sums of a pass fit in four words. -/
theorem pass_sum_lt (hT : T < W ^ 3) (ha : a < W * W) (hb : b < W) (hm : m < W) (hp : p < W * W) :
    T + a * b + m * p < W ^ 4 := by
  have hab : a * b < W * W * W := Nat.mul_lt_mul'' ha hb
  have hmp : m * p < W * (W * W) := Nat.mul_lt_mul'' hm hp
  simp only [W] at *
  omega

end

section
variable {s₀ s : State} {ω : Nat → Nat} {d : Descriptor} {dst bi : Nat} {Q : State → Prop}

/-- An accumulator whose highest word is 0. -/
theorem accOf_lt (hs : SeqAt s₀ ω s) (hF : SeqField s₀ d) (h7 : ω (s₀.cfg.scratchWord 7) = 0) :
    accOf s₀.cfg ω < W ^ 3 := by
  have h4 := hs.lt (hF.scratch (i := 4) (by decide)).aligned
  have h5 := hs.lt (hF.scratch (i := 5) (by decide)).aligned
  have h6 := hs.lt (hF.scratch (i := 6) (by decide)).aligned
  rw [accOf, h7]
  simp only [W] at *
  omega

/-- The low word of the accumulator. -/
theorem accOf_mod (hs : SeqAt s₀ ω s) (hF : SeqField s₀ d) : accOf s₀.cfg ω % W = ω (s₀.cfg.scratchWord 4) := by
  have h4 := hs.lt (hF.scratch (i := 4) (by decide)).aligned
  rw [accOf]
  simp only [W] at *
  omega

/-- The words of the accumulator above the low one. -/
theorem accOf_div (hs : SeqAt s₀ ω s) (hF : SeqField s₀ d) :
    accOf s₀.cfg ω / W = ω (s₀.cfg.scratchWord 5) + W * ω (s₀.cfg.scratchWord 6) + W * W * ω (s₀.cfg.scratchWord 7) := by
  have h4 := hs.lt (hF.scratch (i := 4) (by decide)).aligned
  rw [accOf]
  simp only [W] at *
  omega

/-- A copy of the constant 0 clears a scratch word. -/
theorem zeroWord_ends {i : Nat} {k : State → Out} (hF : SeqField s₀ d) (hi : i < 12) (hs : SeqAt s₀ ω s)
    (hk : ∀ u, SeqAt s₀ (Function.update ω (s₀.cfg.scratchWord i) 0) u → Ends (k u) Q) :
    Ends (issue (.waluMemCpy false) (s.sw i) d.zeroAddr s fun s _ => k s) Q := by
  have hw := hF.scratch hi
  rw [hs.sw, zeroAddr_eq]
  refine issue_ends rfl hs hw (hF.const (by decide)) (hF.ne_const (by decide) hw) fun u v _ hu _ e => ?_
  rw [hs.const hF (by decide)] at e
  obtain rfl : v = 0 := eq_of_copy (by simp) e
  exact hk u hu

/-- The four copies at the end of a pass divide the accumulator by the radix. -/
theorem accShift_ends {k : State → Out} (hF : SeqField s₀ d) (hs : SeqAt s₀ ω s)
    (hk : ∀ u ω', SeqAt s₀ ω' u → (∀ z, OffWords s₀.cfg macWords z → ω' z = ω z) →
      ω' (s₀.cfg.scratchWord 7) = 0 → accOf s₀.cfg ω' = accOf s₀.cfg ω / W → Ends (k u) Q) :
    Ends (issue (.waluMemCpy false) (s.sw 4) (s.sw 5) s fun s _ =>
      issue (.waluMemCpy false) (s.sw 5) (s.sw 6) s fun s _ =>
      issue (.waluMemCpy false) (s.sw 6) (s.sw 7) s fun s _ =>
      issue (.waluMemCpy false) (s.sw 7) d.zeroAddr s fun s _ => k s) Q := by
  have h4 := hF.scratch (i := 4) (by decide)
  have h5 := hF.scratch (i := 5) (by decide)
  have h6 := hF.scratch (i := 6) (by decide)
  have h7 := hF.scratch (i := 7) (by decide)
  rw [hs.sw, hs.sw]
  refine issue_ends rfl hs h4 h5.rd (scratchWord_ne (by decide)) fun s₁ v₁ _ hs₁ _ e₁ => ?_
  obtain rfl : ω (s₀.cfg.scratchWord 5) = v₁ := (eq_of_copy (hs.lt h5.aligned) e₁).symm
  rw [hs₁.sw, hs₁.sw]
  refine issue_ends rfl hs₁ h5 h6.rd (scratchWord_ne (by decide)) fun s₂ v₂ _ hs₂ _ e₂ => ?_
  simp (disch := decide) only [update_scratch_ne] at e₂
  obtain rfl : ω (s₀.cfg.scratchWord 6) = v₂ := (eq_of_copy (hs.lt h6.aligned) e₂).symm
  rw [hs₂.sw, hs₂.sw]
  refine issue_ends rfl hs₂ h6 h7.rd (scratchWord_ne (by decide)) fun s₃ v₃ _ hs₃ _ e₃ => ?_
  simp (disch := decide) only [update_scratch_ne] at e₃
  obtain rfl : ω (s₀.cfg.scratchWord 7) = v₃ := (eq_of_copy (hs.lt h7.aligned) e₃).symm
  refine zeroWord_ends hF (by decide) hs₃ fun s₄ hs₄ => ?_
  refine hk s₄ _ hs₄ (fun z hz => ?_) (Function.update_self ..) ?_
  · simp (disch := decide) only [hz.update]
  · rw [accOf_div hs hF]
    simp (disch := decide) only [accOf, update_scratch_ne, Function.update_self, Nat.mul_zero, Nat.add_zero]

/-- One pass leaves the accumulator that one iteration of rule R222 computes. -/
theorem mont512Pass_ends {k : State → Out} (hF : SeqField s₀ d) (hp : d.modulus < W * W) (hs : SeqAt s₀ ω s)
    (hdst : WideWr s₀.cfg dst) (hbi : WordRd s₀.cfg bi) (hbio : OffWords s₀.cfg passWords bi)
    (h7 : ω (s₀.cfg.scratchWord 7) = 0)
    (hk : ∀ u ω', SeqAt s₀ ω' u → (∀ z, OffWords s₀.cfg passWords z → ω' z = ω z) →
      ω' (s₀.cfg.scratchWord 7) = 0 → accOf s₀.cfg ω' = redc512Pass d (wideOf ω .w512 dst) (ω bi) (accOf s₀.cfg ω) →
      Ends (k u) Q) :
    Ends (mont512Pass d dst bi s k) Q := by
  have h8 := hF.scratch (i := 8) (by decide)
  have h4 := hF.scratch (i := 4) (by decide)
  have h8o : OffWords s₀.cfg macWords (s₀.cfg.scratchWord 8) := offWords_scratchWord (by decide)
  have hbim := hbio.mono macWords_subset
  have hloOff : OffWords s₀.cfg macWords dst := hdst.loOff.offWords (by decide)
  have hhiOff : OffWords s₀.cfg macWords (dst + 32) := hdst.hiOff.offWords (by decide)
  have hpLo := hF.const (k := 2) (by decide)
  have hpHi := hF.const (k := 3) (by decide)
  have hpLoOff : OffWords s₀.cfg macWords (constAddr d 2) := (hF.offScratch_const (by decide)).offWords (by decide)
  have hpHiOff : OffWords s₀.cfg macWords (constAddr d 3) := (hF.offScratch_const (by decide)).offWords (by decide)
  have hT := accOf_lt hs hF h7
  have ha : wideOf ω .w512 dst < W * W := wide_lt (hs.lt hdst.lo.aligned) (hs.lt hdst.hi.aligned)
  have hbound (m : Nat) (hm : m < W) := pass_sum_lt hT ha (hs.lt hbi.aligned) hm hp
  have hprod : wideOf ω .w512 dst * ω bi = ω dst * ω bi * W ^ 0 + ω (dst + 32) * ω bi * W ^ 1 := by
    rw [wideOf]
    ring
  rw [mont512Pass, hiAddr_eq, nprimeAddr_eq, pLoAddr_eq, pHiAddr_eq]
  have hbound₀ := hbound 0 (by simp)
  rw [Nat.zero_mul, hprod] at hbound₀
  refine mac_ends hF (by decide) hs hdst.lo.rd hloOff hbi hbim (by omega) fun s₁ ω₁ hs₁ hframe₁ hacc₁ => ?_
  refine mac_ends hF (by decide) hs₁ hdst.hi.rd hhiOff hbi hbim ?_ fun s₂ ω₂ hs₂ hframe₂ hacc₂ => ?_
  · rw [hframe₁ _ hhiOff, hframe₁ _ hbim]
    omega
  rw [hframe₁ _ hhiOff, hframe₁ _ hbim, hacc₁, Nat.add_assoc, ← hprod] at hacc₂
  rw [hs₂.sw, hs₂.sw]
  refine issue_ends rfl hs₂ h8 h4.rd (scratchWord_ne (by decide)) fun s₃ v₃ _ hs₃ _ e₃ => ?_
  obtain rfl : ω₂ (s₀.cfg.scratchWord 4) = v₃ := (eq_of_copy (hs₂.lt h4.aligned) e₃).symm
  rw [hs₃.sw]
  refine issue_ends rfl hs₃ h8 (hF.const (by decide)) (hF.ne_const (by decide) h8) fun s₄ m _ hs₄ hm e₄ => ?_
  rw [Function.update_self, hs₃.const hF (by decide), ← accOf_mod hs₂ hF, hacc₂] at e₄
  replace e₄ : m = redcMultiplier d (accOf s₀.cfg ω + wideOf ω .w512 dst * ω bi) := e₄
  have hprod' : m * d.modulus = m * d.constWord 2 * W ^ 0 + m * d.constWord 3 * W ^ 1 := by
    have hwords := hs.modulus_words hF
    rw [hs.const hF (by decide), hs.const hF (by decide)] at hwords
    rw [← hwords]
    ring
  have hbound₁ := hbound m hm
  rw [hprod', ← hacc₂] at hbound₁
  have hacc₄ : accOf s₀.cfg (Function.update (Function.update ω₂ (s₀.cfg.scratchWord 8) (ω₂ (s₀.cfg.scratchWord 4)))
      (s₀.cfg.scratchWord 8) m) = accOf s₀.cfg ω₂ := by
    simp (disch := decide) only [accOf, update_scratch_ne]
  rw [hs₄.sw]
  refine mac_ends hF (by decide) hs₄ h8.rd h8o hpLo hpLoOff ?_ fun s₅ ω₅ hs₅ hframe₅ hacc₅ => ?_
  · rw [hacc₄, Function.update_self, hs₄.const hF (by decide)]
    omega
  rw [hacc₄, Function.update_self, hs₄.const hF (by decide)] at hacc₅
  rw [hs₅.sw]
  refine mac_ends hF (by decide) hs₅ h8.rd h8o hpHi hpHiOff ?_ fun s₆ ω₆ hs₆ hframe₆ hacc₆ => ?_
  · rw [hframe₅ _ h8o, Function.update_self, hs₅.const hF (by decide), hacc₅]
    omega
  rw [hframe₅ _ h8o, Function.update_self, hs₅.const hF (by decide), hacc₅, Nat.add_assoc, ← hprod', hacc₂, e₄] at hacc₆
  refine accShift_ends hF hs₆ fun s₇ ω₇ hs₇ hframe₇ h7' hacc₇ => hk s₇ ω₇ hs₇ (fun z hz => ?_) h7' ?_
  · have hzm := hz.mono macWords_subset
    rw [hframe₇ z hzm, hframe₆ z hzm, hframe₅ z hzm, hz.update (by decide), hz.update (by decide), hframe₂ z hzm,
      hframe₁ z hzm]
  · rw [hacc₇, hacc₆]
    rfl

/-! ### The body of the multiplication -/

/-- The first four copies clear the accumulator. -/
theorem accClear_ends {k : State → Out} (hF : SeqField s₀ d) (hs : SeqAt s₀ ω s)
    (hk : ∀ u ω', SeqAt s₀ ω' u → (∀ z, OffWords s₀.cfg passWords z → ω' z = ω z) →
      ω' (s₀.cfg.scratchWord 7) = 0 → accOf s₀.cfg ω' = 0 → Ends (k u) Q) :
    Ends (issue (.waluMemCpy false) (s.sw 4) d.zeroAddr s fun s _ =>
      issue (.waluMemCpy false) (s.sw 5) d.zeroAddr s fun s _ =>
      issue (.waluMemCpy false) (s.sw 6) d.zeroAddr s fun s _ =>
      issue (.waluMemCpy false) (s.sw 7) d.zeroAddr s fun s _ => k s) Q := by
  refine zeroWord_ends hF (by decide) hs fun s₁ hs₁ => ?_
  refine zeroWord_ends hF (by decide) hs₁ fun s₂ hs₂ => ?_
  refine zeroWord_ends hF (by decide) hs₂ fun s₃ hs₃ => ?_
  refine zeroWord_ends hF (by decide) hs₃ fun s₄ hs₄ => ?_
  refine hk s₄ _ hs₄ (fun z hz => ?_) (Function.update_self ..) ?_
  · simp (disch := decide) only [hz.update]
  · simp (disch := decide) only [accOf, update_scratch_ne, Function.update_self, Nat.mul_zero, Nat.add_zero]

/-- The body of `mul_mont512` leaves the Montgomery product of two values of two words (rule R222). The second value is not in
the scratch words the passes write. -/
theorem mulMont512Body_ends {src : Nat} {k : State → Out} (hF : SeqField s₀ d) (hp : d.modulus < W * W)
    (hodd : d.modulus % 2 = 1) (hs : SeqAt s₀ ω s) (hdst : WideWr s₀.cfg dst) (hlo : WordRd s₀.cfg src)
    (hhi : WordRd s₀.cfg (src + 32)) (hloOff : OffWords s₀.cfg passWords src) (hhiOff : OffWords s₀.cfg passWords (src + 32))
    (hlt : wideOf ω .w512 dst * wideOf ω .w512 src < d.modulus * (W * W))
    (hk : ∀ u, Leaves s₀ ω .w512 dst (mont512Result d (wideOf ω .w512 dst) (wideOf ω .w512 src)) u → Ends (k u) Q) :
    Ends (mulMont512Body d dst src s k) Q := by
  have h2 := hF.scratch (i := 2) (by decide)
  have h4 := hF.scratch (i := 4) (by decide)
  have h5 := hF.scratch (i := 5) (by decide)
  have h6 := hF.scratch (i := 6) (by decide)
  have hdstLo : OffWords s₀.cfg passWords dst := hdst.loOff.offWords (by decide)
  have hdstHi : OffWords s₀.cfg passWords (dst + 32) := hdst.hiOff.offWords (by decide)
  have hwide {ω' : Nat → Nat} (h : ∀ z, OffWords s₀.cfg passWords z → ω' z = ω z) :
      wideOf ω' .w512 dst = wideOf ω .w512 dst := by
    rw [wideOf, h _ hdstLo, h _ hdstHi, wideOf]
  rw [mulMont512Body, hiAddr_eq, hiAddr_eq]
  refine accClear_ends hF hs fun s₁ ω₁ hs₁ hframe₁ h7₁ hacc₁ => ?_
  refine mont512Pass_ends hF hp hs₁ hdst hlo hloOff h7₁ fun s₂ ω₂ hs₂ hframe₂ h7₂ hacc₂ => ?_
  replace hframe₂ (z : Nat) (hz : OffWords s₀.cfg passWords z) : ω₂ z = ω z := (hframe₂ z hz).trans (hframe₁ z hz)
  rw [hwide hframe₁, hframe₁ _ hloOff, hacc₁] at hacc₂
  refine mont512Pass_ends hF hp hs₂ hdst hhi hhiOff h7₂ fun s₃ ω₃ hs₃ hframe₃ h7₃ hacc₃ => ?_
  replace hframe₃ (z : Nat) (hz : OffWords s₀.cfg passWords z) : ω₃ z = ω z := (hframe₃ z hz).trans (hframe₂ z hz)
  rw [hwide hframe₂, hframe₂ _ hhiOff, hacc₂] at hacc₃
  have hmm : accOf s₀.cfg ω₃ = mm512 d (wideOf ω .w512 dst) (wideOf ω .w512 src) := by
    rw [hacc₃, mm512, wideOf, wideOf, Nat.add_mul_mod_self_left, Nat.mod_eq_of_lt (hs.lt hlo.aligned),
      Nat.add_mul_div_left _ _ (by simp), Nat.div_eq_of_lt (hs.lt hlo.aligned), Nat.zero_add]
  have hmmlt := mm512_lt_two_mul_modulus hodd hlt
  rw [← hmm] at hmmlt
  have haccSum : accOf s₀.cfg ω₃ = ω₃ (s₀.cfg.scratchWord 4) + W * ω₃ (s₀.cfg.scratchWord 5) +
      W * W * ω₃ (s₀.cfg.scratchWord 6) := by
    rw [accOf, h7₃, Nat.mul_zero, Nat.add_zero]
  rw [hs₃.sw, hs₃.sw]
  refine issue_ends rfl hs₃ h2 h6.rd (scratchWord_ne (by decide)) fun s₄ v₄ _ hs₄ _ e₄ => ?_
  obtain rfl : ω₃ (s₀.cfg.scratchWord 6) = v₄ := (eq_of_copy (hs₃.lt h6.aligned) e₄).symm
  rw [hs₄.sw, zeroAddr_eq]
  refine issue_ends rfl hs₄ h2 (hF.const (by decide)) (hF.ne_const (by decide) h2) fun s₅ v₅ e hs₅ _ e₅ => ?_
  rw [Function.update_self, hs₄.const hF (by decide)] at e₅
  obtain rfl : e = decide (ω₃ (s₀.cfg.scratchWord 6) = 0) := e₅
  rw [hs₅.sw]
  refine copy_pair_ends hs₅ hdst.lo hdst.hi h4.rd h5.rd (hdst.loOff 4 (by decide)) (hdst.hiOff 5 (by decide))
    (hdst.loOff 5 (by decide)).symm (fun t _ ht => by rw [State.sw, ht]) fun s₆ _ hs₆ => ?_
  simp (disch := decide) only [update_scratch_ne] at hs₆
  have hforce := add_mul_toNat_of_lt (R := W * W)
    (lo := ω₃ (s₀.cfg.scratchWord 4) + W * ω₃ (s₀.cfg.scratchWord 5)) (hi := ω₃ (s₀.cfg.scratchWord 6)) (by omega)
  rw [← haccSum] at hforce
  refine csubp512_ends hF hp hs₆ hdst ?_ fun u hu => hk u ?_
  · rwa [wideOf_update_pair, hforce]
  · rw [wideOf_update_pair, hforce, hmm] at hu
    refine hu.of_update_pair.of_frame fun x hx _ => ?_
    simp (disch := decide) only [hx.update, hframe₃ x (hx.offWords (by decide))]

end

/-! ### The operations -/

section
variable {s : State} {f dst src : Nat} {d : Descriptor}

theorem refMulMont512_carriesOut : CarriesOut (refMulMont512 f dst src) (exec (.mulMont512 f dst src)) := by
  refine carriesOut_modBinary (body := _) (fun _ => rfl) fun s d Q hF hb hl hr hk => ?_
  have hsrc := hl.wideRd (List.mem_cons_of_mem _ List.mem_cons_self)
  rw [montRange_eq_w512 hb.width_eq] at hr
  exact mulMont512Body_ends hF hb.modulus_lt_wide hb.modulus_odd (seqAt_beginOp s) (hl.wideWr List.mem_cons_self) hsrc.lo
    hsrc.hi (hsrc.loOff.offWords (by decide)) (hsrc.hiOff.offWords (by decide)) (of_decide_eq_true hr) hk

theorem refSquareMont512_carriesOut : CarriesOut (refSquareMont512 f dst) (exec (.squareMont512 f dst)) := by
  refine carriesOut_modUnary (body := _) (fun _ => rfl) fun s d Q hF hb hl hr hk => ?_
  have hdst := hl.wideWr List.mem_cons_self
  have h2 := hF.scratch (i := 2) (by decide)
  have h3 := hF.scratch (i := 3) (by decide)
  have hnext : s.cfg.scratchWord 2 + 32 = s.cfg.scratchWord 3 := rfl
  have hs := seqAt_beginOp s
  rw [montSquareRange, montRange_eq_w512 hb.width_eq] at hr
  rw [hs.sw]
  refine copy_pair_ends hs h2 h3 hdst.lo.rd hdst.hi.rd (hdst.loOff 2 (by decide)).symm (hdst.hiOff 3 (by decide)).symm
    (hdst.hiOff 2 (by decide)) (fun t _ ht => by rw [State.sw, ht]; rfl) fun s₁ _ hs₁ => ?_
  have hcopy : wideOf (Function.update (Function.update s.words (s.cfg.scratchWord 2) (s.words dst)) (s.cfg.scratchWord 3)
      (s.words (dst + 32))) .w512 (s.cfg.scratchWord 2) = wideOf s.words .w512 dst := by
    rw [← hnext]
    exact wideOf_update_pair
  have hvalue : wideOf (Function.update (Function.update s.words (s.cfg.scratchWord 2) (s.words dst)) (s.cfg.scratchWord 3)
      (s.words (dst + 32))) .w512 dst = wideOf s.words .w512 dst := by
    simp (disch := decide) only [wideOf, hdst.loOff.update, hdst.hiOff.update]
  rw [hs₁.sw]
  refine mulMont512Body_ends hF hb.modulus_lt_wide hb.modulus_odd hs₁ hdst h2.rd (hnext ▸ h3.rd)
    (offWords_scratchWord (by decide)) (hnext ▸ offWords_scratchWord (by decide)) ?_ fun u hu => hk u ?_
  · rw [hvalue, hcopy]
    exact of_decide_eq_true hr
  · rw [hvalue, hcopy] at hu
    exact (hu.of_update_scratch (by decide)).of_update_scratch (by decide)

/-- `R2` makes the Montgomery form of two words (rule R225). -/
theorem mont512Result_r2 (hw : d.width = .w512) (hodd : d.modulus % 2 = 1) {x : Nat} (hx : x < d.modulus)
    (hp : d.modulus < W * W) :
    x * d.r2 < d.modulus * (W * W) ∧ mont512Result d x d.r2 = toRepresentationResult d x := by
  have hpos : 0 < d.modulus := by omega
  have hr2 : d.r2 < d.modulus := Nat.mod_lt _ hpos
  have hlt : x * d.r2 < d.modulus * (W * W) := Nat.mul_lt_mul'' hx (hr2.trans hp)
  have hmod : mont512Result d x d.r2 * (W * W) ≡ x * (W * W) % d.modulus * (W * W) [MOD d.modulus] := by
    rw [Nat.ModEq, mont512Result_mul_radix_mod hodd, Descriptor.r2, radix_eq_W_mul_W hw, Nat.mul_mod_mod, Nat.mod_mul_mod,
      Nat.mul_assoc x]
  rw [toRepresentationResult_eq_w512 hw]
  exact ⟨hlt, (hmod.cancel_right_of_coprime (coprime_W_mul_W_of_odd hodd)).eq_of_lt_of_lt (mont512Result_lt hodd hlt)
    (Nat.mod_lt _ hpos)⟩

/-- The multiplication by two adjacent constants. -/
theorem mulMont512Body_const_ends {i v : Nat} {k : State → Out} {Q : State → Prop} (hF : SeqField s d) (hi : i + 1 < 8)
    (hb : Binds s.cfg f (some .w512) (some .montgomery) d) (hdst : WideWr s.cfg dst)
    (hv : d.constWord i + W * d.constWord (i + 1) = v) (hlt : wideOf s.words .w512 dst * v < d.modulus * (W * W))
    (hk : ∀ u, Leaves s s.words .w512 dst (mont512Result d (wideOf s.words .w512 dst) v) u → Ends (k u) Q) :
    Ends (mulMont512Body d dst (constAddr d i) s.beginOp k) Q := by
  have hs := seqAt_beginOp s
  have hnext : constAddr d i + 32 = constAddr d (i + 1) := by rw [constAddr, constAddr, Nat.mul_succ, Nat.add_assoc]
  have hvalue : wideOf s.words .w512 (constAddr d i) = v := by
    rw [wideOf, hnext, hs.const hF (by omega), hs.const hF hi, hv]
  refine mulMont512Body_ends hF hb.modulus_lt_wide hb.modulus_odd hs hdst (hF.const (by omega)) (hnext ▸ hF.const hi)
    ((hF.offScratch_const (by omega)).offWords (by decide)) (hnext ▸ (hF.offScratch_const hi).offWords (by decide)) ?_ ?_
  · rwa [hvalue]
  · rwa [hvalue]

theorem refToRepresentation512_carriesOut :
    CarriesOut (refToRepresentation512 f dst) (exec (.toRepresentation512 f dst)) := by
  refine carriesOut_modUnary (body := _) (fun _ => rfl) fun s d Q hF hb hl hr hk => ?_
  have hx : wideOf s.words .w512 dst < d.modulus := of_decide_eq_true hr
  obtain ⟨hlt, hres⟩ := mont512Result_r2 hb.width_eq hb.modulus_odd hx hb.modulus_lt_wide
  rw [r2Addr_eq]
  refine mulMont512Body_const_ends hF (by decide) hb (hl.wideWr List.mem_cons_self) (Nat.mod_add_div d.r2 W) hlt ?_
  rwa [hres]

theorem refToInteger512_carriesOut : CarriesOut (refToInteger512 f dst) (exec (.toInteger512 f dst)) := by
  refine carriesOut_modUnary (body := _) (fun _ => rfl) fun s d Q hF hb hl hr hk => ?_
  have hdst := hl.wideWr List.mem_cons_self
  have hs := seqAt_beginOp s
  have hlt : wideOf s.words .w512 dst * 1 < d.modulus * (W * W) := by
    rw [Nat.mul_one]
    exact (wide_lt (hs.lt hdst.lo.aligned) (hs.lt hdst.hi.aligned)).trans_le (Nat.le_mul_of_pos_left _ hb.modulus_pos)
  rw [oneAddr_eq]
  exact mulMont512Body_const_ends hF (by decide) hb hdst rfl hlt hk

end

/-! ### The obligation -/

/-- Settles O60: each multiplication step adds to the accumulator, each pass divides it exactly as one iteration of `MM512`
does, and `CSUBP512` corrects what two passes leave. -/
theorem sequencesCarryOutWideMontgomery : Obligations.SequencesCarryOutWideMontgomery := by
  unfold Obligations.SequencesCarryOutWideMontgomery
  exact fun f dst src => ⟨refMulMont512_carriesOut, refSquareMont512_carriesOut, refToRepresentation512_carriesOut,
    refToInteger512_carriesOut⟩

end Sys2Proof.Machine
end
